-- ==== Sys2Proof/Word.lean ====
section
/-! DEFINITION. The widths of the block: a byte (R14), a bus word (R11, R45) and a bus address (R11). -/

namespace Sys2Proof

/-- A byte, an 8-bit value (R14). -/
abbrev Byte := BitVec 8

/-- A bus word, a register value and a command word: 32 bits (R11, R45, R60). -/
abbrev Word := BitVec 32

/-- A host bus byte address, `ADDR_W` = 20 bits (R11, R40). -/
abbrev Addr := BitVec 20

end Sys2Proof
end

