-- ==== Sys2Proof/Config.lean ====
section
/-! DEFINITION. What an implementation fixes, and the free values: the parameters' defaults and ranges (R9, R10,
93_implementation_defined P1, P2), the identity constant (R30), and the opaque constants that stand for the values and
orders the spec leaves open (93 U1, U2). -/

namespace Sys2Proof

/-- The default of `NUM_CH` (R9). -/
def Config.defaultNumCh : Nat := 4

/-- The default of `BUF_BYTES` (R10). -/
def Config.defaultBufBytes : Nat := 4096

/-- What the register `ID` reads, "AESC" (R3, R30). -/
def Config.idWord : Word := 0x41455343

/-- FREE VALUE (93 U1; log entry 2): what the `n`-th read of an unspecified buffer byte gives. It has no body that a
proof can see, so a statement about it holds for every value. -/
opaque Config.freeByte : Nat → Byte

/-- FREE VALUE (93 U2; log entry 4): which of the enabled movers moves, where the schedule in the state says nothing. -/
opaque Config.pick : Nat → Nat

/-- FREE VALUE (R119, R131; log entry 4): how many host accesses may still come before a completion must, each a finite number and
none of them bounded. -/
opaque Config.delay : Nat → Nat

end Sys2Proof
end

