-- ==== Sys2Proof/Syntax.lean ====
section
/-! DEFINITION. The instructions: one constructor for each row of spec/opcode_table.json (R61). A command has no operand
field (R60, R65), so no constructor has an argument. A word that is none of them is illegal (R62) and is no instruction:
the decoder rejects it by name and its completion takes the error (R102). -/

namespace Sys2Proof

/-- The commands of the opcode map (R61). -/
inductive Instr where
  /-- `NOP`, 0x00000000 (R63, R100). -/
  | nop
  /-- `ENC`, 0x00000001: pad, then AES-CBC-encrypt (R91). -/
  | enc
  /-- `DEC`, 0x00000002: AES-CBC-decrypt, then validate and remove the padding (R92). -/
  | dec
  /-- `ENC_RAW`, 0x00000003: AES-CBC-encrypt whole blocks (R93). -/
  | encRaw
  /-- `DEC_RAW`, 0x00000004: AES-CBC-decrypt whole blocks (R94). -/
  | decRaw
  /-- `CLEAR`, 0x00000005: zeroise the channel (R101). -/
  | clear
  deriving DecidableEq, Repr

end Sys2Proof
end

