-- ==== Sys2Proof/WellFormed.lean ====
section
/-! DEFINITION. Well-formedness: of an instruction, and of the block's parameters. -/

namespace Sys2Proof

/-- Every instruction is well formed: the format has no operand field that could hold an illegal value (R60, R65).
Legality of the lengths is checked when a command runs (R39, R90), never here. -/
def Instr.wellFormed : Instr → Bool
  | .nop | .enc | .dec | .encRaw | .decRaw | .clear => true

/-- `NUM_CH` is 1 to 15 (R9, 93 P1). -/
def Config.numChOk (numCh : Nat) : Bool := 1 ≤ numCh && numCh ≤ 15

/-- `BUF_BYTES` is a multiple of 16 in 16 to 16384 (R10, 93 P2). -/
def Config.bufBytesOk (bufBytes : Nat) : Bool := 16 ≤ bufBytes && bufBytes ≤ 16384 && bufBytes % 16 == 0

/-- The parameters are in their ranges; a configuration outside them is refused (93 P1, P2). -/
def Config.paramsOk (numCh bufBytes : Nat) : Bool := Config.numChOk numCh && Config.bufBytesOk bufBytes

end Sys2Proof
end

