-- ==== Sys2Proof/Decode.lean ====
section
/-! DEFINITION. The decoder of command words, total on all 2^32 words and rejecting by name (R60 to R64), and the encoder,
written from the same opcode map (R61). -/

namespace Sys2Proof

/-- Why a word is no command. -/
inductive DecodeError where
  /-- `RSV ≠ 0`, or `OP` is 0x06 to 0xFF: an illegal command word (R62). -/
  | illegalCommand
  deriving DecidableEq, Repr

/-- `OP = w[7:0]` (R60, R64). -/
def opField (w : Word) : Byte := w.extractLsb' 0 8

/-- `RSV = w[31:8]` (R60, R64). -/
def rsvField (w : Word) : BitVec 24 := w.extractLsb' 8 24

/-- The opcode map by `OP`, for a word whose `RSV` is 0 (R61, R62). -/
def decodeOp (op : Byte) : Except DecodeError Instr :=
  if op = 0x00 then .ok .nop
  else if op = 0x01 then .ok .enc
  else if op = 0x02 then .ok .dec
  else if op = 0x03 then .ok .encRaw
  else if op = 0x04 then .ok .decRaw
  else if op = 0x05 then .ok .clear
  else .error .illegalCommand

/-- The decoder of R64. -/
def decode (w : Word) : Except DecodeError Instr :=
  if rsvField w = 0 then decodeOp (opField w) else .error .illegalCommand

/-- The command word of an instruction (R61). -/
def encode : Instr → Word
  | .nop => 0x00000000
  | .enc => 0x00000001
  | .dec => 0x00000002
  | .encRaw => 0x00000003
  | .decRaw => 0x00000004
  | .clear => 0x00000005

/-- The word of a bit string numbered as spec/opcode_table.json numbers it: `nbits` bits, the bits above them 0. -/
def tableWord (nbits w : Nat) : Word := BitVec.ofNat 32 (w % 2 ^ nbits)

/-- The instruction the decoder reads from an instruction whose bits are `w`. -/
def decodeTableWord (nbits w : Nat) : Option Instr :=
  match decode (tableWord nbits w) with
  | .ok i => some i
  | .error _ => none

end Sys2Proof
end

