-- ==== Sys2Proof/Machine/State.lean ====
section
/-! DEFINITION. The state of the block (spec/10_state.md), of the host's pending accesses and of the schedule, all plain
data, and the state after reset (R38, R130). -/

namespace Sys2Proof.Machine

/-- A byte buffer: (byte index, byte) pairs, indexes strictly rising. An index that is not listed is a byte nothing has
written since reset. -/
abbrev Memory := List Host.Cell

/-- What an unlisted byte reads as: no value of its own. The spec leaves it unspecified, and each read of it is a fresh draw
(R28, R29, R38, 93 U1; log entry 1). -/
def Memory.unlisted : Option Byte := none

/-- Every index is at least `lo`, and the indexes strictly rise. -/
def Memory.risesFrom : Nat → Memory → Bool
  | _, [] => true
  | lo, (a, _) :: rest => lo ≤ a && Memory.risesFrom (a + 1) rest

/-- The canonical form: the indexes strictly rise, and no entry equals what an unlisted byte reads as (a listed byte is a
value, `some b`, and an unlisted one is `Memory.unlisted`, so this second half always holds). -/
def Memory.wf (m : Memory) : Bool :=
  Memory.risesFrom 0 m && m.all (fun cell => some cell.2 != Memory.unlisted)

/-- The error codes of `STATUS.ERR` (R111); codes 6 to 15 are never produced (R19). -/
inductive ErrCode where
  /-- 0, success. -/
  | ok
  /-- 1, `INVALID_KEY_MATERIAL` (R112). -/
  | invalidKeyMaterial
  /-- 2, `INVALID_CIPHERTEXT_LENGTH` (R113). -/
  | invalidCiphertextLength
  /-- 3, `PADDING_VALIDATION` (R114). -/
  | paddingValidation
  /-- 4, `INVALID_DATA_LENGTH` (R115). -/
  | invalidDataLength
  /-- 5, `ILLEGAL_COMMAND` (R116). -/
  | illegalCommand
  deriving DecidableEq, Repr

/-- One channel: its control state, registers and buffers (R18 to R29). -/
structure Channel where
  /-- `BUSY` (R18, R19). -/
  busy : Bool
  /-- `JOB`, the hidden latch of the command word accepted last (R18). -/
  job : Word
  /-- `DONE` (R19). -/
  done : Bool
  /-- `ERR` (R19, R111). -/
  err : ErrCode
  /-- `WERR` (R19, R117). -/
  werr : Bool
  /-- `KEY_LEN` (R21). -/
  keyLen : Word
  /-- `KEY0`–`KEY7` (R24). -/
  key : Vector Word 8
  /-- `IV_LEN` (R22). -/
  ivLen : Word
  /-- `IV0`–`IV3` (R23). -/
  iv : Vector Word 4
  /-- `IN_LEN` (R25). -/
  inLen : Word
  /-- `OUT_LEN` (R26). -/
  outLen : Word
  /-- `CHAIN0`–`CHAIN3` (R27). -/
  chain : Vector Word 4
  /-- `DIN`, `BUF_BYTES` bytes (R28). -/
  din : Memory
  /-- `DOUT`, `BUF_BYTES + 16` bytes (R29). -/
  dout : Memory
  deriving DecidableEq, Repr

/-- One access of the host (R66), or a wait of it: a polling loop, or a wait for the `irq` line (R67). -/
inductive HostOp where
  /-- `RD addr`: one bus read (R48, R66). -/
  | rd (a : Addr)
  /-- `WR addr, value`: one bus write (R49, R66). -/
  | wr (a : Addr) (v : Word)
  /-- `POLL addr, mask, val`: `RD addr -> t` until `(t AND mask) = val` (R67). -/
  | poll (a : Addr) (mask val : Word)
  /-- A wait for the `irq` line to go high, which reads nothing on the bus (R67). -/
  | awaitIrq
  deriving DecidableEq, Repr

/-- Who moves in one step of the interleaving (R55, R130). -/
inductive Move where
  /-- The host makes its next access. -/
  | host
  /-- Channel `c` takes its completion step (R119). -/
  | complete (c : Nat)
  /-- The reset input is asserted (R130). -/
  | reset
  deriving DecidableEq, Repr

/-- The whole state. `NUM_CH` is the number of channels in `chans` (R9). -/
structure State where
  /-- The parameter `BUF_BYTES` (R10); no step changes it. -/
  bufBytes : Nat
  /-- The channels, in the order of their index (R127). -/
  chans : List Channel
  /-- `INT_STATUS` (R32). -/
  intStatus : Word
  /-- `INT_ENABLE` (R33). -/
  intEnable : Word
  /-- The MODEL's own (log entry 6): the channel whose command the running step executes. -/
  sel : Nat
  /-- The MODEL's own (log entry 3): the accesses the host has still to make, in its issue order (R55, R66). -/
  host : List HostOp
  /-- The MODEL's own (log entry 3): who moves next, as far as the data says; after it the order is open (93 U2). -/
  sched : List Move
  /-- The MODEL's own (log entry 7): the words the host's reads have returned, newest first (R66). -/
  reads : List Word
  /-- The MODEL's own (log entry 2): how many free values have been used. -/
  draws : Nat
  /-- The MODEL's own (log entry 4): while a command is in flight, how many host accesses may still come before a completion must
  (R119, R131); `none` where no such number has been drawn. -/
  delay : Option Nat
  deriving DecidableEq, Repr

/-- Why a step stops. The block itself never stops (R110); both reasons name a step the spec does not have, and both are
SAFE: no state that meets the model's invariant reaches either through `step`. -/
inductive Fault where
  /-- Raised by the shared completion operation when the selected channel is absent or not BUSY: R119 enables a completion
  exactly when `BUSY = 1`. Safe: `step` never asks for it. -/
  | notEnabled
  /-- Raised by a completion whose `JOB` is 0: no acceptance latches 0 (R53), so the spec gives that completion no body.
  Safe: the invariant rules it out. -/
  | noBody
  deriving DecidableEq, Repr

/-- Why an instruction or a state has no meaning in the model. -/
inductive Refusal where
  /-- An instruction that has no meaning yet; raised only by an arm of `exec`. Safe. -/
  | notModelled (mnemonic : String)
  /-- Raised by `step` when `NUM_CH` or `BUF_BYTES` is outside its range: the spec refuses such a configuration
  (93 P1, P2). Safe. -/
  | badConfig
  deriving DecidableEq, Repr

/-- A channel right after reset (R38): every register 0, both buffers unspecified. -/
def Channel.reset : Channel where
  busy := false
  job := 0
  done := false
  err := .ok
  werr := false
  keyLen := 0
  key := Vector.replicate 8 0
  ivLen := 0
  iv := Vector.replicate 4 0
  inLen := 0
  outLen := 0
  chain := Vector.replicate 4 0
  din := []
  dout := []

/-- The machine right after reset, with the default parameters (R9, R10, R38, R130): every channel IDLE, nothing for the
host to do and nothing scheduled (log entry 3). -/
def State.reset : State where
  bufBytes := Config.defaultBufBytes
  chans := List.replicate Config.defaultNumCh Channel.reset
  intStatus := 0
  intEnable := 0
  sel := 0
  host := []
  sched := []
  reads := []
  draws := 0
  delay := none

end Sys2Proof.Machine
end

