-- ==== Sys2Proof/Machine/Flags.lean ====
section
/-! DEFINITION. Every status word and flag computation: STATUS (R19), the error codes' numbers (R111), CONFIG (R31), CH_BUSY
(R34), the interrupt bits and the `irq` level (R32, R33, R35, R122). -/

namespace Sys2Proof.Machine

/-- The number of an error code (R111). -/
def ErrCode.code : ErrCode → Word
  | .ok => 0
  | .invalidKeyMaterial => 1
  | .invalidCiphertextLength => 2
  | .paddingValidation => 3
  | .invalidDataLength => 4
  | .illegalCommand => 5

/-- A one-bit field as a word. -/
def flagWord (b : Bool) : Word := if b then 1 else 0

/-- What a read of `STATUS` returns: `WERR << 8 | ERR << 4 | DONE << 1 | BUSY` (R19, R48). -/
def Channel.statusWord (ch : Channel) : Word :=
  flagWord ch.werr <<< 8 ||| ch.err.code <<< 4 ||| flagWord ch.done <<< 1 ||| flagWord ch.busy

/-- `mask(n) = 2^n − 1` (R49): the bits of the `n` channels. -/
def channelMask (n : Nat) : Word := BitVec.ofNat 32 (2 ^ n - 1)

/-- Bit `c` of `INT_STATUS` and `INT_ENABLE` (R32, R33). -/
def channelBit (c : Nat) : Word := 1#32 <<< c

/-- `OR over c of (BUSY << c)`, over the channels of a list, its first at bit 0 (R34, R48). -/
def busyBits : List Channel → Word
  | [] => 0
  | ch :: rest => flagWord ch.busy ||| busyBits rest <<< 1

/-- What a read of `CH_BUSY` returns (R34). -/
def State.chBusyWord (s : State) : Word := busyBits s.chans

/-- The interrupt output: 1 exactly when `(INT_STATUS AND INT_ENABLE) ≠ 0` (R122). -/
def State.irq (s : State) : Bool := s.intStatus &&& s.intEnable != 0

/-- What a read of `IRQ_LEVEL` returns (R35). -/
def State.irqLevelWord (s : State) : Word := flagWord s.irq

/-- What a read of `CONFIG` returns: `NUM_CH` in bits 3:0, `BUF_BYTES / 16` in bits 31:16 (R31, R48). -/
def State.configWord (s : State) : Word :=
  BitVec.ofNat 32 (s.bufBytes / 16) <<< 16 ||| BitVec.ofNat 32 s.chans.length

end Sys2Proof.Machine
end

