-- ==== Sys2Proof/Machine/Lanes.lean ====
section
/-! DEFINITION. Byte order: little-endian byte lanes (R44), decided here once. -/

namespace Sys2Proof.Machine

/-- Byte `j` of a word, bits `[8j+7 : 8j]` (R44). -/
def lane (w : Word) (j : Nat) : Byte := w.extractLsb' (8 * j) 8

/-- The four bytes of a word, the byte at the lowest address first (R44). -/
def bytesOfWord (w : Word) : List Byte := [lane w 0, lane w 1, lane w 2, lane w 3]

/-- The word whose bytes, lowest address first, are `b0 b1 b2 b3` (R44, `word` of R48). -/
def wordOfBytes (b0 b1 b2 b3 : Byte) : Word :=
  b0.setWidth 32 ||| b1.setWidth 32 <<< 8 ||| b2.setWidth 32 <<< 16 ||| b3.setWidth 32 <<< 24

/-- `word(B, j)` of R48: the word at offset `j` of a byte sequence; an index past its end counts as 0x00. -/
def wordAt (bytes : List Byte) (j : Nat) : Word :=
  wordOfBytes (bytes.getD j 0) (bytes.getD (j + 1) 0) (bytes.getD (j + 2) 0) (bytes.getD (j + 3) 0)

/-- The byte sequence a row of registers holds: byte `i` in register `i div 4`, lane `i mod 4` (R23, R24, R44). -/
def regBytes {n : Nat} (regs : Vector Word n) : List Byte := regs.toList.flatMap bytesOfWord

/-- A 16-byte block as four registers (R23, R27, R44). -/
def blockRegs (bytes : List Byte) : Vector Word 4 :=
  #v[wordAt bytes 0, wordAt bytes 4, wordAt bytes 8, wordAt bytes 12]

end Sys2Proof.Machine
end

