-- ==== Sys2Proof/Machine/Ops.lean ====
section
/-! DEFINITION. The named operations over buffers, channels and the global registers: reads of unspecified bytes as draws (93 U1),
acceptance (R53), dropped writes (R52), the results of a command (R95, R101, R120), THE COMPLETION STEP, which is the block's only
counterpart of taking an exception (R119), and reset (R130). -/

namespace Sys2Proof.Machine

/-- What a step of the machine answers. -/
abbrev Result := Host.Outcome State Fault Refusal

/-! Buffers -/

/-- The byte at an index of a buffer, where it is specified. -/
def Memory.get? : Memory → Nat → Option Byte
  | [], _ => Memory.unlisted
  | (k, v) :: rest, a => if k = a then some v else Memory.get? rest a

/-- Stores a byte, keeping the indexes rising. -/
def Memory.set : Memory → Nat → Byte → Memory
  | [], a, b => [(a, b)]
  | (k, v) :: rest, a, b =>
    if a < k then (a, b) :: (k, v) :: rest
    else if a = k then (a, b) :: rest
    else (k, v) :: Memory.set rest a b

/-- The buffer that holds a byte sequence from index `base` on and nothing else. -/
def Memory.ofBytes (base : Nat) : List Byte → Memory
  | [] => []
  | b :: rest => (base, b) :: Memory.ofBytes (base + 1) rest

/-- `n` bytes, all 0x00, from index 0 on (R101, R120). -/
def Memory.zeros (n : Nat) : Memory := Memory.ofBytes 0 (List.replicate n 0)

/-- Stores the four lanes of a word from index `a` on (R44, R49). -/
def Memory.setWord (m : Memory) (a : Nat) (v : Word) : Memory :=
  (((m.set a (lane v 0)).set (a + 1) (lane v 1)).set (a + 2) (lane v 2)).set (a + 3) (lane v 3)

/-- One read of a byte: its value, or a fresh draw where it is unspecified (93 U1). The second part is the number of free
values used after it. -/
def Memory.draw (m : Memory) (a : Nat) (draws : Nat) : Byte × Nat :=
  match m.get? a with
  | some b => (b, draws)
  | none => (Config.freeByte draws, draws + 1)

/-- One read of each of the `n` bytes from index `a` on. -/
def Memory.drawBytes (m : Memory) : Nat → Nat → Nat → List Byte × Nat
  | _, 0, draws => ([], draws)
  | a, n + 1, draws =>
    ((m.draw a draws).1 :: (m.drawBytes (a + 1) n (m.draw a draws).2).1, (m.drawBytes (a + 1) n (m.draw a draws).2).2)

/-- One read of the word at index `a`, `word(B, a)` of R48. -/
def Memory.drawWord (m : Memory) (a : Nat) (draws : Nat) : Word × Nat :=
  (wordAt (m.drawBytes a 4 draws).1 0, (m.drawBytes a 4 draws).2)

/-! Channels -/

/-- `accept(c, v)` on the channel's own fields (R53): everything it does not name is unchanged. -/
def Channel.accept (ch : Channel) (v : Word) : Channel :=
  { ch with job := v, busy := true, done := false, err := .ok }

/-- A write to a protected register of a BUSY channel: dropped, `WERR <- 1` (R52). -/
def Channel.dropWrite (ch : Channel) : Channel := { ch with werr := true }

/-- `Finish(Y, chain)`, the success epilogue (R95). -/
def Channel.finish (ch : Channel) (bufBytes : Nat) (y chain : List Byte) : Channel :=
  { ch with
    dout := Memory.ofBytes 0 (y ++ List.replicate (bufBytes + 16 - y.length) 0)
    outLen := BitVec.ofNat 32 y.length
    chain := blockRegs chain }

/-- `Fail()`, the effects of a failed command (R120). -/
def Channel.fail (ch : Channel) (bufBytes : Nat) : Channel :=
  { ch with dout := Memory.zeros (bufBytes + 16), outLen := 0 }

/-- The effects of CLEAR's body (R101). -/
def Channel.cleared (ch : Channel) (bufBytes : Nat) : Channel :=
  { ch with
    key := Vector.replicate 8 0
    keyLen := 0
    iv := Vector.replicate 4 0
    ivLen := 0
    inLen := 0
    outLen := 0
    chain := Vector.replicate 4 0
    din := Memory.zeros bufBytes
    dout := Memory.zeros (bufBytes + 16) }

/-- The end of the completion step on the channel's own fields: `ERR <- code`, `DONE <- 1`, `BUSY <- 0` (R119). -/
def Channel.retire (ch : Channel) (code : ErrCode) : Channel :=
  { ch with err := code, done := true, busy := false }

/-- The channel after a body has ended normally, leaving the channel it gives, or has raised a code (R119). -/
def Channel.settle (ch : Channel) (bufBytes : Nat) : Except ErrCode Channel → Channel
  | .ok ran => ran.retire .ok
  | .error code => (ch.fail bufBytes).retire code

/-! The machine -/

/-- `NUM_CH` (R9). -/
def State.numCh (s : State) : Nat := s.chans.length

/-- Channel `c`, where there is one. -/
def State.chan? (s : State) (c : Nat) : Option Channel := s.chans[c]?

/-- Channel `c` replaced. -/
def State.setChan (s : State) (c : Nat) (ch : Channel) : State := { s with chans := s.chans.set c ch }

/-- `g.INT_STATUS[c] <- 1` (R119, R121). -/
def State.pend (s : State) (c : Nat) : State := { s with intStatus := s.intStatus ||| channelBit c }

/-- `INT_STATUS` replaced (R49). -/
def State.setIntStatus (s : State) (v : Word) : State := { s with intStatus := v }

/-- `INT_ENABLE` replaced (R49). -/
def State.setIntEnable (s : State) (v : Word) : State := { s with intEnable := v }

/-- The number of free values used (log entry 2). -/
def State.setDraws (s : State) (n : Nat) : State := { s with draws := n }

/-- The host accesses that may still come before a completion must (log entry 4). -/
def State.setDelay (s : State) (d : Option Nat) : State := { s with delay := d }

/-- The channel the running step works on (log entry 6). -/
def State.setSel (s : State) (c : Nat) : State := { s with sel := c }

/-- The accesses the host has still to make (log entry 3). -/
def State.setHost (s : State) (ops : List HostOp) : State := { s with host := ops }

/-- The moves the schedule still names (log entry 3). -/
def State.setSched (s : State) (moves : List Move) : State := { s with sched := moves }

/-- A word returned to the host (log entry 7). -/
def State.pushRead (s : State) (v : Word) : State := { s with reads := v :: s.reads }

/-- The body of a command: from `BUF_BYTES`, the channel and the number of free values used, the channel it leaves or the
code it raises, and the number of free values used after it (R119). -/
abbrev Body := Nat → Channel → Nat → Except ErrCode Channel × Nat

/-- `Complete(c)` for the selected channel, with the body of its command: one atomic step, enabled exactly when the channel is
BUSY (R119). A success and every error code go through it; it saves no state and transfers no control. -/
def complete (body : Body) (s : State) : Result :=
  match s.chan? s.sel with
  | none => .fault .notEnabled
  | some ch =>
    if ch.busy then
      .next (((s.setChan s.sel (ch.settle s.bufBytes (body s.bufBytes ch s.draws).1)).pend s.sel).setDraws
        (body s.bufBytes ch s.draws).2)
    else .fault .notEnabled

/-- A host write to a protected register of channel `c`: its effect while IDLE, dropped while BUSY (R49, R52). -/
def State.protectedWrite (s : State) (c : Nat) (effect : Channel → Channel) : State :=
  match s.chan? c with
  | none => s
  | some ch => s.setChan c (if ch.busy then ch.dropWrite else effect ch)

/-- A host write of `v` to `CMD` of channel `c`: a nonzero word is accepted, 0 is the no-operation word (R20, R49, R53). -/
def State.cmdWrite (s : State) (c : Nat) (v : Word) : State :=
  s.protectedWrite c fun ch => if v = 0 then ch else ch.accept v

/-- A host write of `v` to `STATUS` of channel `c`: `WERR <- WERR AND NOT v[8]` and nothing else (R19, R49). -/
def State.statusWrite (s : State) (c : Nat) (v : Word) : State :=
  match s.chan? c with
  | none => s
  | some ch => s.setChan c { ch with werr := ch.werr && !v.getLsbD 8 }

/-- The reset step (R130): every piece of the block's state at its value of R38, commands in flight discarded. The parameters
are not state; the host, its reads and the schedule lie outside the block. -/
def State.resetBlock (s : State) : State :=
  { s with
    chans := List.replicate s.chans.length Channel.reset
    intStatus := 0
    intEnable := 0 }

end Sys2Proof.Machine
end

