-- ==== Sys2Proof/Machine/Bus.lean ====
section
/-! DEFINITION. The host bus: the address map (R40 to R43, R46), MemRead (R48) and MemWrite (R49). -/

namespace Sys2Proof.Machine

/-- What a word address selects (R41, R42 and the tables of spec/10_state.md). Channel numbers are below `NUM_CH`. -/
inductive Loc where
  | id
  | config
  | intStatus
  | intEnable
  | chBusy
  | irqLevel
  | cmd (c : Nat)
  | status (c : Nat)
  | keyLen (c : Nat)
  | ivLen (c : Nat)
  | inLen (c : Nat)
  | outLen (c : Nat)
  /-- `KEY k`. -/
  | key (c : Nat) (k : Fin 8)
  /-- `IV k`. -/
  | iv (c : Nat) (k : Fin 4)
  /-- `CHAIN k`. -/
  | chain (c : Nat) (k : Fin 4)
  /-- The word at byte `j` of the `DIN` window. -/
  | din (c : Nat) (j : Nat)
  /-- The word at byte `j` of the `DOUT` window. -/
  | dout (c : Nat) (j : Nat)
  /-- A reserved offset or an absent bank: RAZ/WI (R43). -/
  | reserved
  deriving DecidableEq, Repr

/-- `CH_BASE(c) = 0x10000 × (c + 1)` (R41). -/
def chBase (c : Nat) : Nat := 0x10000 * (c + 1)

/-- The offsets of the global bank (spec/10_state.md section 4). -/
def globalLoc (off : Nat) : Loc :=
  if off = 0x000 then .id
  else if off = 0x004 then .config
  else if off = 0x008 then .intStatus
  else if off = 0x00C then .intEnable
  else if off = 0x010 then .chBusy
  else if off = 0x014 then .irqLevel
  else .reserved

/-- The offsets of a channel bank (R42 and the table of spec/10_state.md section 2). -/
def channelLoc (bufBytes c off : Nat) : Loc :=
  if off = 0x000 then .cmd c
  else if off = 0x004 then .status c
  else if off = 0x008 then .keyLen c
  else if off = 0x00C then .ivLen c
  else if off = 0x010 then .inLen c
  else if off = 0x014 then .outLen c
  else if 0x020 ≤ off ∧ off ≤ 0x03C then .key c (Fin.ofNat 8 ((off - 0x020) / 4))
  else if 0x040 ≤ off ∧ off ≤ 0x04C then .iv c (Fin.ofNat 4 ((off - 0x040) / 4))
  else if 0x050 ≤ off ∧ off ≤ 0x05C then .chain c (Fin.ofNat 4 ((off - 0x050) / 4))
  else if 0x4000 ≤ off ∧ off < 0x4000 + bufBytes then .din c (off - 0x4000)
  else if 0x8000 ≤ off ∧ off < 0x8000 + bufBytes + 16 then .dout c (off - 0x8000)
  else .reserved

/-- What a host address selects: its bits [1:0] ignored (R46), its bank by bits [19:16] (R41). -/
def locate (numCh bufBytes : Nat) (addr : Addr) : Loc :=
  let a := addr.toNat / 4 * 4
  if a / 0x10000 = 0 then globalLoc a
  else if a / 0x10000 - 1 < numCh then channelLoc bufBytes (a / 0x10000 - 1) (a % 0x10000)
  else .reserved

/-- What an address selects on this machine. -/
def State.locate (s : State) (addr : Addr) : Loc := Machine.locate s.numCh s.bufBytes addr

/-- A register of channel `c` as a word; 0 where there is no such channel (R41, R43). -/
def State.chanWord (s : State) (c : Nat) (word : Channel → Word) : Word :=
  match s.chan? c with
  | none => 0
  | some ch => word ch

/-- A read of a word of a buffer of channel `c`; 0 where there is no such channel. -/
def State.chanDraw (s : State) (c : Nat) (word : Channel → Word × Nat) : Word × Nat :=
  match s.chan? c with
  | none => (0, s.draws)
  | some ch => word ch

/-- A result of the channel: 0x00000000 while it is BUSY (R26, R27, R52). -/
def Channel.masked (ch : Channel) (v : Word) : Word := if ch.busy then 0 else v

/-- The word of a location, and the number of free values used after reading it (R48). -/
def State.readLoc (s : State) : Loc → Word × Nat
  | .id => (Config.idWord, s.draws)
  | .config => (s.configWord, s.draws)
  | .intStatus => (s.intStatus, s.draws)
  | .intEnable => (s.intEnable, s.draws)
  | .chBusy => (s.chBusyWord, s.draws)
  | .irqLevel => (s.irqLevelWord, s.draws)
  | .cmd _ => (0, s.draws)
  | .status c => (s.chanWord c Channel.statusWord, s.draws)
  | .keyLen c => (s.chanWord c Channel.keyLen, s.draws)
  | .ivLen c => (s.chanWord c Channel.ivLen, s.draws)
  | .inLen c => (s.chanWord c Channel.inLen, s.draws)
  | .outLen c => (s.chanWord c fun ch => ch.masked ch.outLen, s.draws)
  | .key _ _ => (0, s.draws)
  | .iv c k => (s.chanWord c fun ch => ch.iv[k], s.draws)
  | .chain c k => (s.chanWord c fun ch => ch.masked ch.chain[k], s.draws)
  | .din c j => s.chanDraw c fun ch => ch.din.drawWord j s.draws
  | .dout c j => s.chanDraw c fun ch => if ch.busy then (0, s.draws) else ch.dout.drawWord j s.draws
  | .reserved => (0, s.draws)

/-- `MemRead(addr, 4)` (R48): the word, and the number of free values used after it; it changes no state of the block. -/
def State.memRead (s : State) (addr : Addr) : Word × Nat := s.readLoc (s.locate addr)

/-- The effect of a host write of `v` to a location (R49). -/
def State.writeLoc (s : State) (v : Word) : Loc → State
  | .id => s
  | .config => s
  | .intStatus => s.setIntStatus (s.intStatus &&& ~~~v &&& channelMask s.numCh)
  | .intEnable => s.setIntEnable (v &&& channelMask s.numCh)
  | .chBusy => s
  | .irqLevel => s
  | .cmd c => s.cmdWrite c v
  | .status c => s.statusWrite c v
  | .keyLen c => s.protectedWrite c fun ch => { ch with keyLen := v }
  | .ivLen c => s.protectedWrite c fun ch => { ch with ivLen := v }
  | .inLen c => s.protectedWrite c fun ch => { ch with inLen := v }
  | .outLen _ => s
  | .key c k => s.protectedWrite c fun ch => { ch with key := ch.key.set k v }
  | .iv c k => s.protectedWrite c fun ch => { ch with iv := ch.iv.set k v }
  | .chain _ _ => s
  | .din c j => s.protectedWrite c fun ch => { ch with din := ch.din.setWord j v }
  | .dout _ _ => s
  | .reserved => s

/-- `MemWrite(addr, 4, v)` (R49). -/
def State.memWrite (s : State) (addr : Addr) (v : Word) : State := s.writeLoc v (s.locate addr)

end Sys2Proof.Machine
end

