-- ==== Sys2Proof/Machine/Control.lean ====
section
/-! DEFINITION. The control commands NOP and CLEAR, and the completion of an illegal word (spec/42_control_commands.md). -/

namespace Sys2Proof.Machine

/-- `NOP` (R100): a host write of 0x00000000 to `CMD` of the selected channel. While IDLE it is not accepted and changes nothing;
while BUSY it is a dropped write (R52). -/
def execNop (s : State) : Result := .next (s.cmdWrite s.sel 0)

/-- The body of CLEAR: it reads no register, checks nothing and cannot fail (R101). -/
def clearBody : Body := fun bufBytes ch draws => (.ok (ch.cleared bufBytes), draws)

/-- `CLEAR` (R101). -/
def execClear (s : State) : Result := complete clearBody s

/-- The body of an illegal word: `raise CmdError(ILLEGAL_COMMAND)` before any other check (R102, R116). -/
def illegalBody : Body := fun _ _ draws => (.error .illegalCommand, draws)

/-- The completion of an illegal command word, which is no instruction of the table (R62, R102). -/
def completeIllegal (s : State) : Result := complete illegalBody s

end Sys2Proof.Machine
end

