-- ==== Sys2Proof/Machine/Aes.lean ====
section
/-! DEFINITION. The AES block cipher as R70 to R81 give it (FIPS-197, the spec's default: 93 G1, log entry 11). -/

namespace Sys2Proof.Machine

/-- Multiplication by `x` modulo 0x11B (R70). -/
def xtime (a : Byte) : Byte := (a <<< 1) ^^^ (if a.getLsbD 7 then 0x1B else 0x00)

/-- The terms of `a • b` for the `n` lowest bits of `b` (R70). -/
def gmulTerms : Nat → Byte → Byte → Byte
  | 0, _, _ => 0
  | n + 1, a, b => (if b.getLsbD 0 then a else 0) ^^^ gmulTerms n (xtime a) (b >>> 1)

/-- `a • b`, the product in GF(2^8): the XOR of `xtime^i(a)` over the bits `i` of `b` that are 1 (R70). -/
def gmul (a b : Byte) : Byte := gmulTerms 8 a b

/-- The S-box table of R71: row `hi`, its bytes in the order of the columns `lo` from 0 to F. -/
def sboxRows : List (BitVec 128) := [
  0x637C777BF26B6FC53001672BFED7AB76,
  0xCA82C97DFA5947F0ADD4A2AF9CA472C0,
  0xB7FD9326363FF7CC34A5E5F171D83115,
  0x04C723C31896059A071280E2EB27B275,
  0x09832C1A1B6E5AA0523BD6B329E32F84,
  0x53D100ED20FCB15B6ACBBE394A4C58CF,
  0xD0EFAAFB434D338545F9027F503C9FA8,
  0x51A3408F929D38F5BCB6DA2110FFF3D2,
  0xCD0C13EC5F974417C4A77E3D645D1973,
  0x60814FDC222A908846EEB814DE5E0BDB,
  0xE0323A0A4906245CC2D3AC629195E479,
  0xE7C8376D8DD54EA96C56F4EA657AAE08,
  0xBA78252E1CA6B4C6E8DD741F4BBD8B8A,
  0x703EB5664803F60E613557B986C11D9E,
  0xE1F8981169D98E949B1E87E9CE5528DF,
  0x8CA1890DBFE6426841992D0FB054BB16]

/-- The inverse S-box table of R72, laid out as the table of R71. -/
def invSboxRows : List (BitVec 128) := [
  0x52096AD53036A538BF40A39E81F3D7FB,
  0x7CE339829B2FFF87348E4344C4DEE9CB,
  0x547B9432A6C2233DEE4C950B42FAC34E,
  0x082EA16628D924B2765BA2496D8BD125,
  0x72F8F66486689816D4A45CCC5D65B692,
  0x6C704850FDEDB9DA5E154657A78D9D84,
  0x90D8AB008CBCD30AF7E45805B8B34506,
  0xD02C1E8FCA3F0F02C1AFBD0301138A6B,
  0x3A9111414F67DCEA97F2CFCEF0B4E673,
  0x96AC7422E7AD3585E2F937E81C75DF6E,
  0x47F11A711D29C5896FB7620EAA18BE1B,
  0xFC563E4BC6D279209ADBC0FE78CD5AF4,
  0x1FDDA8338807C731B11210592780EC5F,
  0x60517FA919B54A0D2DE57A9F93C99CEF,
  0xA0E03B4DAE2AF5B0C8EBBB3C83539961,
  0x172B047EBA77D626E169146355210C7D]

/-- The entry of a table at row `a[7:4]`, column `a[3:0]` (R71, R72). -/
def tableAt (rows : List (BitVec 128)) (a : Byte) : Byte :=
  (rows.getD (a.toNat / 16) 0).extractLsb' (8 * (15 - a.toNat % 16)) 8

/-- The S-box `S` (R71). -/
def sbox (a : Byte) : Byte := tableAt sboxRows a

/-- The inverse S-box `S^-1` (R72). -/
def invSbox (a : Byte) : Byte := tableAt invSboxRows a

/-- A 4-byte word `[a0, a1, a2, a3]` (R78), and a column of the state, row `r` in `a_r` (R73). -/
structure Col where
  a0 : Byte
  a1 : Byte
  a2 : Byte
  a3 : Byte
  deriving DecidableEq, Repr

/-- A 16-byte block and the AES state of it: column `c` holds bytes `4c` to `4c + 3` (R73). -/
structure Block where
  c0 : Col
  c1 : Col
  c2 : Col
  c3 : Col
  deriving DecidableEq, Repr

/-- The same byte function on each byte of a word. -/
def Col.map (f : Byte → Byte) (w : Col) : Col := ⟨f w.a0, f w.a1, f w.a2, f w.a3⟩

/-- Bytewise XOR of two words. -/
def Col.xor (v w : Col) : Col := ⟨v.a0 ^^^ w.a0, v.a1 ^^^ w.a1, v.a2 ^^^ w.a2, v.a3 ^^^ w.a3⟩

/-- The bytes of a word, `a0` first (R78). -/
def Col.toBytes (w : Col) : List Byte := [w.a0, w.a1, w.a2, w.a3]

/-- The same word function on each column of the state. -/
def Block.mapCols (f : Col → Col) (s : Block) : Block := ⟨f s.c0, f s.c1, f s.c2, f s.c3⟩

/-- `A ⊕ B` of two blocks (R14). -/
def Block.xor (s t : Block) : Block := ⟨s.c0.xor t.c0, s.c1.xor t.c1, s.c2.xor t.c2, s.c3.xor t.c3⟩

/-- The word at byte offset `i` of a byte sequence. -/
def Col.ofBytes (bytes : List Byte) (i : Nat) : Col :=
  ⟨bytes.getD i 0, bytes.getD (i + 1) 0, bytes.getD (i + 2) 0, bytes.getD (i + 3) 0⟩

/-- A 16-byte sequence enters the state: `s[r][c] = B[r + 4c]` (R73). -/
def Block.ofBytes (bytes : List Byte) : Block :=
  ⟨Col.ofBytes bytes 0, Col.ofBytes bytes 4, Col.ofBytes bytes 8, Col.ofBytes bytes 12⟩

/-- The state leaves as a 16-byte sequence: `B[r + 4c] = s[r][c]` (R73). -/
def Block.toBytes (s : Block) : List Byte := s.c0.toBytes ++ s.c1.toBytes ++ s.c2.toBytes ++ s.c3.toBytes

/-- `SubBytes` (R74). -/
def subBytes (s : Block) : Block := s.mapCols (Col.map sbox)

/-- `InvSubBytes` (R74). -/
def invSubBytes (s : Block) : Block := s.mapCols (Col.map invSbox)

/-- `ShiftRows`: `s'[r][c] = s[r][(c + r) mod 4]` (R75). -/
def shiftRows (s : Block) : Block :=
  ⟨⟨s.c0.a0, s.c1.a1, s.c2.a2, s.c3.a3⟩, ⟨s.c1.a0, s.c2.a1, s.c3.a2, s.c0.a3⟩,
   ⟨s.c2.a0, s.c3.a1, s.c0.a2, s.c1.a3⟩, ⟨s.c3.a0, s.c0.a1, s.c1.a2, s.c2.a3⟩⟩

/-- `InvShiftRows`: `s'[r][c] = s[r][(c − r) mod 4]` (R75). -/
def invShiftRows (s : Block) : Block :=
  ⟨⟨s.c0.a0, s.c3.a1, s.c2.a2, s.c1.a3⟩, ⟨s.c1.a0, s.c0.a1, s.c3.a2, s.c2.a3⟩,
   ⟨s.c2.a0, s.c1.a1, s.c0.a2, s.c3.a3⟩, ⟨s.c3.a0, s.c2.a1, s.c1.a2, s.c0.a3⟩⟩

/-- `MixColumns` on one column (R76). -/
def mixColumn (w : Col) : Col :=
  ⟨gmul 0x02 w.a0 ^^^ gmul 0x03 w.a1 ^^^ w.a2 ^^^ w.a3,
   w.a0 ^^^ gmul 0x02 w.a1 ^^^ gmul 0x03 w.a2 ^^^ w.a3,
   w.a0 ^^^ w.a1 ^^^ gmul 0x02 w.a2 ^^^ gmul 0x03 w.a3,
   gmul 0x03 w.a0 ^^^ w.a1 ^^^ w.a2 ^^^ gmul 0x02 w.a3⟩

/-- `InvMixColumns` on one column (R76). -/
def invMixColumn (w : Col) : Col :=
  ⟨gmul 0x0E w.a0 ^^^ gmul 0x0B w.a1 ^^^ gmul 0x0D w.a2 ^^^ gmul 0x09 w.a3,
   gmul 0x09 w.a0 ^^^ gmul 0x0E w.a1 ^^^ gmul 0x0B w.a2 ^^^ gmul 0x0D w.a3,
   gmul 0x0D w.a0 ^^^ gmul 0x09 w.a1 ^^^ gmul 0x0E w.a2 ^^^ gmul 0x0B w.a3,
   gmul 0x0B w.a0 ^^^ gmul 0x0D w.a1 ^^^ gmul 0x09 w.a2 ^^^ gmul 0x0E w.a3⟩

/-- `MixColumns` (R76). -/
def mixColumns (s : Block) : Block := s.mapCols mixColumn

/-- `InvMixColumns` (R76). -/
def invMixColumns (s : Block) : Block := s.mapCols invMixColumn

/-- `RotWord` (R78). -/
def rotWord (w : Col) : Col := ⟨w.a1, w.a2, w.a3, w.a0⟩

/-- `SubWord` (R78). -/
def subWord (w : Col) : Col := w.map sbox

/-- `rc_j`: `rc_1 = 0x01`, `rc_j = xtime(rc_{j−1})` (R78); `rc_0`, which no key expansion uses, is 0 here. -/
def roundConstant : Nat → Byte
  | 0 => 0
  | 1 => 0x01
  | j + 2 => xtime (roundConstant (j + 1))

/-- `Rcon[j] = [rc_j, 0, 0, 0]` (R78). -/
def rcon (j : Nat) : Col := ⟨roundConstant j, 0, 0, 0⟩

/-- The word of index 0 bytes, what an index past the end of a list of words counts as. -/
def Col.zero : Col := ⟨0, 0, 0, 0⟩

/-- The word `w[i]` of the key schedule from the words before it, `i` their number (the loop body of R79). -/
def nextKeyWord (nk : Nat) (w : List Col) : Col :=
  let i := w.length
  let temp := w.getD (i - 1) Col.zero
  let mixed :=
    if i % nk = 0 then (subWord (rotWord temp)).xor (rcon (i / nk))
    else if nk = 8 ∧ i % nk = 4 then subWord temp
    else temp
  (w.getD (i - nk) Col.zero).xor mixed

/-- `n` more words of the key schedule (R79). -/
def expandKey (nk : Nat) : Nat → List Col → List Col
  | 0, w => w
  | n + 1, w => expandKey nk n (w ++ [nextKeyWord nk w])

/-- The first `n` words of the key itself (R79). -/
def keyWords (n : Nat) (key : List Byte) : List Col := (List.range n).map fun i => Col.ofBytes key (4 * i)

/-- `Nk`, the key length in 32-bit words (R12). -/
def keyNk (key : List Byte) : Nat := key.length / 4

/-- `Nr = Nk + 6`, the number of rounds (R12, R79). -/
def keyNr (key : List Byte) : Nat := keyNk key + 6

/-- `KeyExpansion(K)`, the words `w[0 .. 4·(Nr + 1))` (R79). -/
def keyExpansion (key : List Byte) : List Col :=
  expandKey (keyNk key) (4 * (keyNr key + 1) - keyNk key) (keyWords (keyNk key) key)

/-- `AddRoundKey(s, w, j)` (R77). -/
def addRoundKey (w : List Col) (j : Nat) (s : Block) : Block :=
  s.xor ⟨w.getD (4 * j) Col.zero, w.getD (4 * j + 1) Col.zero, w.getD (4 * j + 2) Col.zero,
    w.getD (4 * j + 3) Col.zero⟩

/-- Rounds 1 to `j` of the cipher, in that order (the loop of R80). -/
def encRounds (w : List Col) : Nat → Block → Block
  | 0, s => s
  | j + 1, s => addRoundKey w (j + 1) (mixColumns (shiftRows (subBytes (encRounds w j s))))

/-- Rounds `j` down to 1 of the inverse cipher, in that order (the loop of R81). -/
def decRounds (w : List Col) : Nat → Block → Block
  | 0, s => s
  | j + 1, s => decRounds w j (invMixColumns (addRoundKey w (j + 1) (invSubBytes (invShiftRows s))))

/-- `AES_Enc(K, X)` (R80). -/
def aesEnc (key : List Byte) (x : Block) : Block :=
  let w := keyExpansion key
  let nr := keyNr key
  addRoundKey w nr (shiftRows (subBytes (encRounds w (nr - 1) (addRoundKey w 0 x))))

/-- `AES_Dec(K, Y)`, the inverse cipher (R81). -/
def aesDec (key : List Byte) (y : Block) : Block :=
  let w := keyExpansion key
  let nr := keyNr key
  addRoundKey w 0 (invSubBytes (invShiftRows (decRounds w (nr - 1) (addRoundKey w nr y))))

end Sys2Proof.Machine
end

