-- ==== Sys2Proof/Machine/Cbc.lean ====
section
/-! DEFINITION. The CBC mode (R83, R84) and PKCS#7 padding (R85 to R87), on byte sequences. -/

namespace Sys2Proof.Machine

/-- `block_k(B) = B[16k .. 16k+16)` (R14). -/
def blockAt (k : Nat) (bytes : List Byte) : List Byte := (bytes.drop (16 * k)).take 16

/-- The first `n` blocks of a byte sequence. -/
def blocksOf : Nat → List Byte → List Block
  | 0, _ => []
  | n + 1, bytes => Block.ofBytes bytes :: blocksOf n (bytes.drop 16)

/-- The bytes of a sequence of blocks. -/
def bytesOfBlocks (blocks : List Block) : List Byte := blocks.flatMap Block.toBytes

/-- The loop of R83: each block is XORed with the ciphertext block before it, then encrypted. -/
def cbcEncBlocks (enc : Block → Block) : Block → List Block → List Block
  | _, [] => []
  | prev, x :: xs => enc (x.xor prev) :: cbcEncBlocks enc (enc (x.xor prev)) xs

/-- The loop of R84: each block is decrypted, then XORed with the ciphertext block before it. -/
def cbcDecBlocks (dec : Block → Block) : Block → List Block → List Block
  | _, [] => []
  | prev, y :: ys => (dec y).xor prev :: cbcDecBlocks dec y ys

/-- `CBC_Enc(K, IV, X)` (R83). -/
def cbcEnc (key iv x : List Byte) : List Byte :=
  bytesOfBlocks (cbcEncBlocks (aesEnc key) (Block.ofBytes iv) (blocksOf (x.length / 16) x))

/-- `CBC_Dec(K, IV, Y)` (R84). -/
def cbcDec (key iv y : List Byte) : List Byte :=
  bytesOfBlocks (cbcDecBlocks (aesDec key) (Block.ofBytes iv) (blocksOf (y.length / 16) y))

/-- The last block of a sequence of a positive multiple of 16 bytes, `block_{len/16 − 1}` (R91 to R94). -/
def lastBlock (bytes : List Byte) : List Byte := blockAt (bytes.length / 16 - 1) bytes

/-- The number of padding bytes, `16 − (L mod 16)` (R85). -/
def padCount (len : Nat) : Nat := 16 - len % 16

/-- `Pad(P)` (R85). -/
def pad (p : List Byte) : List Byte :=
  p ++ List.replicate (padCount p.length) (BitVec.ofNat 8 (padCount p.length))

/-- `X[L−1]`, the final byte (R86). -/
def finalByte (x : List Byte) : Byte := x.getD (x.length - 1) 0

/-- `PadValid(X)` (R86). -/
def padValid (x : List Byte) : Bool :=
  1 ≤ (finalByte x).toNat && (finalByte x).toNat ≤ 16 &&
    (x.drop (x.length - (finalByte x).toNat)).all (· == finalByte x)

/-- `Unpad(X)` (R87). -/
def unpad (x : List Byte) : List Byte := x.take (x.length - (finalByte x).toNat)

end Sys2Proof.Machine
end

