-- ==== Sys2Proof/Machine/Operands.lean ====
section
/-! DEFINITION. Where a command's operands come from (R65, R89) and the checks that come before them (R90, R118). -/

namespace Sys2Proof.Machine

/-- The data commands `Validate` tells apart (R90). -/
inductive DataOp where
  | enc
  | dec
  | encRaw
  | decRaw
  deriving DecidableEq, Repr

/-- `K = KEY[0 .. KEY_LEN)`, the first `KEY_LEN` key bytes (R65, R89). -/
def Channel.keyBytes (ch : Channel) : List Byte := (regBytes ch.key).take ch.keyLen.toNat

/-- `IV[0 .. 16)` (R23, R65). -/
def Channel.ivBytes (ch : Channel) : List Byte := regBytes ch.iv

/-- `KEY_LEN ∈ {16, 24, 32}` and `IV_LEN = 16` (R8, R90, R112). -/
def Channel.keyMaterialOk (ch : Channel) : Bool :=
  (ch.keyLen == 16 || ch.keyLen == 24 || ch.keyLen == 32) && ch.ivLen == 16

/-- `L = 0` or `L mod 16 ≠ 0` (R90). -/
def notWholeBlocks (len : Nat) : Bool := len == 0 || len % 16 != 0

/-- The checks of `Validate(op)`, in their order; no check reads the contents of `DIN` (R90, R118). -/
def validate (op : DataOp) (bufBytes : Nat) (ch : Channel) : Except ErrCode Unit :=
  if !ch.keyMaterialOk then .error .invalidKeyMaterial
  else if bufBytes < ch.inLen.toNat then .error .invalidDataLength
  else
    match op with
    | .enc => .ok ()
    | .encRaw => if notWholeBlocks ch.inLen.toNat then .error .invalidDataLength else .ok ()
    | .dec => if notWholeBlocks ch.inLen.toNat then .error .invalidCiphertextLength else .ok ()
    | .decRaw => if notWholeBlocks ch.inLen.toNat then .error .invalidCiphertextLength else .ok ()

/-- The input `X = DIN[0 .. IN_LEN)`, each unspecified byte a draw (R65, R90, 93 U1). -/
def Channel.input (ch : Channel) (draws : Nat) : List Byte × Nat := ch.din.drawBytes 0 ch.inLen.toNat draws

/-- What a data command computes from `(K, IV, X)`: its output and the chaining value, or the code it raises. -/
abbrev Cipher := List Byte → List Byte → List Byte → Except ErrCode (List Byte × List Byte)

/-- The frame all four data commands share: `Validate`, the operands, the cipher, `Finish` (R90 to R95). -/
def dataBody (op : DataOp) (cipher : Cipher) : Body := fun bufBytes ch draws =>
  match validate op bufBytes ch with
  | .error code => (.error code, draws)
  | .ok () =>
    match cipher ch.keyBytes ch.ivBytes (ch.input draws).1 with
    | .error code => (.error code, (ch.input draws).2)
    | .ok (y, chain) => (.ok (ch.finish bufBytes y chain), (ch.input draws).2)

end Sys2Proof.Machine
end

