-- ==== Sys2Proof/Machine/Data.lean ====
section
/-! DEFINITION. The data commands ENC, DEC, ENC_RAW and DEC_RAW (spec/41_data_commands.md). Each meaning is the completion
step of the selected channel with that command's body (R119). -/

namespace Sys2Proof.Machine

/-- ENC: `Y <- CBC_Enc(K, IV, Pad(X))`, `CHAIN` the last ciphertext block (R91). -/
def encCipher : Cipher := fun key iv x =>
  .ok (cbcEnc key iv (pad x), lastBlock (cbcEnc key iv (pad x)))

/-- DEC: `Z <- CBC_Dec(K, IV, X)`, its padding validated and removed, `CHAIN` the last input block (R92). -/
def decCipher : Cipher := fun key iv x =>
  if padValid (cbcDec key iv x) then .ok (unpad (cbcDec key iv x), lastBlock x)
  else .error .paddingValidation

/-- ENC_RAW: `Y <- CBC_Enc(K, IV, X)`, `CHAIN` the last ciphertext block (R93). -/
def encRawCipher : Cipher := fun key iv x =>
  .ok (cbcEnc key iv x, lastBlock (cbcEnc key iv x))

/-- DEC_RAW: `Z <- CBC_Dec(K, IV, X)`, `CHAIN` the last input block; no padding check (R94). -/
def decRawCipher : Cipher := fun key iv x =>
  .ok (cbcDec key iv x, lastBlock x)

/-- `ENC` (R91). -/
def execEnc (s : State) : Result := complete (dataBody .enc encCipher) s

/-- `DEC` (R92). -/
def execDec (s : State) : Result := complete (dataBody .dec decCipher) s

/-- `ENC_RAW` (R93). -/
def execEncRaw (s : State) : Result := complete (dataBody .encRaw encRawCipher) s

/-- `DEC_RAW` (R94). -/
def execDecRaw (s : State) : Result := complete (dataBody .decRaw decRawCipher) s

end Sys2Proof.Machine
end

