-- ==== Sys2Proof/Machine/Dispatch.lean ====
section
/-! DEFINITION. exec: one arm per instruction, each one direct call of its meaning. -/

namespace Sys2Proof.Machine

def exec (i : Instr) (s : State) : Host.Outcome State Fault Refusal :=
  match i with
  | .nop => Sys2Proof.Machine.execNop s
  | .enc => Sys2Proof.Machine.execEnc s
  | .dec => Sys2Proof.Machine.execDec s
  | .encRaw => Sys2Proof.Machine.execEncRaw s
  | .decRaw => Sys2Proof.Machine.execDecRaw s
  | .clear => Sys2Proof.Machine.execClear s

end Sys2Proof.Machine
end

