-- ==== Sys2Proof/Machine/Moves.lean ====
section
/-! DEFINITION. The moves of the interleaving (R55): an access of the host, a completion of a channel, a reset; and who moves
where the schedule says nothing (93 U2). -/

namespace Sys2Proof.Machine

/-- The completion of a command word: the body of the command it decodes to (R119), or the error of an illegal word (R102).
Word 0 is never latched (R53), so the spec gives its completion no body. -/
def runJob (w : Word) (s : State) : Result :=
  if w = 0 then .fault .noBody
  else
    match decode w with
    | .ok i => exec i s
    | .error .illegalCommand => completeIllegal s

/-- Channel `c`'s completion step where it is enabled, that is, where the channel is BUSY; a schedule that names a completion
that is not enabled gives no step of the block, so nothing changes (R119; log entry 12). -/
def completionMove (c : Nat) (s : State) : Result :=
  match s.chan? c with
  | none => .next s
  | some ch => if ch.busy then runJob ch.job (s.setSel c) else .next s

/-- A host write. The no-operation word written to a `CMD` register is the instruction NOP (R63, R100); every other write is
MemWrite (R49). -/
def hostWrite (addr : Addr) (v : Word) (s : State) : Result :=
  match s.locate addr with
  | .cmd c => if decode v = .ok .nop then exec .nop (s.setSel c) else .next (s.memWrite addr v)
  | _ => .next (s.memWrite addr v)

/-- A host read of an address: the word it returns joins the host's reads (R48, R66). -/
def State.hostRead (s : State) (addr : Addr) : State :=
  (s.setDraws (s.memRead addr).2).pushRead (s.memRead addr).1

/-- The host's next access (R66, R67). A polling loop whose condition does not hold reads again at the host's next move. A wait
for the `irq` line looks at its level (DEDUCED from R122, log entry 17) and makes no read; where the line is low the host still waits. -/
def hostMove (s : State) : Result :=
  match s.host with
  | [] => .next s
  | .rd a :: rest => .next ((s.setHost rest).hostRead a)
  | .wr a v :: rest => hostWrite a v (s.setHost rest)
  | .poll a mask val :: rest =>
    if (s.memRead a).1 &&& mask = val then .next ((s.setHost rest).hostRead a) else .next (s.hostRead a)
  | .awaitIrq :: rest => if s.irq then .next (s.setHost rest) else .next s

/-- One move of the interleaving. -/
def runMove (m : Move) (s : State) : Result :=
  match m with
  | .host => hostMove s
  | .complete c => completionMove c s
  | .reset => .next s.resetBlock

/-- The channels of a list that are BUSY, as completion moves; the list's first channel is channel `c`. -/
def busyMoves : Nat → List Channel → List Move
  | _, [] => []
  | c, ch :: rest => if ch.busy then .complete c :: busyMoves (c + 1) rest else busyMoves (c + 1) rest

/-- The completions that are enabled (R119). -/
def State.completions (s : State) : List Move := busyMoves 0 s.chans

/-- How many host accesses may still come before a completion must: what the state holds, or a fresh free value (R119, R131; log
entry 4). -/
def State.delayLeft (s : State) : Nat := s.delay.getD (Config.delay s.draws)

/-- Every move that may come next on its own: each BUSY channel's completion (R119), and an access the host still has to make, unless
a command is in flight and its delay, which is finite, has run out (R131). A reset comes only where the schedule names one. -/
def State.enabledMoves (s : State) : List Move :=
  if s.host.isEmpty || s.delayLeft == 0 && !s.completions.isEmpty then s.completions else .host :: s.completions

/-- The move chosen by a free value among those enabled (93 U2; log entry 4), where there is one. -/
def State.freeMove? (s : State) : Option Move :=
  match s.enabledMoves with
  | [] => none
  | m :: rest => some ((m :: rest).getD (Config.pick s.draws % (rest.length + 1)) m)

/-- What is left of the delay after a chosen move: one access fewer after an access made while a command is in flight; otherwise the
next delay is drawn afresh. -/
def State.delayAfter (s : State) (m : Move) : Option Nat :=
  if m = .host ∧ s.completions ≠ [] then some (s.delayLeft - 1) else none

/-- The state in which a freely chosen move is made: a free value has been used, and the delay counts on. -/
def State.afterChoice (s : State) (m : Move) : State := (s.setDraws (s.draws + 1)).setDelay (s.delayAfter m)

/-- One step of the interleaving: the schedule's next move; where it names none, one of the enabled moves, chosen by a free
value (93 U2; log entry 4) so that a channel that stays BUSY completes after finitely many steps (R131); where none is enabled, the
machine is at rest and nothing changes (R142). -/
def stepMove (s : State) : Result :=
  match s.sched with
  | m :: rest => runMove m (s.setSched rest)
  | [] =>
    match s.freeMove? with
    | none => .next s
    | some m => runMove m (s.afterChoice m)

end Sys2Proof.Machine
end

