-- ==== Sys2Proof/Machine/Step.lean ====
section
/-! DEFINITION. The step of the machine, and the placing of an instruction where the next step runs it. -/

namespace Sys2Proof.Machine

/-- One step. A configuration outside the parameters' ranges is refused (93 P1, P2). -/
def step (s : State) : Host.Outcome State Fault Refusal :=
  if Config.paramsOk s.numCh s.bufBytes then stepMove s else .refused .badConfig

/-- The state in which the next step runs the command word `w` on channel 0. The block fetches no instructions (R17, R40): a command
word comes from the host and is run by its completion. So a nonzero word is placed as accepted (R53) with its completion next in the
schedule, and the no-operation word, which is never accepted (R100), as the host's write of it to `CMD`, the host's move next
(log entry 3). -/
def State.withFetchWord (s : State) (nbits w : Nat) : State :=
  if tableWord nbits w = 0 then
    (s.setHost (.wr (BitVec.ofNat 20 (chBase 0)) 0 :: s.host)).setSched (.host :: s.sched)
  else
    match s.chan? 0 with
    | none => s
    | some ch => (s.setChan 0 (ch.accept (tableWord nbits w))).setSched (.complete 0 :: s.sched)

end Sys2Proof.Machine
end

