-- ==== Sys2Proof/Machine/Notation.lean ====
section
/-! DEFINITION. The notation of host programs: the pseudo-instructions and their expansions into bus accesses (R66 to R68). -/

namespace Sys2Proof.Machine

/-- The two forms of `WAITIRQ` (R67). -/
inductive IrqWait where
  /-- `POLL G.IRQ_LEVEL, 0x00000001, 0x00000001`. -/
  | poll
  /-- Wait for the `irq` line to go high. -/
  | line
  deriving DecidableEq, Repr

/-- One line of a host program (R66, R67). -/
inductive Pseudo where
  | wr (a : Addr) (v : Word)
  | rd (a : Addr)
  | poll (a : Addr) (mask val : Word)
  /-- `WAIT c`: wait until `BUSY` = 0. -/
  | wait (c : Nat)
  /-- `WAITIRQ`, in either form; R67 leaves the form to the host, so it is an argument here (log entry 17). -/
  | waitIrq (form : IrqWait)
  /-- `CMD c, MNEMONIC`. -/
  | cmd (c : Nat) (i : Instr)
  | wrBytes (base : Addr) (bytes : List Byte)
  | rdBytes (base : Addr) (n : Nat)
  | setKey (c : Nat) (bytes : List Byte)
  | setIv (c : Nat) (bytes : List Byte)
  | setIn (c : Nat) (bytes : List Byte)
  deriving DecidableEq, Repr

/-- `CHc.NAME`: the address of an offset of channel `c`'s bank (R66). -/
def chAddr (c off : Nat) : Addr := BitVec.ofNat 20 (chBase c + off)

/-- The notation refuses a key above 32 bytes, an IV above 16, an input above `BUF_BYTES` (R67, R68); a channel number is below
`NUM_CH` (R66; DEDUCED: `CHc` names a channel, and R41's are `0 ≤ c < NUM_CH`; log entry 14). -/
def Pseudo.wellFormed (numCh bufBytes : Nat) : Pseudo → Bool
  | .wr _ _ => true
  | .rd _ => true
  | .poll _ _ _ => true
  | .wait c => c < numCh
  | .waitIrq _ => true
  | .cmd c _ => c < numCh
  | .wrBytes _ _ => true
  | .rdBytes _ _ => true
  | .setKey c bytes => c < numCh && bytes.length ≤ 32
  | .setIv c bytes => c < numCh && bytes.length ≤ 16
  | .setIn c bytes => c < numCh && bytes.length ≤ bufBytes

/-- `WRBYTES base, B`: one write a word, 0x00 in the lanes past `len(B)` (R67). DESIGN CHOICE (unsafe; log entry 16): an address
`base + 4k` beyond 0xFFFFF is taken modulo 2^20; the rule gives an address 20 bits and says nothing of such a sum. -/
def wrBytesOps (base : Addr) (bytes : List Byte) : List HostOp :=
  (List.range ((bytes.length + 3) / 4)).map fun k => .wr (base + BitVec.ofNat 20 (4 * k)) (wordAt bytes (4 * k))

/-- `RDBYTES base, n`: one read a word (R67). DESIGN CHOICE (unsafe; log entry 16): an address `base + 4k` beyond 0xFFFFF is taken
modulo 2^20, as in `wrBytesOps`. -/
def rdBytesOps (base : Addr) (n : Nat) : List HostOp :=
  (List.range ((n + 3) / 4)).map fun k => .rd (base + BitVec.ofNat 20 (4 * k))

/-- The bytes an `RDBYTES` of `n` bytes gives, from the words its reads returned, the first read's word first (R67). -/
def rdBytesResult (n : Nat) (words : List Word) : List Byte := (words.flatMap bytesOfWord).take n

/-- The expansion of a line; the notation refuses a line that is not well formed (R67, R68). -/
def Pseudo.expand (numCh bufBytes : Nat) (p : Pseudo) : Option (List HostOp) :=
  if p.wellFormed numCh bufBytes then
    match p with
    | .wr a v => some [.wr a v]
    | .rd a => some [.rd a]
    | .poll a mask val => some [.poll a mask val]
    | .wait c => some [.poll (chAddr c 0x004) 1 0]
    | .waitIrq .poll => some [.poll 0x00014 1 1]
    | .waitIrq .line => some [.awaitIrq]
    | .cmd c i => some [.wr (chAddr c 0x000) (encode i)]
    | .wrBytes base bytes => some (wrBytesOps base bytes)
    | .rdBytes base n => some (rdBytesOps base n)
    | .setKey c bytes =>
      some (.wr (chAddr c 0x008) (BitVec.ofNat 32 bytes.length) :: wrBytesOps (chAddr c 0x020) bytes)
    | .setIv c bytes =>
      some (.wr (chAddr c 0x00C) (BitVec.ofNat 32 bytes.length) :: wrBytesOps (chAddr c 0x040) bytes)
    | .setIn c bytes =>
      some (wrBytesOps (chAddr c 0x4000) bytes ++ [.wr (chAddr c 0x010) (BitVec.ofNat 32 bytes.length)])
  else none

end Sys2Proof.Machine
end

