-- ==== Sys2Proof/Safety.lean ====
section
/-! DEFINITION. What the claims are stated in: the invariant of the machine, what a step leaves unchanged, and what the end
of a command leaves behind. -/

namespace Sys2Proof.Machine

/-- Every listed index is below `n`. -/
def Memory.below (n : Nat) (m : Memory) : Bool := m.all fun cell => cell.1 < n

/-- The invariant of a channel, in this order: `DONE` and `BUSY` never hold together (R19); a BUSY channel holds a nonzero job (R53)
and shows no error (R19); an error is shown only with `DONE` (R19, R119); `OUT_LEN` is at most `BUF_BYTES + 16` (R26); both buffers have
the canonical form and stay inside their windows (R28, R29); `DOUT` is unspecified as a whole or specified as a whole, and
specified once a command has completed (R29, R38). -/
abbrev Channel.Inv (bufBytes : Nat) (ch : Channel) : Prop :=
  ¬(ch.busy = true ∧ ch.done = true) ∧
  (ch.busy = true → ch.job ≠ 0) ∧
  (ch.busy = true → ch.err = .ok) ∧
  (ch.err ≠ .ok → ch.done = true) ∧
  ch.outLen.toNat ≤ bufBytes + 16 ∧
  ch.din.wf = true ∧
  ch.din.below bufBytes = true ∧
  ch.dout.wf = true ∧
  ch.dout.below (bufBytes + 16) = true ∧
  (ch.dout = [] ∨ ch.dout.length = bufBytes + 16) ∧
  (ch.done = true → ch.dout.length = bufBytes + 16)

/-- The invariant of the machine: the parameters are in range (R9, R10), bits `NUM_CH` to 31 of `INT_STATUS` and `INT_ENABLE` are 0
(R32, R33), and every channel meets its own invariant. -/
abbrev State.Inv (s : State) : Prop :=
  Config.paramsOk s.numCh s.bufBytes = true ∧
  s.intStatus.toNat < 2 ^ s.numCh ∧
  s.intEnable.toNat < 2 ^ s.numCh ∧
  ∀ ch ∈ s.chans, ch.Inv s.bufBytes

/-- No channel runs a command: `CH_BUSY` = 0 (R142). -/
abbrev State.AllIdle (s : State) : Prop := ∀ ch ∈ s.chans, ch.busy = false

/-- The state of the block itself is the same in both: every channel, `INT_STATUS`, `INT_ENABLE` and the parameters. -/
structure SameBlock (s t : State) : Prop where
  bufBytes : t.bufBytes = s.bufBytes
  chans : t.chans = s.chans
  intStatus : t.intStatus = s.intStatus
  intEnable : t.intEnable = s.intEnable

/-- What the host's write of `v` to `a` leaves, with `ops` the accesses after it (R49, R55): the block is as MemWrite leaves it, the
access is made, and the model's own bookkeeping is unchanged, but that the no-operation word selects its channel (log entry 6). -/
structure HostWrote (a : Addr) (v : Word) (ops : List HostOp) (s t : State) : Prop where
  block : SameBlock (s.memWrite a v) t
  host : t.host = ops
  reads : t.reads = s.reads
  draws : t.draws = s.draws
  delay : t.delay = s.delay
  sel : v ≠ 0 → t.sel = s.sel

/-- Nothing outside channel `c` changes but bit `c` of `INT_STATUS`, which may become 1 (R37, R58): the parameters, every other channel
whole, `INT_ENABLE`, and the model's own fields other than the count of free values. -/
structure OnlyChannel (c : Nat) (s t : State) : Prop where
  bufBytes : t.bufBytes = s.bufBytes
  numCh : t.numCh = s.numCh
  others : ∀ d, d ≠ c → t.chan? d = s.chan? d
  intStatus : t.intStatus = s.intStatus ∨ t.intStatus = s.intStatus ||| 1#32 <<< c
  intEnable : t.intEnable = s.intEnable
  sel : t.sel = s.sel
  host : t.host = s.host
  sched : t.sched = s.sched
  reads : t.reads = s.reads
  delay : t.delay = s.delay

/-- The operands, the latch and `WERR` of a channel are the same in both: `KEY*`, `KEY_LEN`, `IV*`, `IV_LEN`, `IN_LEN`, every byte of `DIN`,
`JOB`, `WERR` (R95, R120). -/
structure InputsKept (ch ch' : Channel) : Prop where
  keyLen : ch'.keyLen = ch.keyLen
  key : ch'.key = ch.key
  ivLen : ch'.ivLen = ch.ivLen
  iv : ch'.iv = ch.iv
  inLen : ch'.inLen = ch.inLen
  din : ch'.din = ch.din
  job : ch'.job = ch.job
  werr : ch'.werr = ch.werr

/-- The end of the completion step of the selected channel, which has become `ch'` (R119, R121): `ERR` is the code, `DONE` = 1, `BUSY` = 0,
the channel's bit of `INT_STATUS` is set, and nothing outside the channel changes otherwise. -/
structure CompletedWith (code : ErrCode) (s t : State) (ch' : Channel) : Prop where
  now : t.chan? s.sel = some ch'
  err : ch'.err = code
  done : ch'.done = true
  busy : ch'.busy = false
  pending : t.intStatus = s.intStatus ||| 1#32 <<< s.sel
  frame : OnlyChannel s.sel s t

/-- The success epilogue (R95): `DOUT` is `y` followed by zero bytes up to its end, `OUT_LEN` the length of `y`, `CHAIN` the block. -/
structure OutputIs (bufBytes : Nat) (ch' : Channel) (y chain : List Byte) : Prop where
  outLen : ch'.outLen.toNat = y.length
  bytes : ∀ i, i < y.length → ch'.dout.get? i = y[i]?
  tail : ∀ i, y.length ≤ i → i < bufBytes + 16 → ch'.dout.get? i = some 0
  chain : regBytes ch'.chain = chain

/-- The effects of a failed command (R120): `DOUT` all zero, `OUT_LEN` = 0, `CHAIN` and every input unchanged. -/
structure OutputErased (bufBytes : Nat) (ch ch' : Channel) : Prop where
  outLen : ch'.outLen = 0
  bytes : ∀ i, i < bufBytes + 16 → ch'.dout.get? i = some 0
  chain : ch'.chain = ch.chain
  inputs : InputsKept ch ch'

/-- The key and IV lengths are legal (R8). -/
structure KeyMaterialLegal (ch : Channel) : Prop where
  keyLen : ch.keyLen = 16 ∨ ch.keyLen = 24 ∨ ch.keyLen = 32
  ivLen : ch.ivLen = 16

/-- How many of the `n` bytes from index `a` on are unspecified (93 U1). -/
def Memory.unwritten (m : Memory) (a n : Nat) : Nat := (List.range n).countP fun i => (m.get? (a + i)).isNone

/-- What a read of the bytes from index `a` on, lowest index first, finds at `a + i`: the byte held; where it is unspecified, the free value
that comes next after those of the unspecified bytes before it (R48, 93 U1; log entry 2). -/
def Memory.found (m : Memory) (a draws i : Nat) : Byte := (m.get? (a + i)).getD (Config.freeByte (draws + m.unwritten a i))

/-- `s[r][c]`, the byte in row `r` and column `c` of the AES state: byte `r + 4c` of the block (R73). -/
def Block.entry (s : Block) (r c : Nat) : Byte := s.toBytes.getD (r + 4 * c) 0

/-- Every byte of `DIN[0 .. IN_LEN)` has been written since reset, and the message is `x` (R132, R137). -/
structure InputIs (ch : Channel) (x : List Byte) : Prop where
  inLen : ch.inLen.toNat = x.length
  bytes : ∀ i, i < x.length → ch.din.get? i = x[i]?

end Sys2Proof.Machine
end

