-- ==== Sys2Proof/Certificates/Slice0/Obligations.lean ====
section
/-! DEFINITION. The statements for the provers, from the numbered rules of spec/. -/

open Sys2Proof Sys2Proof.Machine

/-! ## Encoding -/

/-- R64: every one of the 2^32 words has exactly one meaning, by `OP = w[7:0]` and `RSV = w[31:8]`: 0 is NOP; `RSV = 0` and `OP` 1 to 5 is
the command of R61; every other word is illegal. Encoding a command and decoding the word gives the command back. -/
def Obligations.EveryWordHasOneMeaning : Prop :=
  (∀ i : Instr, decode (encode i) = .ok i) ∧
  ∀ w : Word,
    let op := w.toNat % 256
    let rsv := w.toNat / 256
    decode w =
      if w = 0 then .ok .nop
      else if rsv = 0 ∧ op = 1 then .ok .enc
      else if rsv = 0 ∧ op = 2 then .ok .dec
      else if rsv = 0 ∧ op = 3 then .ok .encRaw
      else if rsv = 0 ∧ op = 4 then .ok .decRaw
      else if rsv = 0 ∧ op = 5 then .ok .clear
      else .error .illegalCommand

/-- R61, R62 on words written out from the opcode map: the six commands, and illegal words among their neighbours. -/
def Obligations.WrittenOutWordsDecode : Prop :=
  decodeTableWord 32 0x00000000 = some .nop ∧ decodeTableWord 32 0x00000001 = some .enc ∧
  decodeTableWord 32 0x00000002 = some .dec ∧ decodeTableWord 32 0x00000003 = some .encRaw ∧
  decodeTableWord 32 0x00000004 = some .decRaw ∧ decodeTableWord 32 0x00000005 = some .clear ∧
  decodeTableWord 32 0x00000006 = none ∧ decodeTableWord 32 0x00000100 = none ∧
  decodeTableWord 32 0x00000101 = none ∧ decodeTableWord 32 0x05000001 = none

/-! ## A step runs the decoded instruction -/

/-- A step makes the move that the schedule names next; the schedule is the model's (log entry 3). -/
def Obligations.AStepMakesTheScheduledMove : Prop :=
  ∀ (s : State) (m : Move) (rest : List Move), Config.paramsOk s.numCh s.bufBytes = true → s.sched = m :: rest →
    step s = runMove m { s with sched := rest }

/-- With the schedule used up, a step makes some enabled move, an access of the host or the completion of a BUSY channel (R55, R119), and where
there is none nothing changes (R142). Which move, and the count of free values and the delay it is made with, is the model's (log entry 4). -/
def Obligations.AFreeStepMakesAnEnabledMove : Prop :=
  ∀ s : State, Config.paramsOk s.numCh s.bufBytes = true → s.sched = [] →
    (s.host = [] ∧ s.AllIdle ∧ step s = .next s) ∨
    ∃ m d,
      (m = .host ∧ s.host ≠ [] ∨ ∃ c ch, m = .complete c ∧ s.chan? c = some ch ∧ ch.busy = true) ∧
      step s = runMove m { s with draws := s.draws + 1, delay := d }

/-- R49, R55: when the host moves and its next access is a write, of any word to any address, the write is made: the block is as MemWrite leaves
it. The second clause is the step whose schedule names the host (the host's list, the schedule and the selection are the model's, log
entries 3 and 6). -/
def Obligations.AHostWriteIsMade : Prop :=
  ∀ (s : State) (a : Addr) (v : Word) (ops : List HostOp), s.host = .wr a v :: ops →
    (∃ t, runMove .host s = .next t ∧ HostWrote a v ops s t ∧ t.sched = s.sched) ∧
    ∀ rest, Config.paramsOk s.numCh s.bufBytes = true → s.sched = .host :: rest →
      ∃ t, step s = .next t ∧ HostWrote a v ops s t ∧ t.sched = rest

/-- When the schedule names the completion of a BUSY channel, the step is the completion of the word in its latch; where that word decodes
to a command, it is exec of that command, with the schedule moved on and the channel selected (R119; the schedule and the selection are
the model's, log entries 3 and 6). -/
def Obligations.StepRunsTheLatchedCommand : Prop :=
  ∀ (s : State) (c : Nat) (rest : List Move) (ch : Channel),
    Config.paramsOk s.numCh s.bufBytes = true → s.sched = .complete c :: rest → s.chan? c = some ch →
    ch.busy = true → ch.job ≠ 0 →
    step s = runJob ch.job { s with sched := rest, sel := c } ∧
    ∀ i : Instr, decode ch.job = .ok i → step s = exec i { s with sched := rest, sel := c }

/-- When the schedule names the host and its next access writes the no-operation word to a channel's `CMD`, the step is exec of NOP, with
the schedule and the host's accesses moved on and the channel selected (R63, R100; log entries 3 and 6). -/
def Obligations.StepRunsTheNopWrite : Prop :=
  ∀ (s : State) (c : Nat) (rest : List Move) (ops : List HostOp) (a : Addr) (v : Word),
    Config.paramsOk s.numCh s.bufBytes = true → s.sched = .host :: rest → s.host = .wr a v :: ops →
    decode v = .ok .nop → c < s.numCh → a.toNat / 4 * 4 = 0x10000 * (c + 1) →
    step s = exec .nop { s with sched := rest, host := ops, sel := c }

/-- R102: the completion of an illegal word ends with `ILLEGAL_COMMAND` and the failure effects, whatever the key, IV and length registers
hold. -/
def Obligations.IllegalWordCompletesWithItsError : Prop :=
  ∀ (s : State) (ch : Channel) (w : Word),
    s.chan? s.sel = some ch → ch.busy = true → w ≠ 0 → (w.toNat / 256 ≠ 0 ∨ w.toNat / 256 = 0 ∧ 6 ≤ w.toNat % 256) →
    ∃ t ch', runJob w s = .next t ∧
      CompletedWith .illegalCommand s t ch' ∧ OutputErased s.bufBytes ch ch' ∧ t.draws = s.draws

/-! ## The results of the commands -/

/-- R91, R95: ENC completes. `DOUT` is `CBC_Enc(K, IV, Pad(X))` followed by zeros, `OUT_LEN = 16·(floor(L/16) + 1)`, `CHAIN` the last block of the
output, `ERR` 0; the inputs keep their values. `X` is the input as it is read, each unspecified byte of it a draw. -/
def Obligations.EncCompletesWithTheCiphertext : Prop :=
  ∀ (s : State) (ch : Channel),
    Config.paramsOk s.numCh s.bufBytes = true → s.chan? s.sel = some ch → ch.busy = true → KeyMaterialLegal ch →
    ch.inLen.toNat ≤ s.bufBytes →
    let x := (ch.input s.draws).1
    let y := cbcEnc ch.keyBytes ch.ivBytes (pad x)
    ∃ t ch', exec .enc s = .next t ∧ CompletedWith .ok s t ch' ∧ InputsKept ch ch' ∧
      OutputIs s.bufBytes ch' y (y.drop (y.length - 16)) ∧
      ch'.outLen.toNat = 16 * (ch.inLen.toNat / 16 + 1) ∧ t.draws = (ch.input s.draws).2

/-- R93, R95: ENC_RAW completes, without padding. -/
def Obligations.EncRawCompletesWithTheCiphertext : Prop :=
  ∀ (s : State) (ch : Channel),
    Config.paramsOk s.numCh s.bufBytes = true → s.chan? s.sel = some ch → ch.busy = true → KeyMaterialLegal ch →
    0 < ch.inLen.toNat → ch.inLen.toNat % 16 = 0 → ch.inLen.toNat ≤ s.bufBytes →
    let y := cbcEnc ch.keyBytes ch.ivBytes (ch.input s.draws).1
    ∃ t ch', exec .encRaw s = .next t ∧ CompletedWith .ok s t ch' ∧ InputsKept ch ch' ∧
      OutputIs s.bufBytes ch' y (y.drop (y.length - 16)) ∧
      ch'.outLen.toNat = ch.inLen.toNat ∧ t.draws = (ch.input s.draws).2

/-- R92, R95: DEC of a ciphertext whose decryption `Z` has valid padding completes. `DOUT` is `Z` less its padding followed by zeros,
`OUT_LEN = L − Z[L−1]`, `CHAIN` the last block of the input. -/
def Obligations.DecCompletesWithTheMessage : Prop :=
  ∀ (s : State) (ch : Channel),
    Config.paramsOk s.numCh s.bufBytes = true → s.chan? s.sel = some ch → ch.busy = true → KeyMaterialLegal ch →
    0 < ch.inLen.toNat → ch.inLen.toNat % 16 = 0 → ch.inLen.toNat ≤ s.bufBytes →
    let x := (ch.input s.draws).1
    let z := cbcDec ch.keyBytes ch.ivBytes x
    padValid z = true →
    ∃ t ch', exec .dec s = .next t ∧ CompletedWith .ok s t ch' ∧ InputsKept ch ch' ∧
      OutputIs s.bufBytes ch' (z.take (z.length - (finalByte z).toNat)) (x.drop (x.length - 16)) ∧
      ch'.outLen.toNat = ch.inLen.toNat - (finalByte z).toNat ∧ t.draws = (ch.input s.draws).2

/-- R114: DEC of a ciphertext whose decryption has invalid padding ends with `PADDING_VALIDATION`, and no decrypted byte becomes visible
(R120). -/
def Obligations.DecRejectsInvalidPadding : Prop :=
  ∀ (s : State) (ch : Channel),
    s.chan? s.sel = some ch → ch.busy = true → KeyMaterialLegal ch →
    0 < ch.inLen.toNat → ch.inLen.toNat % 16 = 0 → ch.inLen.toNat ≤ s.bufBytes →
    padValid (cbcDec ch.keyBytes ch.ivBytes (ch.input s.draws).1) = false →
    ∃ t ch', exec .dec s = .next t ∧ CompletedWith .paddingValidation s t ch' ∧ OutputErased s.bufBytes ch ch' ∧
      t.draws = (ch.input s.draws).2

/-- R94, R95: DEC_RAW completes with the decryption, whatever its padding. -/
def Obligations.DecRawCompletesWithTheDecryption : Prop :=
  ∀ (s : State) (ch : Channel),
    Config.paramsOk s.numCh s.bufBytes = true → s.chan? s.sel = some ch → ch.busy = true → KeyMaterialLegal ch →
    0 < ch.inLen.toNat → ch.inLen.toNat % 16 = 0 → ch.inLen.toNat ≤ s.bufBytes →
    let x := (ch.input s.draws).1
    ∃ t ch', exec .decRaw s = .next t ∧ CompletedWith .ok s t ch' ∧ InputsKept ch ch' ∧
      OutputIs s.bufBytes ch' (cbcDec ch.keyBytes ch.ivBytes x) (x.drop (x.length - 16)) ∧
      ch'.outLen.toNat = ch.inLen.toNat ∧ t.draws = (ch.input s.draws).2

/-- R101: CLEAR completes with `ERR` 0 whatever the registers hold: key, IV, lengths, `CHAIN` and every byte of both buffers are 0, `WERR` and
the latch keep their values. -/
def Obligations.ClearZeroisesTheChannel : Prop :=
  ∀ (s : State) (ch : Channel), s.chan? s.sel = some ch → ch.busy = true →
    ∃ t ch', exec .clear s = .next t ∧ CompletedWith .ok s t ch' ∧
      (∀ i, i < 32 → (regBytes ch'.key)[i]? = some 0) ∧ ch'.keyLen = 0 ∧
      (∀ i, i < 16 → (regBytes ch'.iv)[i]? = some 0) ∧ ch'.ivLen = 0 ∧
      ch'.inLen = 0 ∧ ch'.outLen = 0 ∧
      (∀ i, i < 16 → (regBytes ch'.chain)[i]? = some 0) ∧
      (∀ i, i < s.bufBytes → ch'.din.get? i = some 0) ∧
      (∀ i, i < s.bufBytes + 16 → ch'.dout.get? i = some 0) ∧
      ch'.werr = ch.werr ∧ ch'.job = ch.job ∧ t.draws = s.draws

/-- R100: NOP changes nothing on an IDLE channel; on a BUSY one it is a dropped write, which sets `WERR` and nothing else. -/
def Obligations.NopChangesNothingButWerrWhileBusy : Prop :=
  ∀ (s : State) (ch : Channel), s.chan? s.sel = some ch →
    (ch.busy = false → exec .nop s = .next s) ∧
    (ch.busy = true → exec .nop s = .next { s with chans := s.chans.set s.sel { ch with werr := true } })

/-! ## Errors and the completion step -/

/-- R112: a data command with an illegal key or IV length ends with `INVALID_KEY_MATERIAL`, whatever the other registers hold, with no byte
of the input read. -/
def Obligations.IllegalKeyMaterialIsReported : Prop :=
  ∀ (s : State) (ch : Channel) (i : Instr),
    s.chan? s.sel = some ch → ch.busy = true → (i = .enc ∨ i = .dec ∨ i = .encRaw ∨ i = .decRaw) →
    (ch.keyLen ≠ 16 ∧ ch.keyLen ≠ 24 ∧ ch.keyLen ≠ 32 ∨ ch.ivLen ≠ 16) →
    ∃ t ch', exec i s = .next t ∧ CompletedWith .invalidKeyMaterial s t ch' ∧ OutputErased s.bufBytes ch ch' ∧
      t.draws = s.draws

/-- R113: DEC and DEC_RAW of a length that is zero or no multiple of 16 end with `INVALID_CIPHERTEXT_LENGTH`, once the key check has passed
and the length is within the buffer, with no byte of the input read. -/
def Obligations.IllegalCiphertextLengthIsReported : Prop :=
  ∀ (s : State) (ch : Channel) (i : Instr),
    s.chan? s.sel = some ch → ch.busy = true → (i = .dec ∨ i = .decRaw) → KeyMaterialLegal ch →
    ch.inLen.toNat ≤ s.bufBytes → (ch.inLen.toNat = 0 ∨ ch.inLen.toNat % 16 ≠ 0) →
    ∃ t ch', exec i s = .next t ∧ CompletedWith .invalidCiphertextLength s t ch' ∧ OutputErased s.bufBytes ch ch' ∧
      t.draws = s.draws

/-- R115: a data command whose `IN_LEN` is above `BUF_BYTES`, and ENC_RAW of a length that is zero or no multiple of 16, end with
`INVALID_DATA_LENGTH`, once the key check has passed, with no byte of the input read. -/
def Obligations.IllegalDataLengthIsReported : Prop :=
  ∀ (s : State) (ch : Channel) (i : Instr),
    s.chan? s.sel = some ch → ch.busy = true → (i = .enc ∨ i = .dec ∨ i = .encRaw ∨ i = .decRaw) → KeyMaterialLegal ch →
    (s.bufBytes < ch.inLen.toNat ∨ i = .encRaw ∧ (ch.inLen.toNat = 0 ∨ ch.inLen.toNat % 16 ≠ 0)) →
    ∃ t ch', exec i s = .next t ∧ CompletedWith .invalidDataLength s t ch' ∧ OutputErased s.bufBytes ch ch' ∧
      t.draws = s.draws

/-- R118: of several errors that apply to the command word of a completion, exactly the first in the rule's order is reported, and 0 where
none applies. -/
def Obligations.TheFirstErrorIsReported : Prop :=
  ∀ (s : State) (ch : Channel) (w : Word), s.chan? s.sel = some ch → ch.busy = true → w ≠ 0 →
    let data := w = 1 ∨ w = 2 ∨ w = 3 ∨ w = 4
    let first : ErrCode :=
      if ¬(data ∨ w = 5) then .illegalCommand
      else if w = 5 then .ok
      else if ¬(ch.keyLen = 16 ∨ ch.keyLen = 24 ∨ ch.keyLen = 32) ∨ ch.ivLen ≠ 16 then .invalidKeyMaterial
      else if s.bufBytes < ch.inLen.toNat then .invalidDataLength
      else if w = 3 ∧ (ch.inLen.toNat = 0 ∨ ch.inLen.toNat % 16 ≠ 0) then .invalidDataLength
      else if (w = 2 ∨ w = 4) ∧ (ch.inLen.toNat = 0 ∨ ch.inLen.toNat % 16 ≠ 0) then .invalidCiphertextLength
      else if w = 2 ∧ padValid (cbcDec ch.keyBytes ch.ivBytes (ch.input s.draws).1) = false then .paddingValidation
      else .ok
    ∃ t ch', runJob w s = .next t ∧ CompletedWith first s t ch'

/-- R120: whenever a completion ends with an error, `DOUT` is all zero and `OUT_LEN` 0, and `CHAIN`, the inputs, `WERR` and the other channels keep
their values. -/
def Obligations.AFailureErasesTheOutputOnly : Prop :=
  ∀ (s t : State) (w : Word) (ch ch' : Channel),
    runJob w s = .next t → s.chan? s.sel = some ch → t.chan? s.sel = some ch' → ch'.err ≠ .ok →
    OutputErased s.bufBytes ch ch' ∧ OnlyChannel s.sel s t

/-- R119: the completion of a BUSY channel is one step that always happens: `ERR` takes a code, `DONE` is 1, `BUSY` 0, the channel's bit of
`INT_STATUS` is set and nothing outside the channel changes otherwise. -/
def Obligations.EveryAcceptedCommandCompletes : Prop :=
  ∀ (s : State) (c : Nat) (rest : List Move) (ch : Channel),
    s.Inv → s.sched = .complete c :: rest → s.chan? c = some ch → ch.busy = true →
    ∃ t ch' code, step s = .next t ∧ CompletedWith code { s with sched := rest, sel := c } t ch'

/-- The frame of every instruction: outside the selected channel nothing changes but its bit of `INT_STATUS` (R37, R58); a data command keeps its
inputs, `JOB` and `WERR` whether it succeeds or fails (R95, R120). -/
def Obligations.InstructionsChangeOnlyTheirChannel : Prop :=
  ∀ (i : Instr) (s t : State), exec i s = .next t →
    OnlyChannel s.sel s t ∧
    ((i = .enc ∨ i = .dec ∨ i = .encRaw ∨ i = .decRaw) →
      ∃ ch ch', s.chan? s.sel = some ch ∧ t.chan? s.sel = some ch' ∧ InputsKept ch ch')

/-- R58: a command's effect on its channel is a function of that channel alone: two machines whose selected channels are equal (whatever
their numbers, and whatever the other channels, the interrupt registers and the host hold) give equal channels. The count of free values is
the same in both, as the draws are taken from it. -/
def Obligations.ChannelsDoNotInterfere : Prop :=
  ∀ (i : Instr) (s s' t : State) (ch : Channel),
    s.chan? s.sel = some ch → s'.chan? s'.sel = some ch → s.bufBytes = s'.bufBytes → s.draws = s'.draws →
    exec i s = .next t →
    ∃ t', exec i s' = .next t' ∧ t.chan? s.sel = t'.chan? s'.sel ∧ t.draws = t'.draws

/-! ## The whole machine -/

/-- The invariant holds right after reset. -/
def Obligations.ResetMeetsTheInvariant : Prop := State.reset.Inv

/-- Every step keeps the invariant, from every state that meets it: the buffers keep their canonical form and bounds (R28, R29), `DONE` and
`BUSY` never hold together (R19), a BUSY channel holds a nonzero job and no error, reserved interrupt bits stay 0 (R32, R33), `OUT_LEN` stays
within `DOUT` (R26). -/
def Obligations.EveryStepKeepsTheInvariant : Prop :=
  ∀ s t : State, s.Inv → step s = .next t → t.Inv

/-- The block never traps and never stops, and refuses nothing: from every state that meets the invariant a step answers a next state
(R43, R110, R141). -/
def Obligations.TheBlockNeverStops : Prop :=
  ∀ s : State, s.Inv → ∃ t, step s = .next t

/-- R57: while a channel stays BUSY over a step, its operands, its latched command and its results stay as they are, whatever the step is. -/
def Obligations.InputsAreFrozenWhileBusy : Prop :=
  ∀ (s t : State) (c : Nat) (ch ch' : Channel), step s = .next t →
    s.chan? c = some ch → ch.busy = true → t.chan? c = some ch' → ch'.busy = true →
    ch'.keyLen = ch.keyLen ∧ ch'.key = ch.key ∧ ch'.ivLen = ch.ivLen ∧ ch'.iv = ch.iv ∧ ch'.inLen = ch.inLen ∧
    ch'.din = ch.din ∧ ch'.job = ch.job ∧ ch'.outLen = ch.outLen ∧ ch'.chain = ch.chain ∧ ch'.dout = ch.dout

/-- R129: a command ends only by its completion, which sets `DONE` and the channel's interrupt bit, or by a reset, after which the channel is
at its reset values. -/
def Obligations.OnlyCompletionOrResetEndsACommand : Prop :=
  ∀ (s t : State) (c : Nat) (ch ch' : Channel), step s = .next t →
    s.chan? c = some ch → ch.busy = true → t.chan? c = some ch' → ch'.busy = false →
    (ch'.done = true ∧ t.intStatus = s.intStatus ||| 1#32 <<< c) ∨
    (ch' = Channel.reset ∧ ∃ rest, s.sched = .reset :: rest)

/-- R121: nothing but a completion on channel `c` sets bit `c` of `INT_STATUS`. -/
def Obligations.OnlyACompletionSetsAnInterruptBit : Prop :=
  ∀ (s t : State) (c : Nat), step s = .next t → s.intStatus.getLsbD c = false → t.intStatus.getLsbD c = true →
    ∃ ch ch', s.chan? c = some ch ∧ ch.busy = true ∧ t.chan? c = some ch' ∧ ch'.busy = false ∧ ch'.done = true

/-- R117: `WERR` stays 1 until the host writes `STATUS` with bit 8 = 1 or the block is reset. -/
def Obligations.WerrIsSticky : Prop :=
  ∀ (s t : State) (c : Nat) (ch ch' : Channel), step s = .next t →
    s.chan? c = some ch → ch.werr = true → t.chan? c = some ch' → ch'.werr = false →
    (∃ a v rest, s.host = .wr a v :: rest ∧ a.toNat / 4 * 4 = 0x10000 * (c + 1) + 0x004 ∧ v.getLsbD 8 = true) ∨
    (ch' = Channel.reset ∧ ∃ rest, s.sched = .reset :: rest)

/-- R130: the reset step, which any state may take, puts every register of every channel and of the global bank at 0, makes every
buffer byte unspecified, discards the commands in flight with no interrupt bit set, and drives `irq` low; the parameters stay. -/
def Obligations.ResetClearsTheBlock : Prop :=
  ∀ s : State,
    ∃ t, runMove .reset s = .next t ∧ t.bufBytes = s.bufBytes ∧ t.numCh = s.numCh ∧ t.intStatus = 0 ∧ t.intEnable = 0 ∧
      t.irq = false ∧
      ∀ c ch, t.chan? c = some ch →
        ch.busy = false ∧ ch.done = false ∧ ch.err = .ok ∧ ch.werr = false ∧ ch.job = 0 ∧
        (∀ k : Fin 8, ch.key[k] = 0) ∧ ch.keyLen = 0 ∧ ch.ivLen = 0 ∧ ch.inLen = 0 ∧ ch.outLen = 0 ∧
        (∀ k : Fin 4, ch.iv[k] = 0) ∧ (∀ k : Fin 4, ch.chain[k] = 0) ∧
        (∀ i, ch.din.get? i = none) ∧ ∀ i, ch.dout.get? i = none

/-- With no access left for the host and none of the schedule, as many steps as there are channels bring every channel to IDLE,
whichever completions the free choice takes first (R131, R142; the free choice is log entry 4). -/
def Obligations.CommandsInFlightDrain : Prop :=
  ∀ s : State, s.Inv → s.sched = [] → s.host = [] →
    ∃ t, Host.Core.run Sys2Proof.core s.numCh s = .next t ∧ t.AllIdle

/-- R119, R129, R131: a command in flight always completes. From every state that meets the invariant, whatever accesses the host has still
to make, polls that never hold included, and whatever the schedule names, finitely many steps lead to a state of the same channels in which
the schedule is used up and every channel is IDLE. How many accesses come before a completion is a free value (log entry 4). -/
def Obligations.EveryCommandInFlightCompletes : Prop :=
  ∀ s : State, s.Inv →
    ∃ n t, Host.Core.run Sys2Proof.core n s = .next t ∧ t.numCh = s.numCh ∧ t.sched = [] ∧ t.AllIdle

/-! ## The cipher -/

/-- R71, R72: each entry of the S-box table is the affine map of the byte's inverse in GF(2^8), and the inverse table is the inverse
permutation. -/
def Obligations.SboxIsTheAffineMapOfTheInverse : Prop :=
  ∀ a : Byte,
    (∃ b : Byte, (if a = 0 then b = 0 else gmul a b = 0x01) ∧
      sbox a = b ^^^ b.rotateLeft 1 ^^^ b.rotateLeft 2 ^^^ b.rotateLeft 3 ^^^ b.rotateLeft 4 ^^^ 0x63) ∧
    invSbox (sbox a) = a ∧ sbox (invSbox a) = a

/-- R79: the key schedule has `4·(Nr + 1)` words, the first `Nk` the key's, each later one by the rule's recurrence. -/
def Obligations.KeyScheduleFollowsItsRecurrence : Prop :=
  ∀ (key : List Byte) (nk : Nat), (nk = 4 ∨ nk = 6 ∨ nk = 8) → key.length = 4 * nk →
    let w := fun i => (keyExpansion key).getD i Col.zero
    (keyExpansion key).length = 4 * (nk + 7) ∧
    (∀ i, i < nk → (w i).toBytes = (key.drop (4 * i)).take 4) ∧
    ∀ i, nk ≤ i → i < 4 * (nk + 7) →
      w i = (w (i - nk)).xor
        (if i % nk = 0 then (subWord (rotWord (w (i - 1)))).xor ⟨roundConstant (i / nk), 0, 0, 0⟩
         else if nk = 8 ∧ i % nk = 4 then subWord (w (i - 1))
         else w (i - 1))

/-- R70, R73 to R78, R80 to R82: the cipher by its own rules, and that its two directions undo each other. `s.entry r c` is `s[r][c]`, byte `r + 4c` of the
block (R73). The clauses, in order: the product in GF(2^8) (R70); a block and its bytes (R73); SubBytes, ShiftRows, MixColumns, AddRoundKey and
their inverses, byte by byte (R74 to R77); the word functions of the key schedule (R78); the rounds of the cipher and of the inverse cipher, `Nr = Nk + 6` (R80, R81); and R82, for every key,
the legal ones among them (a key of another length is log entry 15). -/
def Obligations.AesDecInvertsAesEnc : Prop :=
  (∀ a b : Byte,
    (xtime a).toNat = (if a.toNat < 128 then 2 * a.toNat else (2 * a.toNat) ^^^ 0x11B) ∧
    gmul a b = (List.range 8).foldl (fun sum i => sum ^^^ (if b.getLsbD i then xtime^[i] a else 0)) 0) ∧
  (∀ bytes : List Byte, bytes.length = 16 →
    (Block.ofBytes bytes).toBytes = bytes ∧
    ∀ r c, r < 4 → c < 4 → bytes[r + 4 * c]? = some ((Block.ofBytes bytes).entry r c)) ∧
  (∀ (s : Block) (w : List Col) (j r c : Nat), r < 4 → c < 4 →
    (subBytes s).entry r c = sbox (s.entry r c) ∧
    (invSubBytes s).entry r c = invSbox (s.entry r c) ∧
    (shiftRows s).entry r c = s.entry r ((c + r) % 4) ∧
    (invShiftRows s).entry r c = s.entry r ((c + 4 - r) % 4) ∧
    (addRoundKey w j s).entry r c = s.entry r c ^^^ (w.getD (4 * j + c) Col.zero).toBytes.getD r 0) ∧
  (∀ (s : Block) (c : Nat), c < 4 →
    let a := fun r => s.entry r c
    (mixColumns s).entry 0 c = gmul 0x02 (a 0) ^^^ gmul 0x03 (a 1) ^^^ a 2 ^^^ a 3 ∧
    (mixColumns s).entry 1 c = a 0 ^^^ gmul 0x02 (a 1) ^^^ gmul 0x03 (a 2) ^^^ a 3 ∧
    (mixColumns s).entry 2 c = a 0 ^^^ a 1 ^^^ gmul 0x02 (a 2) ^^^ gmul 0x03 (a 3) ∧
    (mixColumns s).entry 3 c = gmul 0x03 (a 0) ^^^ a 1 ^^^ a 2 ^^^ gmul 0x02 (a 3) ∧
    (invMixColumns s).entry 0 c = gmul 0x0E (a 0) ^^^ gmul 0x0B (a 1) ^^^ gmul 0x0D (a 2) ^^^ gmul 0x09 (a 3) ∧
    (invMixColumns s).entry 1 c = gmul 0x09 (a 0) ^^^ gmul 0x0E (a 1) ^^^ gmul 0x0B (a 2) ^^^ gmul 0x0D (a 3) ∧
    (invMixColumns s).entry 2 c = gmul 0x0D (a 0) ^^^ gmul 0x09 (a 1) ^^^ gmul 0x0E (a 2) ^^^ gmul 0x0B (a 3) ∧
    (invMixColumns s).entry 3 c = gmul 0x0B (a 0) ^^^ gmul 0x0D (a 1) ^^^ gmul 0x09 (a 2) ^^^ gmul 0x0E (a 3)) ∧
  ((∀ v : Col, (rotWord v).toBytes = [v.a1, v.a2, v.a3, v.a0] ∧ (subWord v).toBytes = v.toBytes.map sbox) ∧
    (List.range 10).map (fun j => roundConstant (j + 1)) = [0x01, 0x02, 0x04, 0x08, 0x10, 0x20, 0x40, 0x80, 0x1B, 0x36]) ∧
  ∀ (key : List Byte) (x : Block),
    let w := keyExpansion key
    let nr := key.length / 4 + 6
    let middle := (List.range (nr - 1)).map (· + 1)
    aesEnc key x =
      addRoundKey w nr (shiftRows (subBytes
        (middle.foldl (fun s j => addRoundKey w j (mixColumns (shiftRows (subBytes s)))) (addRoundKey w 0 x)))) ∧
    aesDec key x =
      addRoundKey w 0 (invSubBytes (invShiftRows
        (middle.reverse.foldl (fun s j => invMixColumns (addRoundKey w j (invSubBytes (invShiftRows s))))
          (addRoundKey w nr x)))) ∧
    aesDec key (aesEnc key x) = x ∧ aesEnc key (aesDec key x) = x

/-- R83, R84: each ciphertext block is the encryption of the plaintext block XOR the ciphertext block before it, the first chained with
the IV; each decrypted block is the decryption XOR the ciphertext block before it. -/
def Obligations.CbcChainsTheBlocks : Prop :=
  ∀ (key iv x : List Byte) (n : Nat), x.length = 16 * n →
    let block := fun (k : Nat) (bytes : List Byte) => Block.ofBytes (bytes.drop (16 * k))
    let prev := fun (k : Nat) (bytes : List Byte) => if k = 0 then Block.ofBytes iv else block (k - 1) bytes
    (cbcEnc key iv x).length = 16 * n ∧ (cbcDec key iv x).length = 16 * n ∧
    ∀ k, k < n →
      block k (cbcEnc key iv x) = aesEnc key ((block k x).xor (prev k (cbcEnc key iv x))) ∧
      block k (cbcDec key iv x) = (aesDec key (block k x)).xor (prev k x)

/-- R85, R86, R87: `Pad` appends `n = 16 − (L mod 16)` bytes `n`; `PadValid` of a positive multiple of 16 bytes says that the final byte `n` is 1 to
16 and the last `n` bytes all equal `n`; `Unpad` takes those away. -/
def Obligations.PaddingIsPkcs7 : Prop :=
  (∀ p : List Byte,
    (pad p).length = 16 * (p.length / 16 + 1) ∧ (pad p).take p.length = p ∧
    ∀ i, p.length ≤ i → i < (pad p).length → (pad p)[i]? = some (BitVec.ofNat 8 (16 - p.length % 16))) ∧
  ∀ (x : List Byte) (n : Byte), 0 < x.length → x.length % 16 = 0 → x[x.length - 1]? = some n →
    (padValid x = true ↔
      1 ≤ n.toNat ∧ n.toNat ≤ 16 ∧ ∀ i, x.length - n.toNat ≤ i → i < x.length → x[i]? = some n) ∧
    unpad x = x.take (x.length - n.toNat)

/-- R88: for every message, key and IV, the padding is valid and is removed again, and unpadding the decryption of the encryption of the
padded message gives the message back. -/
def Obligations.CbcRoundTripWithPadding : Prop :=
  ∀ p key iv : List Byte,
    padValid (pad p) = true ∧ unpad (pad p) = p ∧
    cbcDec key iv (cbcEnc key iv (pad p)) = pad p ∧
    unpad (cbcDec key iv (cbcEnc key iv (pad p))) = p

/-- R88 on the machine: DEC, on any channel of any machine that holds the same key and IV and ENC's whole output as its input, gives back the
message that ENC was given. -/
def Obligations.DecGivesBackWhatEncWasGiven : Prop :=
  ∀ (s t s' : State) (ch mid ch' : Channel) (x : List Byte),
    Config.paramsOk s.numCh s.bufBytes = true → s.chan? s.sel = some ch → ch.busy = true → KeyMaterialLegal ch →
    InputIs ch x → x.length ≤ s.bufBytes → exec .enc s = .next t → t.chan? s.sel = some mid →
    Config.paramsOk s'.numCh s'.bufBytes = true → s'.chan? s'.sel = some ch' → ch'.busy = true →
    ch'.keyLen = ch.keyLen → ch'.keyBytes = ch.keyBytes → ch'.ivLen = ch.ivLen → ch'.iv = ch.iv →
    ch'.inLen = mid.outLen → (∀ i, i < mid.outLen.toNat → ch'.din.get? i = mid.dout.get? i) →
    mid.outLen.toNat ≤ s'.bufBytes →
    ∃ t' back, exec .dec s' = .next t' ∧ CompletedWith .ok s' t' back ∧ back.outLen.toNat = x.length ∧
      ∀ i, i < x.length → back.dout.get? i = x[i]?

/-- R96, for one chunk and the rest: ENC_RAW of `m₁` with an IV, then ENC of `m₂` with the `CHAIN` value it left as the IV, give output bytes that
concatenate to ENC of `m₁ ++ m₂` with the first IV; `m₂` has any length. -/
def Obligations.ChunkedEncEqualsOneShotEnc : Prop :=
  ∀ (s₁ t₁ s₂ t₂ s t : State) (ch₁ out₁ ch₂ out₂ ch out : Channel) (m₁ m₂ : List Byte),
    Config.paramsOk s₁.numCh s₁.bufBytes = true → Config.paramsOk s₂.numCh s₂.bufBytes = true →
    Config.paramsOk s.numCh s.bufBytes = true →
    s₁.chan? s₁.sel = some ch₁ → KeyMaterialLegal ch₁ → InputIs ch₁ m₁ → 0 < m₁.length → m₁.length % 16 = 0 →
    m₁.length ≤ s₁.bufBytes → exec .encRaw s₁ = .next t₁ → t₁.chan? s₁.sel = some out₁ →
    s₂.chan? s₂.sel = some ch₂ → ch₂.keyLen = ch₁.keyLen → ch₂.keyBytes = ch₁.keyBytes → ch₂.ivLen = ch₁.ivLen →
    ch₂.iv = out₁.chain → InputIs ch₂ m₂ → m₂.length ≤ s₂.bufBytes →
    exec .enc s₂ = .next t₂ → t₂.chan? s₂.sel = some out₂ →
    s.chan? s.sel = some ch → ch.keyLen = ch₁.keyLen → ch.keyBytes = ch₁.keyBytes → ch.ivLen = ch₁.ivLen →
    ch.iv = ch₁.iv → InputIs ch (m₁ ++ m₂) → m₁.length + m₂.length ≤ s.bufBytes →
    exec .enc s = .next t → t.chan? s.sel = some out →
    out.outLen.toNat = out₁.outLen.toNat + out₂.outLen.toNat ∧ out.chain = out₂.chain ∧
    (∀ i, i < out₁.outLen.toNat → out.dout.get? i = out₁.dout.get? i) ∧
    ∀ i, i < out₂.outLen.toNat → out.dout.get? (out₁.outLen.toNat + i) = out₂.dout.get? i

/-- R96, its other half, for one chunk and the rest: DEC_RAW of `c₁` with an IV, then DEC of `c₂` with the `CHAIN` value it left as the IV, against
DEC of `c₁ ++ c₂` with the first IV: the same error, and where there is none, output bytes that concatenate. -/
def Obligations.ChunkedDecEqualsOneShotDec : Prop :=
  ∀ (s₁ t₁ s₂ t₂ s t : State) (ch₁ out₁ ch₂ out₂ ch out : Channel) (c₁ c₂ : List Byte),
    Config.paramsOk s₁.numCh s₁.bufBytes = true → Config.paramsOk s₂.numCh s₂.bufBytes = true →
    Config.paramsOk s.numCh s.bufBytes = true →
    s₁.chan? s₁.sel = some ch₁ → KeyMaterialLegal ch₁ → InputIs ch₁ c₁ → 0 < c₁.length → c₁.length % 16 = 0 →
    c₁.length ≤ s₁.bufBytes → exec .decRaw s₁ = .next t₁ → t₁.chan? s₁.sel = some out₁ →
    s₂.chan? s₂.sel = some ch₂ → ch₂.keyLen = ch₁.keyLen → ch₂.keyBytes = ch₁.keyBytes → ch₂.ivLen = ch₁.ivLen →
    ch₂.iv = out₁.chain → InputIs ch₂ c₂ → 0 < c₂.length → c₂.length % 16 = 0 → c₂.length ≤ s₂.bufBytes →
    exec .dec s₂ = .next t₂ → t₂.chan? s₂.sel = some out₂ →
    s.chan? s.sel = some ch → ch.keyLen = ch₁.keyLen → ch.keyBytes = ch₁.keyBytes → ch.ivLen = ch₁.ivLen →
    ch.iv = ch₁.iv → InputIs ch (c₁ ++ c₂) → c₁.length + c₂.length ≤ s.bufBytes →
    exec .dec s = .next t → t.chan? s.sel = some out →
    out.err = out₂.err ∧
    (out₂.err = .ok →
      out.outLen.toNat = out₁.outLen.toNat + out₂.outLen.toNat ∧ out.chain = out₂.chain ∧
      (∀ i, i < out₁.outLen.toNat → out.dout.get? i = out₁.dout.get? i) ∧
      ∀ i, i < out₂.outLen.toNat → out.dout.get? (out₁.outLen.toNat + i) = out₂.dout.get? i)

/-- R97: the results of a data command are a function of the command, `KEY[0 .. KEY_LEN)`, `KEY_LEN`, `IV`, `IV_LEN`, `IN_LEN` and `DIN[0 .. IN_LEN)` alone:
not of key bytes above `KEY_LEN` (R89), of bytes of `DIN` above `IN_LEN`, of earlier results, of other channels or of when the
completion happens. `CHAIN` after a failure is the one it was. -/
def Obligations.ResultsDependOnTheOperandsAlone : Prop :=
  ∀ (i : Instr) (s s' t : State) (a b a' : Channel),
    (i = .enc ∨ i = .dec ∨ i = .encRaw ∨ i = .decRaw) → s.bufBytes = s'.bufBytes →
    s.chan? s.sel = some a → s'.chan? s'.sel = some b → b.busy = true →
    a.keyLen = b.keyLen → a.keyBytes = b.keyBytes → a.ivLen = b.ivLen → a.iv = b.iv → a.inLen = b.inLen →
    (a.inLen.toNat ≤ s.bufBytes → ∀ j, j < a.inLen.toNat → a.din.get? j ≠ none ∧ a.din.get? j = b.din.get? j) →
    exec i s = .next t → t.chan? s.sel = some a' →
    ∃ t' b', exec i s' = .next t' ∧ t'.chan? s'.sel = some b' ∧
      b'.err = a'.err ∧ b'.outLen = a'.outLen ∧ b'.dout = a'.dout ∧
      (a'.err = .ok → b'.chain = a'.chain) ∧ (a'.err ≠ .ok → b'.chain = b.chain)

/-- R137, R48, U1: an input whose bytes have all been written is read as it was written, with no free value used; an unspecified byte is
read as a fresh draw. Of an input, and of a word of `DIN` (IDLE or BUSY) or of `DOUT` (IDLE) on the bus, each specified byte is as held, each
unspecified one the next free value, lowest index first, and the count of free values advances by the number of the unspecified ones (the
count is the model's, log entry 2). -/
def Obligations.OnlyUnwrittenBytesAreDraws : Prop :=
  (∀ (ch : Channel) (x : List Byte) (draws : Nat), InputIs ch x → ch.input draws = (x, draws)) ∧
  (∀ (m : Memory) (a draws : Nat),
    m.draw a draws =
      if m.get? a = none then (Config.freeByte draws, draws + 1) else ((m.get? a).getD 0, draws)) ∧
  (∀ (ch : Channel) (draws : Nat),
    (ch.input draws).1.length = ch.inLen.toNat ∧
    (ch.input draws).2 = draws + ch.din.unwritten 0 ch.inLen.toNat ∧
    ∀ i, i < ch.inLen.toNat → (ch.input draws).1[i]? = some (ch.din.found 0 draws i)) ∧
  ∀ (s : State) (c j : Nat) (ch : Channel) (a : Addr), Config.paramsOk s.numCh s.bufBytes = true → s.chan? c = some ch →
    (j < s.bufBytes → a.toNat / 4 * 4 = 0x10000 * (c + 1) + 0x4000 + j →
      (s.memRead a).2 = s.draws + ch.din.unwritten j 4 ∧
      ∀ l : Nat, l < 4 → (s.memRead a).1.extractLsb' (8 * l) 8 = ch.din.found j s.draws l) ∧
    (ch.busy = false → j < s.bufBytes + 16 → a.toNat / 4 * 4 = 0x10000 * (c + 1) + 0x8000 + j →
      (s.memRead a).2 = s.draws + ch.dout.unwritten j 4 ∧
      ∀ l : Nat, l < 4 → (s.memRead a).1.extractLsb' (8 * l) 8 = ch.dout.found j s.draws l)

/-! ## The host bus -/

/-- R46: the two low address bits are ignored, in reads and in writes. -/
def Obligations.LowAddressBitsAreIgnored : Prop :=
  ∀ (s : State) (a b : Addr) (v : Word), a.toNat / 4 = b.toNat / 4 →
    s.memRead a = s.memRead b ∧ s.memWrite a v = s.memWrite b v

/-- R43: an absent bank, a reserved offset of the global bank and a reserved offset of a channel bank read as 0x00000000, and a write there has
no effect and sets no `WERR`. -/
def Obligations.ReservedAddressesReadZeroAndIgnoreWrites : Prop :=
  ∀ (s : State) (a : Addr) (v : Word), Config.paramsOk s.numCh s.bufBytes = true →
    (a.toNat / 0x10000 > s.numCh ∨
      (a.toNat / 0x10000 = 0 ∧ 0x018 ≤ a.toNat) ∨
      (∃ off, 1 ≤ a.toNat / 0x10000 ∧ a.toNat / 0x10000 ≤ s.numCh ∧ off = a.toNat % 0x10000 ∧
        (0x018 ≤ off ∧ off < 0x020 ∨ 0x060 ≤ off ∧ off < 0x4000 ∨ 0x4000 + s.bufBytes ≤ off ∧ off < 0x8000 ∨
          0x8000 + s.bufBytes + 16 ≤ off))) →
    s.memRead a = (0, s.draws) ∧ s.memWrite a v = s

/-- R48, R50: a host read changes no state of the block; and two reads of one address with no write or completion between them, that is,
in two states of the same block, return the same word, where no byte read is unspecified. R67: a poll makes one read at a time and is used up
exactly when `(t AND mask) = val` of the word read; otherwise it stays, to read again. A wait for the `irq` line reads nothing and changes nothing of the block; it is used up exactly when
the line is high, that is, when an enabled bit is pending (R122), and otherwise stays (log entry 17). That the word joins `reads`, that the access leaves
`host` and that unspecified bytes count in `draws` is the model's own (log entries 2, 3 and 7). -/
def Obligations.ReadsChangeNothing : Prop :=
  ∀ (s : State) (a : Addr),
    (∀ ops : List HostOp, s.host = .rd a :: ops →
      ∃ t, runMove .host s = .next t ∧ SameBlock s t ∧ t.host = ops ∧ t.sched = s.sched ∧ t.sel = s.sel ∧ t.delay = s.delay ∧
        t.reads = (s.memRead a).1 :: s.reads ∧ t.draws = (s.memRead a).2) ∧
    (∀ (mask val : Word) (ops : List HostOp), s.host = .poll a mask val :: ops →
      ∃ t, runMove .host s = .next t ∧ SameBlock s t ∧
        t.host = (if (s.memRead a).1 &&& mask = val then ops else .poll a mask val :: ops) ∧
        t.sched = s.sched ∧ t.sel = s.sel ∧ t.delay = s.delay ∧
        t.reads = (s.memRead a).1 :: s.reads ∧ t.draws = (s.memRead a).2) ∧
    (∀ ops : List HostOp, s.host = .awaitIrq :: ops →
      runMove .host s = .next { s with host := if s.intStatus &&& s.intEnable = 0 then .awaitIrq :: ops else ops }) ∧
    ((s.memRead a).2 = s.draws → ∀ t : State, SameBlock s t → t.memRead a = ((s.memRead a).1, t.draws))

/-- R30, R31: `ID` reads 0x41455343, `CONFIG` holds `NUM_CH` in bits 3:0, zeros in 15:4 and `BUF_BYTES / 16` in 31:16; writes to both are
ignored. -/
def Obligations.IdAndConfigAreConstants : Prop :=
  ∀ (s : State) (a : Addr) (v : Word), Config.paramsOk s.numCh s.bufBytes = true →
    (a.toNat / 4 * 4 = 0x000 → s.memRead a = (0x41455343, s.draws) ∧ s.memWrite a v = s) ∧
    (a.toNat / 4 * 4 = 0x004 →
      (s.memRead a).1.toNat = s.bufBytes / 16 * 2 ^ 16 + s.numCh ∧ (s.memRead a).2 = s.draws ∧ s.memWrite a v = s)

/-- R19: a read of `STATUS` gives `BUSY`, `DONE`, `ERR` and `WERR` in their bits and 0 elsewhere; a write changes only `WERR`, which it clears where bit 8
is 1, and is never dropped. -/
def Obligations.StatusReadsItsFieldsAndClearsWerr : Prop :=
  ∀ (s : State) (c : Nat) (ch : Channel) (a : Addr) (v : Word),
    s.chan? c = some ch → a.toNat / 4 * 4 = 0x10000 * (c + 1) + 0x004 →
    (∃ r, s.memRead a = (r, s.draws) ∧ r.getLsbD 0 = ch.busy ∧ r.getLsbD 1 = ch.done ∧ r.extractLsb' 2 2 = 0 ∧
      r.extractLsb' 4 4 = BitVec.ofNat 4 (match ch.err with
        | .ok => 0
        | .invalidKeyMaterial => 1
        | .invalidCiphertextLength => 2
        | .paddingValidation => 3
        | .invalidDataLength => 4
        | .illegalCommand => 5) ∧
      r.getLsbD 8 = ch.werr ∧ r.extractLsb' 9 23 = 0) ∧
    s.memWrite a v = { s with chans := s.chans.set c { ch with werr := ch.werr && !v.getLsbD 8 } }

/-- R21, R22, R25, R52: `KEY_LEN`, `IV_LEN` and `IN_LEN` read as they are held, on an IDLE channel and on a BUSY one; while the channel is IDLE a write
stores the word as written, changing nothing else, and a read gives it back unchanged. -/
def Obligations.LengthRegistersKeepTheWrittenWord : Prop :=
  ∀ (s : State) (c : Nat) (ch : Channel) (a : Addr) (v : Word), s.chan? c = some ch →
    (a.toNat / 4 * 4 = 0x10000 * (c + 1) + 0x008 →
      s.memRead a = (ch.keyLen, s.draws) ∧
      (ch.busy = false →
        s.memWrite a v = { s with chans := s.chans.set c { ch with keyLen := v } } ∧
        (s.memWrite a v).memRead a = (v, s.draws))) ∧
    (a.toNat / 4 * 4 = 0x10000 * (c + 1) + 0x00C →
      s.memRead a = (ch.ivLen, s.draws) ∧
      (ch.busy = false →
        s.memWrite a v = { s with chans := s.chans.set c { ch with ivLen := v } } ∧
        (s.memWrite a v).memRead a = (v, s.draws))) ∧
    (a.toNat / 4 * 4 = 0x10000 * (c + 1) + 0x010 →
      s.memRead a = (ch.inLen, s.draws) ∧
      (ch.busy = false →
        s.memWrite a v = { s with chans := s.chans.set c { ch with inLen := v } } ∧
        (s.memWrite a v).memRead a = (v, s.draws)))

/-- R24, R44: while the channel is IDLE a write of `KEYk` puts the word's lanes at key bytes `4k` to `4k + 3` and changes nothing else; a read of
it returns 0x00000000 whatever it holds. -/
def Obligations.KeyRegistersAreWriteOnly : Prop :=
  ∀ (s : State) (c k : Nat) (ch : Channel) (a : Addr) (v : Word),
    s.chan? c = some ch → k < 8 → a.toNat / 4 * 4 = 0x10000 * (c + 1) + 0x020 + 4 * k →
    s.memRead a = (0, s.draws) ∧
    (ch.busy = false →
      ∃ key' : Vector Word 8, s.memWrite a v = { s with chans := s.chans.set c { ch with key := key' } } ∧
        ∀ i, i < 32 → (regBytes key')[i]? =
          if i / 4 = k then some (v.extractLsb' (8 * (i % 4)) 8) else (regBytes ch.key)[i]?)

/-- R23, R44, R52: `IVk` reads as it is held, on an IDLE channel and on a BUSY one; while the channel is IDLE a write of it puts the word's lanes at IV
bytes `4k` to `4k + 3`, changes nothing else, and is read back. -/
def Obligations.IvRegistersReadBackWhatWasWritten : Prop :=
  ∀ (s : State) (c : Nat) (k : Fin 4) (ch : Channel) (a : Addr) (v : Word),
    s.chan? c = some ch → a.toNat / 4 * 4 = 0x10000 * (c + 1) + 0x040 + 4 * k →
    s.memRead a = (ch.iv[k], s.draws) ∧
    (ch.busy = false →
      ∃ iv' : Vector Word 4, s.memWrite a v = { s with chans := s.chans.set c { ch with iv := iv' } } ∧
        (s.memWrite a v).memRead a = (v, s.draws) ∧
        ∀ i : Nat, i < 16 → (regBytes iv')[i]? =
          if i / 4 = k.val then some (v.extractLsb' (8 * (i % 4)) 8) else (regBytes ch.iv)[i]?)

/-- R28, R44, R52: a specified word of the `DIN` window reads as it is held, on an IDLE channel and on a BUSY one, lane `l` of it the byte at `j + l`;
while the channel is IDLE a write there puts the word's lanes at bytes `j` to `j + 3`, changes no other byte and nothing else, and is read
back. -/
def Obligations.DinKeepsTheWrittenLanes : Prop :=
  ∀ (s : State) (c j : Nat) (ch : Channel) (a : Addr) (v : Word), Config.paramsOk s.numCh s.bufBytes = true →
    s.chan? c = some ch → j < s.bufBytes → a.toNat / 4 * 4 = 0x10000 * (c + 1) + 0x4000 + j →
    (∀ b : Fin 4 → Byte, (∀ l : Fin 4, ch.din.get? (j + l) = some (b l)) →
      ∃ r, s.memRead a = (r, s.draws) ∧ ∀ l : Fin 4, r.extractLsb' (8 * l) 8 = b l) ∧
    (ch.busy = false →
      ∃ din' : Memory, s.memWrite a v = { s with chans := s.chans.set c { ch with din := din' } } ∧
        (s.memWrite a v).memRead a = (v, s.draws) ∧
        ∀ i, din'.get? i = if j ≤ i ∧ i < j + 4 then some (v.extractLsb' (8 * (i - j)) 8) else ch.din.get? i)

/-- R44, R26, R27, R29: while the channel is IDLE, `OUT_LEN`, `CHAINk` and a specified word of `DOUT` read as they are, lane `j` of the word the byte at
address `a + j`; while it is BUSY all three read 0x00000000 (R52). Writes to them are ignored. -/
def Obligations.ResultsAreMaskedWhileBusy : Prop :=
  ∀ (s : State) (c : Nat) (ch : Channel) (a : Addr) (v : Word), Config.paramsOk s.numCh s.bufBytes = true →
    s.chan? c = some ch →
    (a.toNat / 4 * 4 = 0x10000 * (c + 1) + 0x014 →
      s.memRead a = (if ch.busy then 0 else ch.outLen, s.draws) ∧ s.memWrite a v = s) ∧
    (∀ k : Fin 4, a.toNat / 4 * 4 = 0x10000 * (c + 1) + 0x050 + 4 * k →
      s.memRead a = (if ch.busy then 0 else ch.chain[k], s.draws) ∧ s.memWrite a v = s) ∧
    (∀ j, j < s.bufBytes + 16 → a.toNat / 4 * 4 = 0x10000 * (c + 1) + 0x8000 + j →
      (ch.busy = true → s.memRead a = (0, s.draws)) ∧
      (ch.busy = false → ∀ b : Fin 4 → Byte, (∀ l : Fin 4, ch.dout.get? (j + l) = some (b l)) →
        ∃ r, s.memRead a = (r, s.draws) ∧ ∀ l : Fin 4, r.extractLsb' (8 * l) 8 = b l) ∧
      s.memWrite a v = s)

/-- R52: while the channel is BUSY a write to any of its protected registers is dropped: `WERR` becomes 1 and nothing else changes. -/
def Obligations.ProtectedWritesAreDroppedWhileBusy : Prop :=
  ∀ (s : State) (c off : Nat) (ch : Channel) (a : Addr) (v : Word), Config.paramsOk s.numCh s.bufBytes = true →
    s.chan? c = some ch → ch.busy = true → a.toNat / 4 * 4 = 0x10000 * (c + 1) + off →
    (off = 0x000 ∨ off = 0x008 ∨ off = 0x00C ∨ off = 0x010 ∨ 0x020 ≤ off ∧ off ≤ 0x04C ∨
      0x4000 ≤ off ∧ off < 0x4000 + s.bufBytes) →
    s.memWrite a v = { s with chans := s.chans.set c { ch with werr := true } }

/-- R20, R53: a host write of a nonzero word to `CMD` of an IDLE channel, legal or not, is accepted: `JOB` is the word, `BUSY` 1, `DONE` 0, `ERR` 0, and nothing
else changes; a write of 0 changes nothing; a write while BUSY is dropped and sets `WERR`; a read of `CMD` returns 0x00000000. -/
def Obligations.ANonzeroCommandWordIsAccepted : Prop :=
  ∀ (s : State) (c : Nat) (ch : Channel) (a : Addr) (v : Word),
    s.chan? c = some ch → a.toNat / 4 * 4 = 0x10000 * (c + 1) →
    (ch.busy = false → v ≠ 0 → s.memWrite a v =
      { s with chans := s.chans.set c { ch with job := v, busy := true, done := false, err := .ok } }) ∧
    (ch.busy = false → v = 0 → s.memWrite a v = s) ∧
    (ch.busy = true → s.memWrite a v = { s with chans := s.chans.set c { ch with werr := true } }) ∧
    s.memRead a = (0, s.draws)

/-- R32, R33: a write of `INT_STATUS` clears exactly the bits written as 1, a write of `INT_ENABLE` stores the bits of the channels; both read as they are
held, with bits `NUM_CH` to 31 zero before a write and after it. -/
def Obligations.InterruptRegistersClearAndEnable : Prop :=
  ∀ (s : State) (a : Addr) (v : Word), s.Inv →
    (∀ b, s.numCh ≤ b → s.intStatus.getLsbD b = false ∧ s.intEnable.getLsbD b = false) ∧
    (a.toNat / 4 * 4 = 0x008 →
      s.memRead a = (s.intStatus, s.draws) ∧
      ∃ w, s.memWrite a v = { s with intStatus := w } ∧
        ∀ b, w.getLsbD b = (s.intStatus.getLsbD b && !v.getLsbD b)) ∧
    (a.toNat / 4 * 4 = 0x00C →
      s.memRead a = (s.intEnable, s.draws) ∧
      ∃ w, s.memWrite a v = { s with intEnable := w } ∧
        ∀ b, w.getLsbD b = (v.getLsbD b && decide (b < s.numCh)))

/-- R34: bit `c` of `CH_BUSY` is channel `c`'s `BUSY`; bits `NUM_CH` to 31 read 0; writes are ignored. -/
def Obligations.ChBusyMirrorsTheChannels : Prop :=
  ∀ (s : State) (a : Addr) (v : Word), Config.paramsOk s.numCh s.bufBytes = true → a.toNat / 4 * 4 = 0x010 →
    (∃ r, s.memRead a = (r, s.draws) ∧
      ∀ c, r.getLsbD c = (match s.chan? c with
        | some ch => ch.busy
        | none => false)) ∧
    s.memWrite a v = s

/-- R35, R122: bit 0 of `IRQ_LEVEL` is 1 exactly when an enabled bit of `INT_STATUS` is set; the other bits read 0; writes are ignored. -/
def Obligations.IrqIsTheEnabledPendingBits : Prop :=
  ∀ (s : State) (a : Addr) (v : Word), a.toNat / 4 * 4 = 0x014 →
    (∃ r, s.memRead a = (r, s.draws) ∧ r.toNat ≤ 1 ∧
      (r = 1 ↔ ∃ b, s.intStatus.getLsbD b = true ∧ s.intEnable.getLsbD b = true)) ∧
    s.memWrite a v = s

/-- R67, R89: the writes that `SETKEY c, B` expands to, made on an IDLE channel, set `KEY_LEN` to `len(B)` and the key bytes to `B`, so that the key a
command uses is `B`: byte `i` is `B[i]` below `len(B)`, 0x00 in the lanes of the last word past `len(B)`, and in the key registers above that word
as it was. Every other register of the channel, and everything outside it, keeps its value. -/
def Obligations.SetKeyLoadsTheKey : Prop :=
  ∀ (s : State) (c : Nat) (ch : Channel) (bytes : List Byte), Config.paramsOk s.numCh s.bufBytes = true →
    s.chan? c = some ch → ch.busy = false → bytes.length ≤ 32 →
    ∃ ops key', Pseudo.expand s.numCh s.bufBytes (.setKey c bytes) = some ops ∧
      (ops.foldl (fun u op => match op with
        | .wr a v => u.memWrite a v
        | _ => u) s) =
        { s with chans := s.chans.set c { ch with keyLen := BitVec.ofNat 32 bytes.length, key := key' } } ∧
      (regBytes key').take bytes.length = bytes ∧
      ∀ i : Nat, i < 32 → (regBytes key')[i]? =
        if i < bytes.length then bytes[i]?
        else if i < 4 * ((bytes.length + 3) / 4) then some 0
        else (regBytes ch.key)[i]?
end

