-- ==== Sys2Proof/Laws/Memory.lean ====
section
/-! SUPPORT. The buffers: reading after writing, and that every memory operation keeps the canonical form. -/

namespace Sys2Proof.Machine

/-! Reading after writing -/

@[simp] theorem Memory.get?_nil (a : Nat) : Memory.get? [] a = none := rfl

theorem Memory.get?_set_self (m : Memory) (a : Nat) (b : Byte) : (m.set a b).get? a = some b := by
  induction m with
  | nil => simp [Memory.set, Memory.get?]
  | cons cell rest ih =>
    obtain ⟨k, v⟩ := cell
    by_cases hlt : a < k
    · simp [Memory.set, Memory.get?, hlt]
    · by_cases heq : a = k
      · simp [Memory.set, Memory.get?, heq]
      · simp [Memory.set, Memory.get?, hlt, heq, Ne.symm heq, ih]

theorem Memory.get?_set_ne (m : Memory) {a x : Nat} (hne : x ≠ a) (b : Byte) : (m.set a b).get? x = m.get? x := by
  induction m with
  | nil => simp [Memory.set, Memory.get?, Ne.symm hne, Memory.unlisted]
  | cons cell rest ih =>
    obtain ⟨k, v⟩ := cell
    by_cases hlt : a < k
    · simp [Memory.set, Memory.get?, hlt, Ne.symm hne]
    · by_cases heq : a = k
      · subst heq
        simp [Memory.set, Memory.get?, Ne.symm hne]
      · simp [Memory.set, Memory.get?, hlt, heq, ih]

theorem Memory.get?_set (m : Memory) (a x : Nat) (b : Byte) :
    (m.set a b).get? x = if x = a then some b else m.get? x := by
  by_cases h : x = a
  · subst h; simp [Memory.get?_set_self]
  · simp [h, Memory.get?_set_ne m h]

/-- A word write: its four bytes, and every other byte as before. -/
theorem Memory.get?_setWord (m : Memory) (a x : Nat) (v : Word) :
    (m.setWord a v).get? x = if a ≤ x ∧ x < a + 4 then some (lane v (x - a)) else m.get? x := by
  simp only [Memory.setWord, Memory.get?_set]
  by_cases h : a ≤ x ∧ x < a + 4
  · obtain ⟨k, rfl⟩ := Nat.exists_eq_add_of_le h.1
    have hk : k < 4 := by omega
    interval_cases k <;> simp
  · rw [if_neg h]
    repeat rw [if_neg (by omega)]

theorem Memory.get?_ofBytes (bytes : List Byte) (base x : Nat) :
    (Memory.ofBytes base bytes).get? x = if base ≤ x then bytes[x - base]? else none := by
  induction bytes generalizing base with
  | nil => simp [Memory.ofBytes]
  | cons b rest ih =>
    by_cases heq : base = x
    · subst heq; simp [Memory.ofBytes, Memory.get?]
    · by_cases hle : base ≤ x
      · have hx : x - base = (x - (base + 1)) + 1 := by omega
        simp [Memory.ofBytes, Memory.get?, heq, ih, hle, hx, show base + 1 ≤ x by omega]
      · simp [Memory.ofBytes, Memory.get?, heq, ih, hle, show ¬ base + 1 ≤ x by omega]

theorem Memory.get?_zeros (n x : Nat) : (Memory.zeros n).get? x = if x < n then some 0 else none := by
  simp [Memory.zeros, Memory.get?_ofBytes, List.getElem?_replicate]

/-- The output followed by zero bytes (R95): the output's bytes, then 0x00 up to the buffer's end, nothing after it. -/
theorem Memory.get?_output (y : List Byte) (n x : Nat) (hy : y.length ≤ n) :
    (Memory.ofBytes 0 (y ++ List.replicate (n - y.length) 0)).get? x =
      if x < y.length then y[x]? else if x < n then some 0 else none := by
  rw [Memory.get?_ofBytes]
  simp only [Nat.zero_le, if_true, Nat.sub_zero, List.getElem?_append, List.getElem?_replicate]
  split
  · rfl
  · split <;> split <;> first | rfl | omega

@[simp] theorem Memory.length_ofBytes (base : Nat) (bytes : List Byte) :
    (Memory.ofBytes base bytes).length = bytes.length := by
  induction bytes generalizing base with
  | nil => rfl
  | cons b rest ih => simp [Memory.ofBytes, ih]

@[simp] theorem Memory.length_zeros (n : Nat) : (Memory.zeros n).length = n := by simp [Memory.zeros]

/-! The canonical form -/

/-- A listed byte is a value, so it never equals what an unlisted byte reads as. -/
theorem Memory.all_listed (m : Memory) : m.all (fun cell => some cell.2 != Memory.unlisted) = true := by
  simp [Memory.unlisted]

theorem Memory.wf_iff (m : Memory) : m.wf = true ↔ m.risesFrom 0 = true := by
  unfold Memory.wf
  rw [Memory.all_listed, Bool.and_true]

theorem Memory.risesFrom_le {m : Memory} {lo lo' : Nat} (h : m.risesFrom lo = true) (hle : lo' ≤ lo) :
    m.risesFrom lo' = true := by
  cases m with
  | nil => rfl
  | cons cell rest =>
    obtain ⟨k, v⟩ := cell
    simp only [Memory.risesFrom, Bool.and_eq_true, decide_eq_true_eq] at h ⊢
    exact ⟨by omega, h.2⟩

theorem Memory.risesFrom_set {m : Memory} {lo a : Nat} (h : m.risesFrom lo = true) (hlo : lo ≤ a) (b : Byte) :
    (m.set a b).risesFrom lo = true := by
  induction m generalizing lo with
  | nil => simp [Memory.set, Memory.risesFrom, hlo]
  | cons cell rest ih =>
    obtain ⟨k, v⟩ := cell
    simp only [Memory.risesFrom, Bool.and_eq_true, decide_eq_true_eq] at h
    simp only [Memory.set]
    split
    · next hlt =>
      simp only [Memory.risesFrom, Bool.and_eq_true, decide_eq_true_eq]
      exact ⟨hlo, by omega, h.2⟩
    · split
      · next heq =>
        subst heq
        simp only [Memory.risesFrom, Bool.and_eq_true, decide_eq_true_eq]
        exact ⟨hlo, h.2⟩
      · next hnlt hne =>
        simp only [Memory.risesFrom, Bool.and_eq_true, decide_eq_true_eq]
        exact ⟨h.1, ih h.2 (by omega)⟩

theorem Memory.risesFrom_ofBytes (bytes : List Byte) (base : Nat) :
    (Memory.ofBytes base bytes).risesFrom base = true := by
  induction bytes generalizing base with
  | nil => rfl
  | cons b rest ih => simp [Memory.ofBytes, Memory.risesFrom, ih]

theorem Memory.wf_nil : Memory.wf [] = true := rfl

theorem Memory.wf_set {m : Memory} (h : m.wf = true) (a : Nat) (b : Byte) : (m.set a b).wf = true := by
  rw [Memory.wf_iff] at h ⊢
  exact Memory.risesFrom_set h (Nat.zero_le a) b

theorem Memory.wf_setWord {m : Memory} (h : m.wf = true) (a : Nat) (v : Word) : (m.setWord a v).wf = true := by
  unfold Memory.setWord
  exact Memory.wf_set (Memory.wf_set (Memory.wf_set (Memory.wf_set h _ _) _ _) _ _) _ _

theorem Memory.wf_ofBytes (base : Nat) (bytes : List Byte) : (Memory.ofBytes base bytes).wf = true := by
  rw [Memory.wf_iff]
  exact Memory.risesFrom_le (Memory.risesFrom_ofBytes bytes base) (Nat.zero_le base)

theorem Memory.wf_zeros (n : Nat) : (Memory.zeros n).wf = true := Memory.wf_ofBytes 0 _

/-- The buffers right after reset have the canonical form. -/
theorem State.reset_buffers_wf (ch : Channel) (h : ch ∈ State.reset.chans) : ch.din.wf = true ∧ ch.dout.wf = true := by
  rw [List.eq_of_mem_replicate h]
  exact ⟨rfl, rfl⟩

/-! Draws -/

theorem Memory.draw_of_some {m : Memory} {a : Nat} {b : Byte} (h : m.get? a = some b) (draws : Nat) :
    m.draw a draws = (b, draws) := by simp [Memory.draw, h]

theorem Memory.draw_of_none {m : Memory} {a : Nat} (h : m.get? a = none) (draws : Nat) :
    m.draw a draws = (Config.freeByte draws, draws + 1) := by simp [Memory.draw, h]

@[simp] theorem Memory.length_drawBytes (m : Memory) (a n draws : Nat) : (m.drawBytes a n draws).1.length = n := by
  induction n generalizing a draws with
  | zero => rfl
  | succ n ih => simp [Memory.drawBytes, ih]

/-- Bytes that are all specified are read as they are, and no free value is used. -/
theorem Memory.drawBytes_of_some {m : Memory} {a : Nat} {bytes : List Byte}
    (h : ∀ i, (hi : i < bytes.length) → m.get? (a + i) = some bytes[i]) (draws : Nat) :
    m.drawBytes a bytes.length draws = (bytes, draws) := by
  induction bytes generalizing a with
  | nil => rfl
  | cons b rest ih =>
    have h0 := Memory.draw_of_some (by simpa using h 0 (by simp)) draws
    have hrest := ih (a := a + 1) (fun i hi => by
      have := h (i + 1) (by simp; omega)
      simpa [Nat.add_assoc, Nat.add_comm 1 i] using this)
    simp [Memory.drawBytes, h0, hrest]

/-- Reading never takes a free value back. -/
theorem Memory.le_drawBytes (m : Memory) (a n draws : Nat) : draws ≤ (m.drawBytes a n draws).2 := by
  induction n generalizing a draws with
  | zero => exact Nat.le_refl draws
  | succ n ih =>
    have hfirst : draws ≤ (m.draw a draws).2 := by
      unfold Memory.draw
      split <;> simp
    exact Nat.le_trans hfirst (ih (a + 1) _)

/-- Bytes whose reading uses no free value read the same again, whatever the count (R50). -/
theorem Memory.drawBytes_of_kept {m : Memory} {a n draws : Nat} (h : (m.drawBytes a n draws).2 = draws) (draws' : Nat) :
    m.drawBytes a n draws' = ((m.drawBytes a n draws).1, draws') := by
  induction n generalizing a with
  | zero => rfl
  | succ n ih =>
    simp only [Memory.drawBytes] at h ⊢
    cases hget : m.get? a with
    | none =>
      rw [Memory.draw_of_none hget] at h
      exact absurd h (Nat.ne_of_gt (m.le_drawBytes (a + 1) n (draws + 1)))
    | some b =>
      rw [Memory.draw_of_some hget] at h
      rw [Memory.draw_of_some hget, Memory.draw_of_some hget]
      simp only at h ⊢
      rw [ih h]

end Sys2Proof.Machine
end

