-- ==== Sys2Proof/Laws/Cipher.lean ====
section
/-! SUPPORT. Lengths of what the cipher functions give, and the byte view of blocks. -/

namespace Sys2Proof.Machine

@[simp] theorem Block.length_toBytes (s : Block) : s.toBytes.length = 16 := rfl

/-- A block is its sixteen bytes. -/
@[simp] theorem Block.ofBytes_toBytes (s : Block) : Block.ofBytes s.toBytes = s := rfl

/-- Only the first sixteen bytes of a sequence enter a block. -/
theorem Block.ofBytes_append (s : Block) (rest : List Byte) : Block.ofBytes (s.toBytes ++ rest) = s := rfl

@[simp] theorem length_bytesOfBlocks (blocks : List Block) : (bytesOfBlocks blocks).length = 16 * blocks.length := by
  induction blocks with
  | nil => rfl
  | cons b rest ih =>
    have : bytesOfBlocks (b :: rest) = b.toBytes ++ bytesOfBlocks rest := rfl
    rw [this, List.length_append, ih, Block.length_toBytes, List.length_cons]
    omega

@[simp] theorem length_blocksOf (n : Nat) (bytes : List Byte) : (blocksOf n bytes).length = n := by
  induction n generalizing bytes with
  | zero => rfl
  | succ n ih => simp [blocksOf, ih]

@[simp] theorem length_cbcEncBlocks (enc : Block → Block) (prev : Block) (blocks : List Block) :
    (cbcEncBlocks enc prev blocks).length = blocks.length := by
  induction blocks generalizing prev with
  | nil => rfl
  | cons b rest ih => simp [cbcEncBlocks, ih]

@[simp] theorem length_cbcDecBlocks (dec : Block → Block) (prev : Block) (blocks : List Block) :
    (cbcDecBlocks dec prev blocks).length = blocks.length := by
  induction blocks generalizing prev with
  | nil => rfl
  | cons b rest ih => simp [cbcDecBlocks, ih]

/-- Splitting a sequence of blocks into blocks gives the blocks back (R14, R73). -/
theorem blocksOf_bytesOfBlocks (blocks : List Block) (rest : List Byte) :
    blocksOf blocks.length (bytesOfBlocks blocks ++ rest) = blocks := by
  induction blocks with
  | nil => rfl
  | cons b bs ih =>
    have happ : bytesOfBlocks (b :: bs) ++ rest = b.toBytes ++ (bytesOfBlocks bs ++ rest) := by
      simp [bytesOfBlocks]
    rw [happ, List.length_cons, blocksOf, Block.ofBytes_append]
    have hdrop : (b.toBytes ++ (bytesOfBlocks bs ++ rest)).drop 16 = bytesOfBlocks bs ++ rest := rfl
    rw [hdrop, ih]

theorem length_cbcEnc (key iv x : List Byte) : (cbcEnc key iv x).length = 16 * (x.length / 16) := by
  simp [cbcEnc]

theorem length_cbcDec (key iv y : List Byte) : (cbcDec key iv y).length = 16 * (y.length / 16) := by
  simp [cbcDec]

theorem length_pad (p : List Byte) : (pad p).length = 16 * (p.length / 16 + 1) := by
  simp only [pad, padCount, List.length_append, List.length_replicate]
  omega

theorem length_unpad_le (x : List Byte) : (unpad x).length ≤ x.length := by
  simp only [unpad, List.length_take]
  omega

@[simp] theorem length_regBytes {n : Nat} (regs : Vector Word n) : (regBytes regs).length = 4 * n := by
  obtain ⟨⟨l⟩, hl⟩ := regs
  simp only [List.size_toArray] at hl
  subst hl
  simp only [regBytes, Vector.toList]
  induction l with
  | nil => rfl
  | cons w rest ih => simp_all [bytesOfWord]; omega

@[simp] theorem Channel.length_input (ch : Channel) (draws : Nat) : (ch.input draws).1.length = ch.inLen.toNat := by
  simp [Channel.input]

/-- Multiplication in GF(2^8) by a fixed byte distributes over XOR (R70). -/
theorem gmul_xor (c x y : Byte) : gmul c (x ^^^ y) = gmul c x ^^^ gmul c y := by
  have terms : ∀ (n : Nat) (c x y : Byte), gmulTerms n c (x ^^^ y) = gmulTerms n c x ^^^ gmulTerms n c y := by
    intro n
    induction n with
    | zero => intro c x y; simp [gmulTerms]
    | succ n ih =>
      intro c x y
      simp only [gmulTerms]
      rw [BitVec.ushiftRight_xor_distrib, ih]
      have hbit : (if (x ^^^ y).getLsbD 0 = true then c else 0) =
          (if x.getLsbD 0 = true then c else 0) ^^^ (if y.getLsbD 0 = true then c else 0) := by
        rw [BitVec.getLsbD_xor]
        cases x.getLsbD 0 <;> cases y.getLsbD 0 <;> simp
      rw [hbit]
      ac_rfl
  exact terms 8 c x y

/-- A block put into the state leaves it as the same sixteen bytes (R73). -/
theorem Block.toBytes_ofBytes (bytes : List Byte) (h : 16 ≤ bytes.length) : (Block.ofBytes bytes).toBytes = bytes.take 16 := by
  apply List.ext_getElem
  · simp; omega
  · intro i hi _
    have hlen : i < 16 := by simpa using hi
    rw [List.getElem_take]
    have key : ∀ j, (hj : j < bytes.length) → bytes.getD j 0 = bytes[j] := fun j hj => by
      rw [List.getD_eq_getElem?_getD, List.getElem?_eq_getElem hj]; rfl
    rw [← key i (by omega)]
    interval_cases i <;> rfl

end Sys2Proof.Machine
end

