-- ==== Sys2Proof/Laws/Lanes.lean ====
section
/-! SUPPORT. The byte lanes: a word is its four bytes, in both directions; registers as byte sequences. -/

namespace Sys2Proof.Machine

theorem lane_wordOfBytes (b0 b1 b2 b3 : Byte) :
    lane (wordOfBytes b0 b1 b2 b3) 0 = b0 ∧ lane (wordOfBytes b0 b1 b2 b3) 1 = b1 ∧
    lane (wordOfBytes b0 b1 b2 b3) 2 = b2 ∧ lane (wordOfBytes b0 b1 b2 b3) 3 = b3 := by
  unfold lane wordOfBytes
  refine ⟨?_, ?_, ?_, ?_⟩ <;>
  · apply BitVec.eq_of_getLsbD_eq
    intro i hi
    interval_cases i <;> simp

@[simp] theorem bytesOfWord_wordOfBytes (b0 b1 b2 b3 : Byte) :
    bytesOfWord (wordOfBytes b0 b1 b2 b3) = [b0, b1, b2, b3] := by
  obtain ⟨h0, h1, h2, h3⟩ := lane_wordOfBytes b0 b1 b2 b3
  simp [bytesOfWord, h0, h1, h2, h3]

/-- A word is made of its own lanes. -/
@[simp] theorem wordOfBytes_lanes (w : Word) : wordOfBytes (lane w 0) (lane w 1) (lane w 2) (lane w 3) = w := by
  apply BitVec.eq_of_getLsbD_eq
  intro i hi
  have h4 : i / 8 = 0 ∨ i / 8 = 1 ∨ i / 8 = 2 ∨ i / 8 = 3 := by omega
  unfold lane wordOfBytes
  simp only [BitVec.getLsbD_or, BitVec.getLsbD_shiftLeft, BitVec.getLsbD_setWidth, BitVec.getLsbD_extractLsb']
  rcases h4 with h | h | h | h
  · simp [show i < 8 by omega, show i < 16 by omega, show i < 24 by omega, hi]
  · simp [show ¬ i < 8 by omega, show i < 16 by omega, show i < 24 by omega, hi, show i - 8 < 8 by omega, show i - 8 < 32 by omega,
      show 8 + (i - 8) = i by omega]
  · simp [show ¬ i < 8 by omega, show ¬ i < 16 by omega, show i < 24 by omega, hi, show ¬ i - 8 < 8 by omega,
      show i - 16 < 8 by omega, show i - 16 < 32 by omega, show 16 + (i - 16) = i by omega]
  · simp [show ¬ i < 8 by omega, show ¬ i < 16 by omega, show ¬ i < 24 by omega, hi, show ¬ i - 8 < 8 by omega,
      show ¬ i - 16 < 8 by omega, show i - 24 < 8 by omega, show i - 24 < 32 by omega, show 24 + (i - 24) = i by omega]

/-- Sixteen bytes put into four registers are read from them again. -/
theorem regBytes_blockRegs {bytes : List Byte} (h : bytes.length = 16) : regBytes (blockRegs bytes) = bytes := by
  match bytes, h with
  | [a0, a1, a2, a3, a4, a5, a6, a7, a8, a9, a10, a11, a12, a13, a14, a15], _ =>
    simp [regBytes, blockRegs, wordAt]

/-- Storing a register changes its four bytes and no other (R23, R24). -/
theorem flatMap_bytesOfWord_set (l : List Word) (k i : Nat) (v : Word) (hk : k < l.length) :
    ((l.set k v).flatMap bytesOfWord)[i]? =
      if i / 4 = k then some (lane v (i % 4)) else (l.flatMap bytesOfWord)[i]? := by
  induction l generalizing k i with
  | nil => simp at hk
  | cons w rest ih =>
    have first : ∀ (u : Word) (tail : List Byte), i < 4 → (bytesOfWord u ++ tail)[i]? = some (lane u i) := by
      intro u tail hi
      interval_cases i <;> rfl
    have later : ∀ (u : Word) (tail : List Byte), ¬ i < 4 → (bytesOfWord u ++ tail)[i]? = tail[i - 4]? := by
      intro u tail hi
      rw [List.getElem?_append_right (by simp [bytesOfWord]; omega)]
      rfl
    cases k with
    | zero =>
      by_cases hi : i < 4
      · simp only [List.set_cons_zero, List.flatMap_cons, first _ _ hi]
        rw [if_pos (by omega), Nat.mod_eq_of_lt hi]
      · simp only [List.set_cons_zero, List.flatMap_cons, later _ _ hi]
        rw [if_neg (by omega)]
    | succ k =>
      by_cases hi : i < 4
      · simp only [List.set_cons_succ, List.flatMap_cons, first _ _ hi]
        rw [if_neg (by omega)]
      · simp only [List.set_cons_succ, List.flatMap_cons, later _ _ hi]
        rw [ih k (i - 4) (by simpa using hk)]
        have h1 : (i - 4) / 4 = k ↔ i / 4 = k + 1 := by omega
        have h2 : (i - 4) % 4 = i % 4 := by omega
        simp [h1, h2]

/-- The last block of a positive whole number of blocks is its last sixteen bytes. -/
theorem lastBlock_eq_drop {y : List Byte} {n : Nat} (h : y.length = 16 * n) (hn : 0 < n) :
    lastBlock y = y.drop (y.length - 16) ∧ (lastBlock y).length = 16 := by
  have hoff : 16 * (y.length / 16 - 1) = y.length - 16 := by omega
  have hdrop : lastBlock y = y.drop (y.length - 16) := by
    unfold lastBlock blockAt
    rw [hoff, List.take_of_length_le]
    rw [List.length_drop]
    omega
  refine ⟨hdrop, ?_⟩
  rw [hdrop, List.length_drop]
  omega

end Sys2Proof.Machine
end

