-- ==== Sys2Proof/Laws/State.lean ====
section
/-! SUPPORT. One lemma per field per named update of the state and of a channel, each true by unfolding, so that no later
proof unfolds a record update; and the lemmas of reading a channel after an update. -/

namespace Sys2Proof.Machine

/-! The state -/

@[simp] theorem State.setChan_bufBytes (s : State) (c : Nat) (ch : Channel) : (s.setChan c ch).bufBytes = s.bufBytes := rfl
@[simp] theorem State.setChan_chans (s : State) (c : Nat) (ch : Channel) : (s.setChan c ch).chans = s.chans.set c ch := rfl
@[simp] theorem State.setChan_intStatus (s : State) (c : Nat) (ch : Channel) : (s.setChan c ch).intStatus = s.intStatus := rfl
@[simp] theorem State.setChan_intEnable (s : State) (c : Nat) (ch : Channel) : (s.setChan c ch).intEnable = s.intEnable := rfl
@[simp] theorem State.setChan_sel (s : State) (c : Nat) (ch : Channel) : (s.setChan c ch).sel = s.sel := rfl
@[simp] theorem State.setChan_host (s : State) (c : Nat) (ch : Channel) : (s.setChan c ch).host = s.host := rfl
@[simp] theorem State.setChan_sched (s : State) (c : Nat) (ch : Channel) : (s.setChan c ch).sched = s.sched := rfl
@[simp] theorem State.setChan_reads (s : State) (c : Nat) (ch : Channel) : (s.setChan c ch).reads = s.reads := rfl
@[simp] theorem State.setChan_draws (s : State) (c : Nat) (ch : Channel) : (s.setChan c ch).draws = s.draws := rfl
@[simp] theorem State.setChan_delay (s : State) (c : Nat) (ch : Channel) : (s.setChan c ch).delay = s.delay := rfl

@[simp] theorem State.pend_bufBytes (s : State) (c : Nat) : (s.pend c).bufBytes = s.bufBytes := rfl
@[simp] theorem State.pend_chans (s : State) (c : Nat) : (s.pend c).chans = s.chans := rfl
@[simp] theorem State.pend_intStatus (s : State) (c : Nat) : (s.pend c).intStatus = s.intStatus ||| channelBit c := rfl
@[simp] theorem State.pend_intEnable (s : State) (c : Nat) : (s.pend c).intEnable = s.intEnable := rfl
@[simp] theorem State.pend_sel (s : State) (c : Nat) : (s.pend c).sel = s.sel := rfl
@[simp] theorem State.pend_host (s : State) (c : Nat) : (s.pend c).host = s.host := rfl
@[simp] theorem State.pend_sched (s : State) (c : Nat) : (s.pend c).sched = s.sched := rfl
@[simp] theorem State.pend_reads (s : State) (c : Nat) : (s.pend c).reads = s.reads := rfl
@[simp] theorem State.pend_draws (s : State) (c : Nat) : (s.pend c).draws = s.draws := rfl
@[simp] theorem State.pend_delay (s : State) (c : Nat) : (s.pend c).delay = s.delay := rfl

@[simp] theorem State.setIntStatus_bufBytes (s : State) (v : Word) : (s.setIntStatus v).bufBytes = s.bufBytes := rfl
@[simp] theorem State.setIntStatus_chans (s : State) (v : Word) : (s.setIntStatus v).chans = s.chans := rfl
@[simp] theorem State.setIntStatus_intStatus (s : State) (v : Word) : (s.setIntStatus v).intStatus = v := rfl
@[simp] theorem State.setIntStatus_intEnable (s : State) (v : Word) : (s.setIntStatus v).intEnable = s.intEnable := rfl
@[simp] theorem State.setIntStatus_sel (s : State) (v : Word) : (s.setIntStatus v).sel = s.sel := rfl
@[simp] theorem State.setIntStatus_host (s : State) (v : Word) : (s.setIntStatus v).host = s.host := rfl
@[simp] theorem State.setIntStatus_sched (s : State) (v : Word) : (s.setIntStatus v).sched = s.sched := rfl
@[simp] theorem State.setIntStatus_reads (s : State) (v : Word) : (s.setIntStatus v).reads = s.reads := rfl
@[simp] theorem State.setIntStatus_draws (s : State) (v : Word) : (s.setIntStatus v).draws = s.draws := rfl
@[simp] theorem State.setIntStatus_delay (s : State) (v : Word) : (s.setIntStatus v).delay = s.delay := rfl

@[simp] theorem State.setIntEnable_bufBytes (s : State) (v : Word) : (s.setIntEnable v).bufBytes = s.bufBytes := rfl
@[simp] theorem State.setIntEnable_chans (s : State) (v : Word) : (s.setIntEnable v).chans = s.chans := rfl
@[simp] theorem State.setIntEnable_intStatus (s : State) (v : Word) : (s.setIntEnable v).intStatus = s.intStatus := rfl
@[simp] theorem State.setIntEnable_intEnable (s : State) (v : Word) : (s.setIntEnable v).intEnable = v := rfl
@[simp] theorem State.setIntEnable_sel (s : State) (v : Word) : (s.setIntEnable v).sel = s.sel := rfl
@[simp] theorem State.setIntEnable_host (s : State) (v : Word) : (s.setIntEnable v).host = s.host := rfl
@[simp] theorem State.setIntEnable_sched (s : State) (v : Word) : (s.setIntEnable v).sched = s.sched := rfl
@[simp] theorem State.setIntEnable_reads (s : State) (v : Word) : (s.setIntEnable v).reads = s.reads := rfl
@[simp] theorem State.setIntEnable_draws (s : State) (v : Word) : (s.setIntEnable v).draws = s.draws := rfl
@[simp] theorem State.setIntEnable_delay (s : State) (v : Word) : (s.setIntEnable v).delay = s.delay := rfl

@[simp] theorem State.setDraws_bufBytes (s : State) (n : Nat) : (s.setDraws n).bufBytes = s.bufBytes := rfl
@[simp] theorem State.setDraws_chans (s : State) (n : Nat) : (s.setDraws n).chans = s.chans := rfl
@[simp] theorem State.setDraws_intStatus (s : State) (n : Nat) : (s.setDraws n).intStatus = s.intStatus := rfl
@[simp] theorem State.setDraws_intEnable (s : State) (n : Nat) : (s.setDraws n).intEnable = s.intEnable := rfl
@[simp] theorem State.setDraws_sel (s : State) (n : Nat) : (s.setDraws n).sel = s.sel := rfl
@[simp] theorem State.setDraws_host (s : State) (n : Nat) : (s.setDraws n).host = s.host := rfl
@[simp] theorem State.setDraws_sched (s : State) (n : Nat) : (s.setDraws n).sched = s.sched := rfl
@[simp] theorem State.setDraws_reads (s : State) (n : Nat) : (s.setDraws n).reads = s.reads := rfl
@[simp] theorem State.setDraws_draws (s : State) (n : Nat) : (s.setDraws n).draws = n := rfl
@[simp] theorem State.setDraws_delay (s : State) (n : Nat) : (s.setDraws n).delay = s.delay := rfl

@[simp] theorem State.setDelay_bufBytes (s : State) (left : Option Nat) : (s.setDelay left).bufBytes = s.bufBytes := rfl
@[simp] theorem State.setDelay_chans (s : State) (left : Option Nat) : (s.setDelay left).chans = s.chans := rfl
@[simp] theorem State.setDelay_intStatus (s : State) (left : Option Nat) : (s.setDelay left).intStatus = s.intStatus := rfl
@[simp] theorem State.setDelay_intEnable (s : State) (left : Option Nat) : (s.setDelay left).intEnable = s.intEnable := rfl
@[simp] theorem State.setDelay_sel (s : State) (left : Option Nat) : (s.setDelay left).sel = s.sel := rfl
@[simp] theorem State.setDelay_host (s : State) (left : Option Nat) : (s.setDelay left).host = s.host := rfl
@[simp] theorem State.setDelay_sched (s : State) (left : Option Nat) : (s.setDelay left).sched = s.sched := rfl
@[simp] theorem State.setDelay_reads (s : State) (left : Option Nat) : (s.setDelay left).reads = s.reads := rfl
@[simp] theorem State.setDelay_draws (s : State) (left : Option Nat) : (s.setDelay left).draws = s.draws := rfl
@[simp] theorem State.setDelay_delay (s : State) (left : Option Nat) : (s.setDelay left).delay = left := rfl

@[simp] theorem State.setSel_bufBytes (s : State) (c : Nat) : (s.setSel c).bufBytes = s.bufBytes := rfl
@[simp] theorem State.setSel_chans (s : State) (c : Nat) : (s.setSel c).chans = s.chans := rfl
@[simp] theorem State.setSel_intStatus (s : State) (c : Nat) : (s.setSel c).intStatus = s.intStatus := rfl
@[simp] theorem State.setSel_intEnable (s : State) (c : Nat) : (s.setSel c).intEnable = s.intEnable := rfl
@[simp] theorem State.setSel_sel (s : State) (c : Nat) : (s.setSel c).sel = c := rfl
@[simp] theorem State.setSel_host (s : State) (c : Nat) : (s.setSel c).host = s.host := rfl
@[simp] theorem State.setSel_sched (s : State) (c : Nat) : (s.setSel c).sched = s.sched := rfl
@[simp] theorem State.setSel_reads (s : State) (c : Nat) : (s.setSel c).reads = s.reads := rfl
@[simp] theorem State.setSel_draws (s : State) (c : Nat) : (s.setSel c).draws = s.draws := rfl
@[simp] theorem State.setSel_delay (s : State) (c : Nat) : (s.setSel c).delay = s.delay := rfl

@[simp] theorem State.setHost_bufBytes (s : State) (ops : List HostOp) : (s.setHost ops).bufBytes = s.bufBytes := rfl
@[simp] theorem State.setHost_chans (s : State) (ops : List HostOp) : (s.setHost ops).chans = s.chans := rfl
@[simp] theorem State.setHost_intStatus (s : State) (ops : List HostOp) : (s.setHost ops).intStatus = s.intStatus := rfl
@[simp] theorem State.setHost_intEnable (s : State) (ops : List HostOp) : (s.setHost ops).intEnable = s.intEnable := rfl
@[simp] theorem State.setHost_sel (s : State) (ops : List HostOp) : (s.setHost ops).sel = s.sel := rfl
@[simp] theorem State.setHost_host (s : State) (ops : List HostOp) : (s.setHost ops).host = ops := rfl
@[simp] theorem State.setHost_sched (s : State) (ops : List HostOp) : (s.setHost ops).sched = s.sched := rfl
@[simp] theorem State.setHost_reads (s : State) (ops : List HostOp) : (s.setHost ops).reads = s.reads := rfl
@[simp] theorem State.setHost_draws (s : State) (ops : List HostOp) : (s.setHost ops).draws = s.draws := rfl
@[simp] theorem State.setHost_delay (s : State) (ops : List HostOp) : (s.setHost ops).delay = s.delay := rfl

@[simp] theorem State.setSched_bufBytes (s : State) (moves : List Move) : (s.setSched moves).bufBytes = s.bufBytes := rfl
@[simp] theorem State.setSched_chans (s : State) (moves : List Move) : (s.setSched moves).chans = s.chans := rfl
@[simp] theorem State.setSched_intStatus (s : State) (moves : List Move) : (s.setSched moves).intStatus = s.intStatus := rfl
@[simp] theorem State.setSched_intEnable (s : State) (moves : List Move) : (s.setSched moves).intEnable = s.intEnable := rfl
@[simp] theorem State.setSched_sel (s : State) (moves : List Move) : (s.setSched moves).sel = s.sel := rfl
@[simp] theorem State.setSched_host (s : State) (moves : List Move) : (s.setSched moves).host = s.host := rfl
@[simp] theorem State.setSched_sched (s : State) (moves : List Move) : (s.setSched moves).sched = moves := rfl
@[simp] theorem State.setSched_reads (s : State) (moves : List Move) : (s.setSched moves).reads = s.reads := rfl
@[simp] theorem State.setSched_draws (s : State) (moves : List Move) : (s.setSched moves).draws = s.draws := rfl
@[simp] theorem State.setSched_delay (s : State) (moves : List Move) : (s.setSched moves).delay = s.delay := rfl

@[simp] theorem State.pushRead_bufBytes (s : State) (v : Word) : (s.pushRead v).bufBytes = s.bufBytes := rfl
@[simp] theorem State.pushRead_chans (s : State) (v : Word) : (s.pushRead v).chans = s.chans := rfl
@[simp] theorem State.pushRead_intStatus (s : State) (v : Word) : (s.pushRead v).intStatus = s.intStatus := rfl
@[simp] theorem State.pushRead_intEnable (s : State) (v : Word) : (s.pushRead v).intEnable = s.intEnable := rfl
@[simp] theorem State.pushRead_sel (s : State) (v : Word) : (s.pushRead v).sel = s.sel := rfl
@[simp] theorem State.pushRead_host (s : State) (v : Word) : (s.pushRead v).host = s.host := rfl
@[simp] theorem State.pushRead_sched (s : State) (v : Word) : (s.pushRead v).sched = s.sched := rfl
@[simp] theorem State.pushRead_reads (s : State) (v : Word) : (s.pushRead v).reads = v :: s.reads := rfl
@[simp] theorem State.pushRead_draws (s : State) (v : Word) : (s.pushRead v).draws = s.draws := rfl
@[simp] theorem State.pushRead_delay (s : State) (v : Word) : (s.pushRead v).delay = s.delay := rfl

@[simp] theorem State.resetBlock_bufBytes (s : State) : (s.resetBlock).bufBytes = s.bufBytes := rfl
@[simp] theorem State.resetBlock_chans (s : State) : (s.resetBlock).chans = List.replicate s.chans.length Channel.reset := rfl
@[simp] theorem State.resetBlock_intStatus (s : State) : (s.resetBlock).intStatus = 0 := rfl
@[simp] theorem State.resetBlock_intEnable (s : State) : (s.resetBlock).intEnable = 0 := rfl
@[simp] theorem State.resetBlock_sel (s : State) : (s.resetBlock).sel = s.sel := rfl
@[simp] theorem State.resetBlock_host (s : State) : (s.resetBlock).host = s.host := rfl
@[simp] theorem State.resetBlock_sched (s : State) : (s.resetBlock).sched = s.sched := rfl
@[simp] theorem State.resetBlock_reads (s : State) : (s.resetBlock).reads = s.reads := rfl
@[simp] theorem State.resetBlock_draws (s : State) : (s.resetBlock).draws = s.draws := rfl
@[simp] theorem State.resetBlock_delay (s : State) : (s.resetBlock).delay = s.delay := rfl

/-! A channel -/

@[simp] theorem Channel.accept_busy (ch : Channel) (v : Word) : (ch.accept v).busy = true := rfl
@[simp] theorem Channel.accept_job (ch : Channel) (v : Word) : (ch.accept v).job = v := rfl
@[simp] theorem Channel.accept_done (ch : Channel) (v : Word) : (ch.accept v).done = false := rfl
@[simp] theorem Channel.accept_err (ch : Channel) (v : Word) : (ch.accept v).err = .ok := rfl
@[simp] theorem Channel.accept_werr (ch : Channel) (v : Word) : (ch.accept v).werr = ch.werr := rfl
@[simp] theorem Channel.accept_keyLen (ch : Channel) (v : Word) : (ch.accept v).keyLen = ch.keyLen := rfl
@[simp] theorem Channel.accept_key (ch : Channel) (v : Word) : (ch.accept v).key = ch.key := rfl
@[simp] theorem Channel.accept_ivLen (ch : Channel) (v : Word) : (ch.accept v).ivLen = ch.ivLen := rfl
@[simp] theorem Channel.accept_iv (ch : Channel) (v : Word) : (ch.accept v).iv = ch.iv := rfl
@[simp] theorem Channel.accept_inLen (ch : Channel) (v : Word) : (ch.accept v).inLen = ch.inLen := rfl
@[simp] theorem Channel.accept_outLen (ch : Channel) (v : Word) : (ch.accept v).outLen = ch.outLen := rfl
@[simp] theorem Channel.accept_chain (ch : Channel) (v : Word) : (ch.accept v).chain = ch.chain := rfl
@[simp] theorem Channel.accept_din (ch : Channel) (v : Word) : (ch.accept v).din = ch.din := rfl
@[simp] theorem Channel.accept_dout (ch : Channel) (v : Word) : (ch.accept v).dout = ch.dout := rfl

@[simp] theorem Channel.dropWrite_busy (ch : Channel) : (ch.dropWrite).busy = ch.busy := rfl
@[simp] theorem Channel.dropWrite_job (ch : Channel) : (ch.dropWrite).job = ch.job := rfl
@[simp] theorem Channel.dropWrite_done (ch : Channel) : (ch.dropWrite).done = ch.done := rfl
@[simp] theorem Channel.dropWrite_err (ch : Channel) : (ch.dropWrite).err = ch.err := rfl
@[simp] theorem Channel.dropWrite_werr (ch : Channel) : (ch.dropWrite).werr = true := rfl
@[simp] theorem Channel.dropWrite_keyLen (ch : Channel) : (ch.dropWrite).keyLen = ch.keyLen := rfl
@[simp] theorem Channel.dropWrite_key (ch : Channel) : (ch.dropWrite).key = ch.key := rfl
@[simp] theorem Channel.dropWrite_ivLen (ch : Channel) : (ch.dropWrite).ivLen = ch.ivLen := rfl
@[simp] theorem Channel.dropWrite_iv (ch : Channel) : (ch.dropWrite).iv = ch.iv := rfl
@[simp] theorem Channel.dropWrite_inLen (ch : Channel) : (ch.dropWrite).inLen = ch.inLen := rfl
@[simp] theorem Channel.dropWrite_outLen (ch : Channel) : (ch.dropWrite).outLen = ch.outLen := rfl
@[simp] theorem Channel.dropWrite_chain (ch : Channel) : (ch.dropWrite).chain = ch.chain := rfl
@[simp] theorem Channel.dropWrite_din (ch : Channel) : (ch.dropWrite).din = ch.din := rfl
@[simp] theorem Channel.dropWrite_dout (ch : Channel) : (ch.dropWrite).dout = ch.dout := rfl

@[simp] theorem Channel.finish_busy (ch : Channel) (n : Nat) (y chain : List Byte) : (ch.finish n y chain).busy = ch.busy := rfl
@[simp] theorem Channel.finish_job (ch : Channel) (n : Nat) (y chain : List Byte) : (ch.finish n y chain).job = ch.job := rfl
@[simp] theorem Channel.finish_done (ch : Channel) (n : Nat) (y chain : List Byte) : (ch.finish n y chain).done = ch.done := rfl
@[simp] theorem Channel.finish_err (ch : Channel) (n : Nat) (y chain : List Byte) : (ch.finish n y chain).err = ch.err := rfl
@[simp] theorem Channel.finish_werr (ch : Channel) (n : Nat) (y chain : List Byte) : (ch.finish n y chain).werr = ch.werr := rfl
@[simp] theorem Channel.finish_keyLen (ch : Channel) (n : Nat) (y chain : List Byte) : (ch.finish n y chain).keyLen = ch.keyLen := rfl
@[simp] theorem Channel.finish_key (ch : Channel) (n : Nat) (y chain : List Byte) : (ch.finish n y chain).key = ch.key := rfl
@[simp] theorem Channel.finish_ivLen (ch : Channel) (n : Nat) (y chain : List Byte) : (ch.finish n y chain).ivLen = ch.ivLen := rfl
@[simp] theorem Channel.finish_iv (ch : Channel) (n : Nat) (y chain : List Byte) : (ch.finish n y chain).iv = ch.iv := rfl
@[simp] theorem Channel.finish_inLen (ch : Channel) (n : Nat) (y chain : List Byte) : (ch.finish n y chain).inLen = ch.inLen := rfl
@[simp] theorem Channel.finish_outLen (ch : Channel) (n : Nat) (y chain : List Byte) : (ch.finish n y chain).outLen = BitVec.ofNat 32 y.length := rfl
@[simp] theorem Channel.finish_chain (ch : Channel) (n : Nat) (y chain : List Byte) : (ch.finish n y chain).chain = blockRegs chain := rfl
@[simp] theorem Channel.finish_din (ch : Channel) (n : Nat) (y chain : List Byte) : (ch.finish n y chain).din = ch.din := rfl
@[simp] theorem Channel.finish_dout (ch : Channel) (n : Nat) (y chain : List Byte) : (ch.finish n y chain).dout = Memory.ofBytes 0 (y ++ List.replicate (n + 16 - y.length) 0) := rfl

@[simp] theorem Channel.fail_busy (ch : Channel) (n : Nat) : (ch.fail n).busy = ch.busy := rfl
@[simp] theorem Channel.fail_job (ch : Channel) (n : Nat) : (ch.fail n).job = ch.job := rfl
@[simp] theorem Channel.fail_done (ch : Channel) (n : Nat) : (ch.fail n).done = ch.done := rfl
@[simp] theorem Channel.fail_err (ch : Channel) (n : Nat) : (ch.fail n).err = ch.err := rfl
@[simp] theorem Channel.fail_werr (ch : Channel) (n : Nat) : (ch.fail n).werr = ch.werr := rfl
@[simp] theorem Channel.fail_keyLen (ch : Channel) (n : Nat) : (ch.fail n).keyLen = ch.keyLen := rfl
@[simp] theorem Channel.fail_key (ch : Channel) (n : Nat) : (ch.fail n).key = ch.key := rfl
@[simp] theorem Channel.fail_ivLen (ch : Channel) (n : Nat) : (ch.fail n).ivLen = ch.ivLen := rfl
@[simp] theorem Channel.fail_iv (ch : Channel) (n : Nat) : (ch.fail n).iv = ch.iv := rfl
@[simp] theorem Channel.fail_inLen (ch : Channel) (n : Nat) : (ch.fail n).inLen = ch.inLen := rfl
@[simp] theorem Channel.fail_outLen (ch : Channel) (n : Nat) : (ch.fail n).outLen = 0 := rfl
@[simp] theorem Channel.fail_chain (ch : Channel) (n : Nat) : (ch.fail n).chain = ch.chain := rfl
@[simp] theorem Channel.fail_din (ch : Channel) (n : Nat) : (ch.fail n).din = ch.din := rfl
@[simp] theorem Channel.fail_dout (ch : Channel) (n : Nat) : (ch.fail n).dout = Memory.zeros (n + 16) := rfl

@[simp] theorem Channel.cleared_busy (ch : Channel) (n : Nat) : (ch.cleared n).busy = ch.busy := rfl
@[simp] theorem Channel.cleared_job (ch : Channel) (n : Nat) : (ch.cleared n).job = ch.job := rfl
@[simp] theorem Channel.cleared_done (ch : Channel) (n : Nat) : (ch.cleared n).done = ch.done := rfl
@[simp] theorem Channel.cleared_err (ch : Channel) (n : Nat) : (ch.cleared n).err = ch.err := rfl
@[simp] theorem Channel.cleared_werr (ch : Channel) (n : Nat) : (ch.cleared n).werr = ch.werr := rfl
@[simp] theorem Channel.cleared_keyLen (ch : Channel) (n : Nat) : (ch.cleared n).keyLen = 0 := rfl
@[simp] theorem Channel.cleared_key (ch : Channel) (n : Nat) : (ch.cleared n).key = Vector.replicate 8 0 := rfl
@[simp] theorem Channel.cleared_ivLen (ch : Channel) (n : Nat) : (ch.cleared n).ivLen = 0 := rfl
@[simp] theorem Channel.cleared_iv (ch : Channel) (n : Nat) : (ch.cleared n).iv = Vector.replicate 4 0 := rfl
@[simp] theorem Channel.cleared_inLen (ch : Channel) (n : Nat) : (ch.cleared n).inLen = 0 := rfl
@[simp] theorem Channel.cleared_outLen (ch : Channel) (n : Nat) : (ch.cleared n).outLen = 0 := rfl
@[simp] theorem Channel.cleared_chain (ch : Channel) (n : Nat) : (ch.cleared n).chain = Vector.replicate 4 0 := rfl
@[simp] theorem Channel.cleared_din (ch : Channel) (n : Nat) : (ch.cleared n).din = Memory.zeros n := rfl
@[simp] theorem Channel.cleared_dout (ch : Channel) (n : Nat) : (ch.cleared n).dout = Memory.zeros (n + 16) := rfl

@[simp] theorem Channel.retire_busy (ch : Channel) (code : ErrCode) : (ch.retire code).busy = false := rfl
@[simp] theorem Channel.retire_job (ch : Channel) (code : ErrCode) : (ch.retire code).job = ch.job := rfl
@[simp] theorem Channel.retire_done (ch : Channel) (code : ErrCode) : (ch.retire code).done = true := rfl
@[simp] theorem Channel.retire_err (ch : Channel) (code : ErrCode) : (ch.retire code).err = code := rfl
@[simp] theorem Channel.retire_werr (ch : Channel) (code : ErrCode) : (ch.retire code).werr = ch.werr := rfl
@[simp] theorem Channel.retire_keyLen (ch : Channel) (code : ErrCode) : (ch.retire code).keyLen = ch.keyLen := rfl
@[simp] theorem Channel.retire_key (ch : Channel) (code : ErrCode) : (ch.retire code).key = ch.key := rfl
@[simp] theorem Channel.retire_ivLen (ch : Channel) (code : ErrCode) : (ch.retire code).ivLen = ch.ivLen := rfl
@[simp] theorem Channel.retire_iv (ch : Channel) (code : ErrCode) : (ch.retire code).iv = ch.iv := rfl
@[simp] theorem Channel.retire_inLen (ch : Channel) (code : ErrCode) : (ch.retire code).inLen = ch.inLen := rfl
@[simp] theorem Channel.retire_outLen (ch : Channel) (code : ErrCode) : (ch.retire code).outLen = ch.outLen := rfl
@[simp] theorem Channel.retire_chain (ch : Channel) (code : ErrCode) : (ch.retire code).chain = ch.chain := rfl
@[simp] theorem Channel.retire_din (ch : Channel) (code : ErrCode) : (ch.retire code).din = ch.din := rfl
@[simp] theorem Channel.retire_dout (ch : Channel) (code : ErrCode) : (ch.retire code).dout = ch.dout := rfl

/-! Reading a channel after an update -/

@[simp] theorem State.numCh_setChan (s : State) (c : Nat) (ch : Channel) : (s.setChan c ch).numCh = s.numCh := by
  simp [State.numCh]

@[simp] theorem State.numCh_resetBlock (s : State) : s.resetBlock.numCh = s.numCh := by
  simp [State.numCh]

@[simp] theorem State.numCh_pend (s : State) (c : Nat) : (s.pend c).numCh = s.numCh := rfl
@[simp] theorem State.chan?_pend (s : State) (c : Nat) (d : Nat) : (s.pend c).chan? d = s.chan? d := rfl
@[simp] theorem State.numCh_setIntStatus (s : State) (v : Word) : (s.setIntStatus v).numCh = s.numCh := rfl
@[simp] theorem State.chan?_setIntStatus (s : State) (v : Word) (d : Nat) : (s.setIntStatus v).chan? d = s.chan? d := rfl
@[simp] theorem State.numCh_setIntEnable (s : State) (v : Word) : (s.setIntEnable v).numCh = s.numCh := rfl
@[simp] theorem State.chan?_setIntEnable (s : State) (v : Word) (d : Nat) : (s.setIntEnable v).chan? d = s.chan? d := rfl
@[simp] theorem State.numCh_setDraws (s : State) (n : Nat) : (s.setDraws n).numCh = s.numCh := rfl
@[simp] theorem State.chan?_setDraws (s : State) (n : Nat) (d : Nat) : (s.setDraws n).chan? d = s.chan? d := rfl
@[simp] theorem State.numCh_setDelay (s : State) (left : Option Nat) : (s.setDelay left).numCh = s.numCh := rfl
@[simp] theorem State.chan?_setDelay (s : State) (left : Option Nat) (d : Nat) : (s.setDelay left).chan? d = s.chan? d := rfl
@[simp] theorem State.numCh_setSel (s : State) (c : Nat) : (s.setSel c).numCh = s.numCh := rfl
@[simp] theorem State.chan?_setSel (s : State) (c : Nat) (d : Nat) : (s.setSel c).chan? d = s.chan? d := rfl
@[simp] theorem State.numCh_setHost (s : State) (ops : List HostOp) : (s.setHost ops).numCh = s.numCh := rfl
@[simp] theorem State.chan?_setHost (s : State) (ops : List HostOp) (d : Nat) : (s.setHost ops).chan? d = s.chan? d := rfl
@[simp] theorem State.numCh_setSched (s : State) (moves : List Move) : (s.setSched moves).numCh = s.numCh := rfl
@[simp] theorem State.chan?_setSched (s : State) (moves : List Move) (d : Nat) : (s.setSched moves).chan? d = s.chan? d := rfl
@[simp] theorem State.numCh_pushRead (s : State) (v : Word) : (s.pushRead v).numCh = s.numCh := rfl
@[simp] theorem State.chan?_pushRead (s : State) (v : Word) (d : Nat) : (s.pushRead v).chan? d = s.chan? d := rfl

theorem State.chan?_lt {s : State} {c : Nat} {ch : Channel} (h : s.chan? c = some ch) : c < s.numCh :=
  (List.getElem?_eq_some_iff.mp h).1

theorem State.chan?_mem {s : State} {c : Nat} {ch : Channel} (h : s.chan? c = some ch) : ch ∈ s.chans :=
  List.mem_of_getElem? h

theorem State.chan?_setChan_self {s : State} {c : Nat} {old : Channel} (h : s.chan? c = some old) (ch : Channel) :
    (s.setChan c ch).chan? c = some ch := by
  have := State.chan?_lt h
  simp only [State.numCh] at this
  simp [State.chan?, this]

theorem State.chan?_setChan_ne (s : State) {c d : Nat} (hne : d ≠ c) (ch : Channel) :
    (s.setChan c ch).chan? d = s.chan? d := by
  simp [State.chan?, List.getElem?_set_ne (Ne.symm hne)]

/-- Putting back the channel that is there changes nothing. -/
theorem State.setChan_same {s : State} {c : Nat} {ch : Channel} (h : s.chan? c = some ch) : s.setChan c ch = s := by
  have hset : s.chans.set c ch = s.chans := by
    apply List.ext_getElem?
    intro d
    by_cases hd : d = c
    · subst hd
      have hlt := State.chan?_lt h
      simp only [State.numCh] at hlt
      rw [List.getElem?_set_self hlt]
      exact h.symm
    · simp [List.getElem?_set_ne (Ne.symm hd)]
  cases s
  simp_all [State.setChan]

/-- After a reset every channel there is stands at its reset values. -/
theorem State.chan?_resetBlock (s : State) (c : Nat) :
    s.resetBlock.chan? c = if c < s.numCh then some Channel.reset else none := by
  unfold State.chan? State.numCh
  by_cases h : c < s.chans.length <;> simp [h]

end Sys2Proof.Machine
end

