-- ==== Sys2Proof/Laws/Ops.lean ====
section
/-! SUPPORT. What each shared operation can do, said once: the completion step, writes to a channel's registers, the bodies. -/

namespace Sys2Proof.Machine

/-! The completion step (R119) -/

/-- The state a completion of the selected channel leaves, from what its body gave. -/
def State.afterBody (s : State) (ch : Channel) (ran : Except ErrCode Channel × Nat) : State :=
  ((s.setChan s.sel (ch.settle s.bufBytes ran.1)).pend s.sel).setDraws ran.2

/-- A completion of a BUSY channel always answers a next state. -/
theorem complete_of_busy {s : State} {ch : Channel} (body : Body) (hch : s.chan? s.sel = some ch)
    (hbusy : ch.busy = true) : complete body s = .next (s.afterBody ch (body s.bufBytes ch s.draws)) := by
  simp [complete, hch, hbusy, State.afterBody]

/-- Everything the completion operation can do when it answers a next state. -/
theorem complete_next {body : Body} {s t : State} (h : complete body s = .next t) :
    ∃ ch, s.chan? s.sel = some ch ∧ ch.busy = true ∧ t = s.afterBody ch (body s.bufBytes ch s.draws) := by
  unfold complete at h
  split at h
  · cases h
  · next ch hch =>
    split at h
    · next hb => cases h; exact ⟨ch, hch, hb, rfl⟩
    · cases h

/-- The completion operation never refuses. -/
theorem complete_not_refused (body : Body) (s : State) (r : Refusal) : complete body s ≠ .refused r := by
  unfold complete
  split
  · simp
  · split <;> simp

@[simp] theorem State.afterBody_bufBytes (s : State) (ch : Channel) (ran : Except ErrCode Channel × Nat) :
    (s.afterBody ch ran).bufBytes = s.bufBytes := rfl
@[simp] theorem State.afterBody_intEnable (s : State) (ch : Channel) (ran : Except ErrCode Channel × Nat) :
    (s.afterBody ch ran).intEnable = s.intEnable := rfl
@[simp] theorem State.afterBody_intStatus (s : State) (ch : Channel) (ran : Except ErrCode Channel × Nat) :
    (s.afterBody ch ran).intStatus = s.intStatus ||| channelBit s.sel := rfl
@[simp] theorem State.afterBody_sel (s : State) (ch : Channel) (ran : Except ErrCode Channel × Nat) :
    (s.afterBody ch ran).sel = s.sel := rfl
@[simp] theorem State.afterBody_host (s : State) (ch : Channel) (ran : Except ErrCode Channel × Nat) :
    (s.afterBody ch ran).host = s.host := rfl
@[simp] theorem State.afterBody_sched (s : State) (ch : Channel) (ran : Except ErrCode Channel × Nat) :
    (s.afterBody ch ran).sched = s.sched := rfl
@[simp] theorem State.afterBody_reads (s : State) (ch : Channel) (ran : Except ErrCode Channel × Nat) :
    (s.afterBody ch ran).reads = s.reads := rfl
@[simp] theorem State.afterBody_draws (s : State) (ch : Channel) (ran : Except ErrCode Channel × Nat) :
    (s.afterBody ch ran).draws = ran.2 := rfl
@[simp] theorem State.afterBody_delay (s : State) (ch : Channel) (ran : Except ErrCode Channel × Nat) :
    (s.afterBody ch ran).delay = s.delay := rfl
@[simp] theorem State.afterBody_numCh (s : State) (ch : Channel) (ran : Except ErrCode Channel × Nat) :
    (s.afterBody ch ran).numCh = s.numCh := by
  simp [State.afterBody]

theorem State.afterBody_chan?_self {s : State} {ch : Channel} (hch : s.chan? s.sel = some ch)
    (ran : Except ErrCode Channel × Nat) :
    (s.afterBody ch ran).chan? s.sel = some (ch.settle s.bufBytes ran.1) := by
  simpa [State.afterBody] using State.chan?_setChan_self hch _

theorem State.afterBody_chan?_ne (s : State) (ch : Channel) (ran : Except ErrCode Channel × Nat) {d : Nat}
    (hd : d ≠ s.sel) : (s.afterBody ch ran).chan? d = s.chan? d := by
  simpa [State.afterBody] using State.chan?_setChan_ne s hd _

/-- After a body has ended or raised a code, the channel is IDLE and `DONE`. -/
@[simp] theorem Channel.settle_busy (ch : Channel) (n : Nat) (r : Except ErrCode Channel) :
    (ch.settle n r).busy = false := by cases r <;> rfl
@[simp] theorem Channel.settle_done (ch : Channel) (n : Nat) (r : Except ErrCode Channel) :
    (ch.settle n r).done = true := by cases r <;> rfl
@[simp] theorem Channel.settle_ok (ch ran : Channel) (n : Nat) : ch.settle n (.ok ran) = ran.retire .ok := rfl
@[simp] theorem Channel.settle_error (ch : Channel) (n : Nat) (code : ErrCode) :
    ch.settle n (.error code) = (ch.fail n).retire code := rfl

/-- A completion changes nothing outside its channel but that channel's bit of `INT_STATUS`. -/
theorem State.afterBody_onlyChannel (s : State) (ch : Channel) (ran : Except ErrCode Channel × Nat) :
    OnlyChannel s.sel s (s.afterBody ch ran) where
  bufBytes := rfl
  numCh := by simp
  others := fun _ hd => s.afterBody_chan?_ne ch ran hd
  intStatus := .inr rfl
  intEnable := rfl
  sel := rfl
  host := rfl
  sched := rfl
  reads := rfl
  delay := rfl

/-! Writes to a channel's registers (R49, R52) -/

theorem State.protectedWrite_of_none {s : State} {c : Nat} (h : s.chan? c = none) (f : Channel → Channel) :
    s.protectedWrite c f = s := by simp [State.protectedWrite, h]

theorem State.protectedWrite_of_busy {s : State} {c : Nat} {ch : Channel} (h : s.chan? c = some ch)
    (hb : ch.busy = true) (f : Channel → Channel) : s.protectedWrite c f = s.setChan c ch.dropWrite := by
  simp [State.protectedWrite, h, hb]

theorem State.protectedWrite_of_idle {s : State} {c : Nat} {ch : Channel} (h : s.chan? c = some ch)
    (hb : ch.busy = false) (f : Channel → Channel) : s.protectedWrite c f = s.setChan c (f ch) := by
  simp [State.protectedWrite, h, hb]

/-- A write to one channel's register changes at most that channel: either nothing, or the channel is replaced by what the write
makes of it. -/
theorem State.protectedWrite_cases (s : State) (c : Nat) (f : Channel → Channel) :
    s.protectedWrite c f = s ∨
      ∃ ch, s.chan? c = some ch ∧
        ((ch.busy = true ∧ s.protectedWrite c f = s.setChan c ch.dropWrite) ∨
          (ch.busy = false ∧ s.protectedWrite c f = s.setChan c (f ch))) := by
  cases h : s.chan? c with
  | none => exact .inl (State.protectedWrite_of_none h f)
  | some ch =>
    cases hb : ch.busy with
    | true => exact .inr ⟨ch, rfl, .inl ⟨hb, State.protectedWrite_of_busy h hb f⟩⟩
    | false => exact .inr ⟨ch, rfl, .inr ⟨hb, State.protectedWrite_of_idle h hb f⟩⟩

theorem State.statusWrite_cases (s : State) (c : Nat) (v : Word) :
    s.statusWrite c v = s ∨
      ∃ ch, s.chan? c = some ch ∧
        s.statusWrite c v = s.setChan c { ch with werr := ch.werr && !v.getLsbD 8 } := by
  cases h : s.chan? c with
  | none => exact .inl (by simp [State.statusWrite, h])
  | some ch => exact .inr ⟨ch, rfl, by simp [State.statusWrite, h]⟩

/-! The checks (R90) and the bodies -/

theorem Channel.keyMaterialOk_iff (ch : Channel) : ch.keyMaterialOk = true ↔ KeyMaterialLegal ch := by
  unfold Channel.keyMaterialOk
  simp only [Bool.and_eq_true, Bool.or_eq_true, beq_iff_eq]
  exact ⟨fun h => ⟨by rcases h.1 with (h | h) | h <;> simp [h], h.2⟩,
    fun h => ⟨by rcases h.keyLen with h | h | h <;> simp [h], h.ivLen⟩⟩

theorem notWholeBlocks_iff (len : Nat) : notWholeBlocks len = true ↔ len = 0 ∨ len % 16 ≠ 0 := by
  simp [notWholeBlocks]

/-- Everything the checks can answer. -/
theorem validate_cases (op : DataOp) (n : Nat) (ch : Channel) :
    (validate op n ch = .ok () ∧ ch.keyMaterialOk = true ∧ ch.inLen.toNat ≤ n ∧
        (op = .enc ∨ notWholeBlocks ch.inLen.toNat = false)) ∨
      (validate op n ch = .error .invalidKeyMaterial ∧ ch.keyMaterialOk = false) ∨
      (validate op n ch = .error .invalidDataLength ∧ ch.keyMaterialOk = true ∧
        (n < ch.inLen.toNat ∨ (op = .encRaw ∧ notWholeBlocks ch.inLen.toNat = true))) ∨
      (validate op n ch = .error .invalidCiphertextLength ∧ ch.keyMaterialOk = true ∧ ch.inLen.toNat ≤ n ∧
        (op = .dec ∨ op = .decRaw) ∧ notWholeBlocks ch.inLen.toNat = true) := by
  unfold validate
  cases hk : ch.keyMaterialOk
  · simp
  · by_cases hn : n < ch.inLen.toNat
    · simp [hn]
    · cases hw : notWholeBlocks ch.inLen.toNat <;> cases op <;> simp [hn] <;> omega

/-- Everything the frame of the data commands can answer. -/
theorem dataBody_cases (op : DataOp) (cipher : Cipher) (n : Nat) (ch : Channel) (draws : Nat) :
    (∃ code, validate op n ch = .error code ∧ dataBody op cipher n ch draws = (.error code, draws)) ∨
      (validate op n ch = .ok () ∧
        ((∃ code, cipher ch.keyBytes ch.ivBytes (ch.input draws).1 = .error code ∧
            dataBody op cipher n ch draws = (.error code, (ch.input draws).2)) ∨
          (∃ y chain, cipher ch.keyBytes ch.ivBytes (ch.input draws).1 = .ok (y, chain) ∧
            dataBody op cipher n ch draws = (.ok (ch.finish n y chain), (ch.input draws).2)))) := by
  unfold dataBody
  cases hv : validate op n ch with
  | error code => exact .inl ⟨code, rfl, rfl⟩
  | ok u =>
    refine .inr ⟨rfl, ?_⟩
    cases hc : cipher ch.keyBytes ch.ivBytes (ch.input draws).1 with
    | error code => exact .inl ⟨code, rfl, rfl⟩
    | ok out => exact .inr ⟨out.1, out.2, rfl, rfl⟩

/-- What a body can leave (R95, R101, R120): a raised code, or the success epilogue with an output that fits `DOUT`, or the cleared
channel. -/
inductive BodyEnds (n : Nat) (ch : Channel) : Except ErrCode Channel → Prop where
  | failed (code : ErrCode) (h : code ≠ .ok) : BodyEnds n ch (.error code)
  | finished (y chain : List Byte) (h : y.length ≤ n + 16) : BodyEnds n ch (.ok (ch.finish n y chain))
  | cleared : BodyEnds n ch (.ok (ch.cleared n))

theorem validate_error_ne_ok {op : DataOp} {n : Nat} {ch : Channel} {code : ErrCode}
    (h : validate op n ch = .error code) : code ≠ .ok := by
  rcases validate_cases op n ch with ⟨h', _⟩ | ⟨h', _⟩ | ⟨h', _⟩ | ⟨h', _⟩ <;> rw [h'] at h <;> cases h <;> simp

theorem validate_ok_le {op : DataOp} {n : Nat} {ch : Channel} (h : validate op n ch = .ok ()) :
    ch.inLen.toNat ≤ n := by
  rcases validate_cases op n ch with ⟨_, _, hle, _⟩ | ⟨h', _⟩ | ⟨h', _⟩ | ⟨h', _⟩
  · exact hle
  all_goals rw [h'] at h; cases h

/-- Each data command's body leaves one of the three, whatever the parameters, when `BUF_BYTES` is a multiple of 16. -/
theorem dataBody_ends {op : DataOp} {cipher : Cipher} {n : Nat} (ch : Channel) (draws : Nat)
    (hlen : ∀ key iv x y chain, x.length ≤ n → cipher key iv x = .ok (y, chain) → y.length ≤ n + 16)
    (herr : ∀ key iv x code, cipher key iv x = .error code → code ≠ .ok) :
    BodyEnds n ch (dataBody op cipher n ch draws).1 := by
  rcases dataBody_cases op cipher n ch draws with ⟨code, hv, h⟩ | ⟨hv, ⟨code, hc, h⟩ | ⟨y, chain, hc, h⟩⟩
  · rw [h]; exact .failed code (validate_error_ne_ok hv)
  · rw [h]; exact .failed code (herr _ _ _ _ hc)
  · rw [h]
    exact .finished y chain (hlen _ _ _ _ _ (by simpa using validate_ok_le hv) hc)

theorem encBody_ends (n : Nat) (ch : Channel) (draws : Nat) : BodyEnds n ch (dataBody .enc encCipher n ch draws).1 := by
  refine dataBody_ends ch draws (fun key iv x y chain hx h => ?_) (fun key iv x code h => ?_)
  · simp only [encCipher, Except.ok.injEq, Prod.mk.injEq] at h
    rw [← h.1, length_cbcEnc, length_pad]
    omega
  · simp [encCipher] at h

theorem decBody_ends (n : Nat) (ch : Channel) (draws : Nat) : BodyEnds n ch (dataBody .dec decCipher n ch draws).1 := by
  refine dataBody_ends ch draws (fun key iv x y chain hx h => ?_) (fun key iv x code h => ?_)
  · unfold decCipher at h
    split at h
    · simp only [Except.ok.injEq, Prod.mk.injEq] at h
      rw [← h.1]
      have := length_unpad_le (cbcDec key iv x)
      rw [length_cbcDec] at this
      omega
    · cases h
  · unfold decCipher at h
    split at h
    · cases h
    · cases h; simp

theorem encRawBody_ends (n : Nat) (ch : Channel) (draws : Nat) :
    BodyEnds n ch (dataBody .encRaw encRawCipher n ch draws).1 := by
  refine dataBody_ends ch draws (fun key iv x y chain hx h => ?_) (fun key iv x code h => ?_)
  · simp only [encRawCipher, Except.ok.injEq, Prod.mk.injEq] at h
    rw [← h.1, length_cbcEnc]
    omega
  · simp [encRawCipher] at h

theorem decRawBody_ends (n : Nat) (ch : Channel) (draws : Nat) :
    BodyEnds n ch (dataBody .decRaw decRawCipher n ch draws).1 := by
  refine dataBody_ends ch draws (fun key iv x y chain hx h => ?_) (fun key iv x code h => ?_)
  · simp only [decRawCipher, Except.ok.injEq, Prod.mk.injEq] at h
    rw [← h.1, length_cbcDec]
    omega
  · simp [decRawCipher] at h

theorem clearBody_ends (n : Nat) (ch : Channel) (draws : Nat) : BodyEnds n ch (clearBody n ch draws).1 := .cleared

theorem illegalBody_ends (n : Nat) (ch : Channel) (draws : Nat) : BodyEnds n ch (illegalBody n ch draws).1 :=
  .failed .illegalCommand (by simp)

end Sys2Proof.Machine
end

