-- ==== Sys2Proof/Laws/Bus.lean ====
section
/-! SUPPORT. The address map, one lemma per way an address is given, and everything one host write can do. -/

namespace Sys2Proof.Machine

/-! The address map (R41, R42, R46) -/

/-- An address in channel `c`'s bank, by the offset of its word (R41, R46). -/
theorem locate_channel {numCh : Nat} (bufBytes : Nat) {c off : Nat} {a : Addr} (hc : c < numCh) (hoff : off < 0x10000)
    (ha : a.toNat / 4 * 4 = 0x10000 * (c + 1) + off) : locate numCh bufBytes a = channelLoc bufBytes c off := by
  have h1 : (0x10000 * (c + 1) + off) / 0x10000 = c + 1 := by omega
  have h2 : (0x10000 * (c + 1) + off) % 0x10000 = off := by omega
  simp only [locate, ha, h1, h2]
  simp [hc]

/-- The notation's address of an offset of channel `c`'s bank (R66). -/
theorem chAddr_toNat {c off : Nat} (hc : c < 15) (hoff : off < 0x10000) :
    (chAddr c off).toNat = 0x10000 * (c + 1) + off := by
  simp only [chAddr, chBase, BitVec.toNat_ofNat]
  omega

/-- An address in the global bank. -/
theorem locate_global (numCh bufBytes : Nat) {a : Addr} (ha : a.toNat < 0x10000) :
    locate numCh bufBytes a = globalLoc (a.toNat / 4 * 4) := by
  have h1 : (a.toNat / 4 * 4) / 0x10000 = 0 := by omega
  simp [locate, h1]

/-- An address in an absent bank (R41, R43). -/
theorem locate_absent {numCh : Nat} (bufBytes : Nat) {a : Addr} (ha : 0x10000 * (numCh + 1) ≤ a.toNat) :
    locate numCh bufBytes a = .reserved := by
  have h1 : ¬ (a.toNat / 4 * 4) / 0x10000 = 0 := by omega
  have h2 : ¬ (a.toNat / 4 * 4) / 0x10000 - 1 < numCh := by omega
  simp [locate, h1, h2]

/-- An offset that selects a word of the `DIN` window lies in it (R42). -/
theorem channelLoc_din {n c off c' j : Nat} (h : channelLoc n c off = .din c' j) :
    c' = c ∧ j = off - 0x4000 ∧ 0x4000 ≤ off ∧ off < 0x4000 + n := by
  simp only [channelLoc, ite_eq_iff, reduceCtorEq, and_false, false_or, or_false, Loc.din.injEq] at h
  obtain ⟨-, -, -, -, -, -, -, -, -, hwin, hc, hj⟩ := h
  exact ⟨hc.symm, hj.symm, hwin⟩

theorem globalLoc_ne_din (off c j : Nat) : globalLoc off ≠ .din c j := by
  intro h
  simp only [globalLoc, ite_eq_iff, reduceCtorEq, and_false, or_false] at h

/-- A location in the `DIN` window is a whole word inside it (R42). -/
theorem locate_din {numCh bufBytes c j : Nat} {a : Addr} (h : locate numCh bufBytes a = .din c j)
    (h16 : bufBytes % 16 = 0) : c < numCh ∧ j % 4 = 0 ∧ j + 4 ≤ bufBytes := by
  simp only [locate, ite_eq_iff, reduceCtorEq, and_false, or_false, globalLoc_ne_din, false_or] at h
  obtain ⟨-, hc, hloc⟩ := h
  obtain ⟨hc', hj, hlo, hhi⟩ := channelLoc_din hloc
  refine ⟨by omega, by omega, by omega⟩

theorem paramsOk_iff (numCh bufBytes : Nat) :
    Config.paramsOk numCh bufBytes = true ↔
      1 ≤ numCh ∧ numCh ≤ 15 ∧ 16 ≤ bufBytes ∧ bufBytes ≤ 16384 ∧ bufBytes % 16 = 0 := by
  simp [Config.paramsOk, Config.numChOk, Config.bufBytesOk, and_assoc]

/-! Everything one host write can do -/

/-- The ways a host write changes a channel (R49, R52, R53): dropped while BUSY; accepted while IDLE; `WERR` kept or cleared; an operand
register or word of `DIN` stored while IDLE. -/
inductive ChannelWritten (n : Nat) (ch : Channel) : Channel → Prop where
  | dropped (hbusy : ch.busy = true) : ChannelWritten n ch ch.dropWrite
  | accepted (hidle : ch.busy = false) (v : Word) (hv : v ≠ 0) : ChannelWritten n ch (ch.accept v)
  | acknowledged (v : Word) : ChannelWritten n ch { ch with werr := ch.werr && !v.getLsbD 8 }
  | keyLen (hidle : ch.busy = false) (v : Word) : ChannelWritten n ch { ch with keyLen := v }
  | ivLen (hidle : ch.busy = false) (v : Word) : ChannelWritten n ch { ch with ivLen := v }
  | inLen (hidle : ch.busy = false) (v : Word) : ChannelWritten n ch { ch with inLen := v }
  | key (hidle : ch.busy = false) (k : Fin 8) (v : Word) : ChannelWritten n ch { ch with key := ch.key.set k v }
  | iv (hidle : ch.busy = false) (k : Fin 4) (v : Word) : ChannelWritten n ch { ch with iv := ch.iv.set k v }
  | din (hidle : ch.busy = false) (j : Nat) (v : Word) (hj : j + 4 ≤ n) :
      ChannelWritten n ch { ch with din := ch.din.setWord j v }

/-- The ways a host write changes the machine (R49): not at all, one of the two interrupt registers, or one channel. -/
inductive Written (s : State) : State → Prop where
  | nothing : Written s s
  | intStatus (v : Word) : Written s (s.setIntStatus (s.intStatus &&& ~~~v &&& channelMask s.numCh))
  | intEnable (v : Word) : Written s (s.setIntEnable (v &&& channelMask s.numCh))
  | channel (c : Nat) (ch ch' : Channel) (hch : s.chan? c = some ch) (hw : ChannelWritten s.bufBytes ch ch') :
      Written s (s.setChan c ch')

theorem State.protectedWrite_written (s : State) (c : Nat) (f : Channel → Channel)
    (hf : ∀ ch, s.chan? c = some ch → ch.busy = false → f ch = ch ∨ ChannelWritten s.bufBytes ch (f ch)) :
    Written s (s.protectedWrite c f) := by
  rcases s.protectedWrite_cases c f with h | ⟨ch, hch, ⟨hb, h⟩ | ⟨hb, h⟩⟩
  · rw [h]; exact .nothing
  · rw [h]; exact .channel c ch _ hch (.dropped hb)
  · rcases hf ch hch hb with hsame | hw
    · rw [h, hsame, State.setChan_same hch]; exact .nothing
    · rw [h]; exact .channel c ch _ hch hw

theorem State.cmdWrite_written (s : State) (c : Nat) (v : Word) : Written s (s.cmdWrite c v) := by
  refine s.protectedWrite_written c _ fun ch _ hb => ?_
  by_cases hv : v = 0
  · exact .inl (if_pos hv)
  · rw [if_neg hv]
    exact .inr (.accepted hb v hv)

/-- Everything MemWrite can do. -/
theorem State.memWrite_written (s : State) (h16 : s.bufBytes % 16 = 0) (a : Addr) (v : Word) :
    Written s (s.memWrite a v) := by
  have key : ∀ l, s.locate a = l → Written s (s.writeLoc v l) := by
    intro l hl
    cases l with
    | intStatus => exact .intStatus v
    | intEnable => exact .intEnable v
    | cmd c => exact s.cmdWrite_written c v
    | status c =>
      rcases s.statusWrite_cases c v with h | ⟨ch, hch, h⟩
      · simp only [State.writeLoc, h]; exact .nothing
      · simp only [State.writeLoc, h]; exact .channel c ch _ hch (.acknowledged v)
    | keyLen c => exact s.protectedWrite_written c _ fun ch _ hb => .inr (.keyLen hb v)
    | ivLen c => exact s.protectedWrite_written c _ fun ch _ hb => .inr (.ivLen hb v)
    | inLen c => exact s.protectedWrite_written c _ fun ch _ hb => .inr (.inLen hb v)
    | key c k => exact s.protectedWrite_written c _ fun ch _ hb => .inr (.key hb k v)
    | iv c k => exact s.protectedWrite_written c _ fun ch _ hb => .inr (.iv hb k v)
    | din c j =>
      exact s.protectedWrite_written c _ fun ch _ hb => .inr (.din hb j v (locate_din hl h16).2.2)
    | _ => exact .nothing
  exact key _ rfl

end Sys2Proof.Machine
end

