-- ==== Sys2Proof/Laws/Access.lean ====
section
/-! SUPPORT. Reads and writes of one register or word: where an address leads, what a word of a buffer gives, and the bits of the status
words. -/

namespace Sys2Proof.Machine

/-- An address in the bank of a channel that exists, by the offset of its word (R41, R46). -/
theorem State.locate_channel {s : State} {c off : Nat} {ch : Channel} {a : Addr} (hch : s.chan? c = some ch)
    (hoff : off < 0x10000) (ha : a.toNat / 4 * 4 = 0x10000 * (c + 1) + off) :
    s.locate a = channelLoc s.bufBytes c off :=
  Machine.locate_channel _ (State.chan?_lt hch) hoff ha

theorem State.locate_setChan (s : State) (c : Nat) (ch : Channel) (a : Addr) :
    (s.setChan c ch).locate a = s.locate a := by
  simp [State.locate, State.numCh]

/-! The windows of a channel bank (R42): the offsets before a window fall under none of the earlier rows -/

theorem channelLoc_key (n c : Nat) (k : Fin 8) : channelLoc n c (0x020 + 4 * k) = .key c k := by
  have hk := k.isLt
  unfold channelLoc
  repeat rw [if_neg (by omega)]
  rw [if_pos (by omega), Nat.add_sub_cancel_left, Nat.mul_div_cancel_left _ (by decide)]
  exact congrArg (Loc.key c) (Fin.ext (Nat.mod_eq_of_lt hk))

theorem channelLoc_iv (n c : Nat) (k : Fin 4) : channelLoc n c (0x040 + 4 * k) = .iv c k := by
  have hk := k.isLt
  unfold channelLoc
  repeat rw [if_neg (by omega)]
  rw [if_pos (by omega), Nat.add_sub_cancel_left, Nat.mul_div_cancel_left _ (by decide)]
  exact congrArg (Loc.iv c) (Fin.ext (Nat.mod_eq_of_lt hk))

theorem channelLoc_chain (n c : Nat) (k : Fin 4) : channelLoc n c (0x050 + 4 * k) = .chain c k := by
  have hk := k.isLt
  unfold channelLoc
  repeat rw [if_neg (by omega)]
  rw [if_pos (by omega), Nat.add_sub_cancel_left, Nat.mul_div_cancel_left _ (by decide)]
  exact congrArg (Loc.chain c) (Fin.ext (Nat.mod_eq_of_lt hk))

theorem channelLoc_dinWord {n j : Nat} (c : Nat) (hj : j < n) : channelLoc n c (0x4000 + j) = .din c j := by
  unfold channelLoc
  repeat rw [if_neg (by omega)]
  rw [if_pos (by omega), Nat.add_sub_cancel_left]

theorem channelLoc_doutWord {n j : Nat} (c : Nat) (hn : n ≤ 0x4000) (hj : j < n + 16) :
    channelLoc n c (0x8000 + j) = .dout c j := by
  unfold channelLoc
  repeat rw [if_neg (by omega)]
  rw [if_pos (by omega), Nat.add_sub_cancel_left]

/-- A word of a buffer whose four bytes are specified (R44, R48). -/
theorem Memory.drawWord_of_some {m : Memory} {j : Nat} {b : Fin 4 → Byte} (h : ∀ l : Fin 4, m.get? (j + l) = some (b l))
    (draws : Nat) : m.drawWord j draws = (wordOfBytes (b 0) (b 1) (b 2) (b 3), draws) := by
  have hread := Memory.drawBytes_of_some (m := m) (a := j) (bytes := [b 0, b 1, b 2, b 3]) (by
    intro i hi
    have hl : i < 4 := hi
    refine (h ⟨i, hl⟩).trans ?_
    interval_cases i <;> rfl) draws
  simp only [List.length_cons, List.length_nil] at hread
  unfold Memory.drawWord
  rw [hread]
  rfl

/-! Reading bytes some of which are unspecified (93 U1) -/

theorem Memory.unwritten_succ (m : Memory) (a n : Nat) :
    m.unwritten a (n + 1) = m.unwritten (a + 1) n + (if (m.get? a).isNone then 1 else 0) := by
  unfold Memory.unwritten
  rw [List.range_succ_eq_map, List.countP_cons, List.countP_map]
  simp only [Function.comp_def, Nat.add_zero, Nat.succ_eq_add_one, Nat.add_assoc, Nat.add_comm 1]

/-- What is found above index `a` once the byte at `a` has been read. -/
theorem Memory.found_succ (m : Memory) (a draws i : Nat) :
    m.found a draws (i + 1) = m.found (a + 1) (m.draw a draws).2 i := by
  unfold Memory.found
  rw [Memory.unwritten_succ, Nat.add_comm i 1, ← Nat.add_assoc]
  cases h : m.get? a with
  | none => simp [Memory.draw_of_none h, Nat.add_assoc, Nat.add_comm 1]
  | some b => simp [Memory.draw_of_some h]

/-- Everything one read of a row of bytes gives. -/
theorem Memory.drawBytes_found (m : Memory) (a n draws : Nat) :
    (m.drawBytes a n draws).2 = draws + m.unwritten a n ∧
      ∀ i, i < n → (m.drawBytes a n draws).1[i]? = some (m.found a draws i) := by
  induction n generalizing a draws with
  | zero => exact ⟨rfl, fun i hi => absurd hi (Nat.not_lt_zero i)⟩
  | succ n ih =>
    obtain ⟨hcount, hbytes⟩ := ih (a + 1) (m.draw a draws).2
    refine ⟨?_, fun i hi => ?_⟩
    · simp only [Memory.drawBytes, hcount, Memory.unwritten_succ]
      cases h : m.get? a with
      | none => simp only [Memory.draw_of_none h, Option.isNone_none, if_true]; omega
      | some b => simp [Memory.draw_of_some h]
    · cases i with
      | zero =>
        simp only [Memory.drawBytes, List.getElem?_cons_zero, Option.some.injEq]
        cases h : m.get? a with
        | none => simp [Memory.draw_of_none h, Memory.found, h, Memory.unwritten]
        | some b => simp [Memory.draw_of_some h, Memory.found, h]
      | succ i =>
        simp only [Memory.drawBytes, List.getElem?_cons_succ, Memory.found_succ]
        exact hbytes i (by omega)

/-- The lane of a word of a byte sequence (R44). -/
theorem lane_wordAt (bytes : List Byte) (k : Nat) {l : Nat} (hl : l < 4) : lane (wordAt bytes k) l = bytes.getD (k + l) 0 := by
  obtain ⟨h0, h1, h2, h3⟩ :=
    lane_wordOfBytes (bytes.getD k 0) (bytes.getD (k + 1) 0) (bytes.getD (k + 2) 0) (bytes.getD (k + 3) 0)
  unfold wordAt
  interval_cases l <;> assumption

/-- A word of a buffer, whichever of its bytes are specified (R44, R48). -/
theorem Memory.drawWord_found (m : Memory) (a draws : Nat) :
    (m.drawWord a draws).2 = draws + m.unwritten a 4 ∧
      ∀ l, l < 4 → lane (m.drawWord a draws).1 l = m.found a draws l := by
  obtain ⟨hcount, hbytes⟩ := m.drawBytes_found a 4 draws
  refine ⟨hcount, fun l hl => ?_⟩
  unfold Memory.drawWord
  rw [lane_wordAt _ _ hl, List.getD_eq_getElem?_getD, Nat.zero_add, hbytes l hl]
  rfl

/-- The bytes of a row of registers after one of them is stored (R23, R24). -/
theorem regBytes_set {n k : Nat} (regs : Vector Word n) (hk : k < n) (v : Word) (i : Nat) :
    (regBytes (regs.set k v))[i]? = if i / 4 = k then some (lane v (i % 4)) else (regBytes regs)[i]? := by
  have h := flatMap_bytesOfWord_set regs.toList k i v (by simpa using hk)
  unfold regBytes
  rw [← h]
  congr 2

/-- The bits of `CH_BUSY` (R34). -/
theorem busyBits_getLsbD (chans : List Channel) (hlen : chans.length ≤ 32) (c : Nat) :
    (busyBits chans).getLsbD c = (match chans[c]? with
      | some ch => ch.busy
      | none => false) := by
  induction chans generalizing c with
  | nil => simp [busyBits]
  | cons ch rest ih =>
    unfold busyBits flagWord
    rw [BitVec.getLsbD_or, BitVec.getLsbD_shiftLeft]
    cases c with
    | zero => cases h : ch.busy <;> simp [h]
    | succ c =>
      have hflag : (if ch.busy = true then (1 : Word) else 0).getLsbD (c + 1) = false := by split <;> simp
      have hrest := ih (by simp at hlen; omega) c
      rw [hflag]
      simp only [List.getElem?_cons_succ, Nat.add_sub_cancel, Bool.false_or]
      rw [hrest]
      by_cases hc : c + 1 < 32
      · simp [hc]
      · simp at hlen
        rw [List.getElem?_eq_none (by omega)]
        simp

/-- An input that has been written is read as it was written (R137). -/
theorem Channel.input_of_inputIs {ch : Channel} {x : List Byte} (h : InputIs ch x) (draws : Nat) : ch.input draws = (x, draws) := by
  unfold Channel.input
  rw [h.inLen]
  exact Memory.drawBytes_of_some (fun i hi => by rw [Nat.zero_add, h.bytes i hi]; simp [hi]) draws

end Sys2Proof.Machine
end

