-- ==== Sys2Proof/Laws/Core.lean ====
section
/-! SUPPORT. Runs of a core, one step at a time. -/

namespace Sys2Proof.Machine

/-- A run of `k + 1` steps of any core whose first step answers `t` is the run of `k` steps from `t`. -/
theorem core_run_succ (M : Host.Core) {s t : M.State} (k : Nat) (h : M.step s = .next t) :
    M.run (k + 1) s = M.run k t := by
  simp only [Host.Core.run, h]

/-- The same for this machine. -/
theorem run_succ {s t : State} (k : Nat) (h : step s = .next t) :
    Host.Core.run Sys2Proof.core (k + 1) s = Host.Core.run Sys2Proof.core k t :=
  core_run_succ Sys2Proof.core k h

theorem run_zero (s : State) : Host.Core.run Sys2Proof.core 0 s = .next s := rfl

end Sys2Proof.Machine
end

