-- ==== Sys2Proof/Laws/Step.lean ====
section
/-! SUPPORT. Everything a step can do, said once: the inversion lemmas of exec, of the moves and of the step. -/

namespace Sys2Proof.Machine

/-! Decoding -/

theorem encode_decode {w : Word} {i : Instr} (h : decode w = .ok i) : encode i = w := by
  have hsplit : w.toNat = (rsvField w).toNat * 256 + (opField w).toNat := by
    simp only [rsvField, opField, BitVec.extractLsb'_toNat, Nat.shiftRight_eq_div_pow]
    omega
  have word : ∀ n : Nat, rsvField w = 0 → (opField w).toNat = n → w = BitVec.ofNat 32 n := by
    intro n hr ho
    apply BitVec.eq_of_toNat_eq
    rw [hsplit, hr, ho, BitVec.toNat_ofNat]
    have := (opField w).isLt
    simp only [BitVec.ofNat_eq_ofNat, BitVec.toNat_ofNat]
    omega
  unfold decode at h
  split at h
  · next hr =>
    unfold decodeOp at h
    repeat' (split at h)
    all_goals cases h
    all_goals
      next ho =>
        have := word _ hr (congrArg BitVec.toNat ho)
        exact this.symm
  · cases h

/-- The only word that decodes to NOP is 0 (R63). -/
theorem decode_nop_iff (w : Word) : decode w = .ok .nop ↔ w = 0 := by
  refine ⟨fun h => (encode_decode h).symm, fun h => ?_⟩
  subst h
  decide

/-! exec -/

/-- The body of a command that is accepted and completed; NOP has none. -/
def bodyOf : Instr → Option Body
  | .nop => none
  | .enc => some (dataBody .enc encCipher)
  | .dec => some (dataBody .dec decCipher)
  | .encRaw => some (dataBody .encRaw encRawCipher)
  | .decRaw => some (dataBody .decRaw decRawCipher)
  | .clear => some clearBody

theorem exec_of_body {i : Instr} {body : Body} (h : bodyOf i = some body) (s : State) :
    exec i s = complete body s := by
  cases i <;> simp only [bodyOf, Option.some.injEq, reduceCtorEq] at h <;> subst h <;> rfl

theorem exec_nop (s : State) : exec .nop s = .next (s.cmdWrite s.sel 0) := rfl

theorem bodyOf_ends {i : Instr} {body : Body} (h : bodyOf i = some body) (n : Nat) (ch : Channel) (draws : Nat) :
    BodyEnds n ch (body n ch draws).1 := by
  cases i <;> simp only [bodyOf, Option.some.injEq, reduceCtorEq] at h <;> subst h
  · exact encBody_ends n ch draws
  · exact decBody_ends n ch draws
  · exact encRawBody_ends n ch draws
  · exact decRawBody_ends n ch draws
  · exact clearBody_ends n ch draws

/-! The moves -/

/-- What a completed job's word stands for: the body of the command it decodes to, or of an illegal word. -/
theorem runJob_cases (w : Word) (s : State) :
    (w = 0 ∧ runJob w s = .fault .noBody) ∨
      (w ≠ 0 ∧ ∃ body : Body, runJob w s = complete body s ∧ ∀ n ch draws, BodyEnds n ch (body n ch draws).1) := by
  by_cases h0 : w = 0
  · exact .inl ⟨h0, by simp [runJob, h0]⟩
  · refine .inr ⟨h0, ?_⟩
    cases hd : decode w with
    | error e =>
      cases e
      exact ⟨illegalBody, by unfold runJob; rw [if_neg h0, hd]; rfl, illegalBody_ends⟩
    | ok i =>
      cases hb : bodyOf i with
      | none =>
        exfalso
        cases i <;> simp only [bodyOf, reduceCtorEq] at hb
        exact h0 ((decode_nop_iff w).mp hd)
      | some body =>
        exact ⟨body, by unfold runJob; rw [if_neg h0, hd]; exact exec_of_body hb s, bodyOf_ends hb⟩

/-- What the block does in one step from `s`, where `u` is `s` but for the bookkeeping of the schedule and of the host. -/
inductive Moved (s u : State) : State → Prop where
  /-- Nothing in the block changes: a read, an access that is not there, a completion that is not enabled. -/
  | quiet {t : State} (h : SameBlock u t) : Moved s u t
  /-- The host's next access, a write (R49). -/
  | wrote {t : State} (a : Addr) (v : Word) (rest : List HostOp) (hhost : s.host = .wr a v :: rest)
      (h : SameBlock (u.memWrite a v) t) : Moved s u t
  /-- The completion step of the selected channel (R119). -/
  | completed (ch : Channel) (body : Body) (hch : u.chan? u.sel = some ch) (hbusy : ch.busy = true) (hjob : ch.job ≠ 0)
      (hends : ∀ n ch draws, BodyEnds n ch (body n ch draws).1) :
      Moved s u (u.afterBody ch (body u.bufBytes ch u.draws))
  /-- A reset, which the schedule has named (R130). -/
  | reset (rest : List Move) (hsched : s.sched = .reset :: rest) : Moved s u u.resetBlock

theorem SameBlock.refl (s : State) : SameBlock s s := ⟨rfl, rfl, rfl, rfl⟩

theorem SameBlock.symm {s t : State} (h : SameBlock s t) : SameBlock t s :=
  ⟨h.bufBytes.symm, h.chans.symm, h.intStatus.symm, h.intEnable.symm⟩

theorem SameBlock.trans {s t u : State} (h : SameBlock s t) (h' : SameBlock t u) : SameBlock s u :=
  ⟨h'.bufBytes.trans h.bufBytes, h'.chans.trans h.chans, h'.intStatus.trans h.intStatus,
    h'.intEnable.trans h.intEnable⟩

theorem SameBlock.chan? {s t : State} (h : SameBlock s t) (c : Nat) : t.chan? c = s.chan? c := by
  simp [State.chan?, h.chans]

theorem SameBlock.numCh {s t : State} (h : SameBlock s t) : t.numCh = s.numCh := by
  simp [State.numCh, h.chans]

theorem State.hostRead_sameBlock (s : State) (a : Addr) : SameBlock s (s.hostRead a) := ⟨rfl, rfl, rfl, rfl⟩

/-- A host write always answers a next state, and does to the block what MemWrite does (R49). -/
theorem hostWrite_next (a : Addr) (v : Word) (s : State) :
    ∃ t, hostWrite a v s = .next t ∧ SameBlock (s.memWrite a v) t := by
  unfold hostWrite
  split
  · next c hl =>
    split
    · next hv =>
      obtain rfl := (decode_nop_iff v).mp hv
      refine ⟨(s.setSel c).cmdWrite c 0, exec_nop _, ?_⟩
      simp only [State.memWrite, hl, State.writeLoc, State.cmdWrite, State.protectedWrite, State.chan?_setSel]
      cases s.chan? c <;> exact ⟨rfl, rfl, rfl, rfl⟩
    · exact ⟨_, rfl, SameBlock.refl _⟩
  · exact ⟨_, rfl, SameBlock.refl _⟩

/-- A move of the host always answers a next state: a read, a wait or no access, which change nothing in the block, or its next write. -/
theorem hostMove_next (s : State) :
    ∃ t, hostMove s = .next t ∧
      (SameBlock s t ∨
        ∃ a v rest, s.host = .wr a v :: rest ∧ SameBlock ((s.setHost rest).memWrite a v) t) := by
  unfold hostMove
  split
  · exact ⟨s, rfl, .inl (SameBlock.refl s)⟩
  · exact ⟨_, rfl, .inl ⟨rfl, rfl, rfl, rfl⟩⟩
  · next a v rest hh =>
    obtain ⟨t, ht, hsame⟩ := hostWrite_next a v (s.setHost rest)
    exact ⟨t, ht, .inr ⟨a, v, rest, hh, hsame⟩⟩
  all_goals
    split
    · exact ⟨_, rfl, .inl ⟨rfl, rfl, rfl, rfl⟩⟩
    · exact ⟨_, rfl, .inl ⟨rfl, rfl, rfl, rfl⟩⟩

/-- Everything a completion move can do. -/
theorem completionMove_cases (c : Nat) (s : State) :
    (completionMove c s = .next s) ∨
      (∃ ch, s.chan? c = some ch ∧ ch.busy = true ∧ ch.job = 0 ∧ completionMove c s = .fault .noBody) ∨
      (∃ (ch : Channel) (body : Body), s.chan? c = some ch ∧ ch.busy = true ∧ ch.job ≠ 0 ∧
        (∀ n ch draws, BodyEnds n ch (body n ch draws).1) ∧
        completionMove c s =
          .next ((s.setSel c).afterBody ch (body (s.setSel c).bufBytes ch (s.setSel c).draws))) := by
  unfold completionMove
  cases hch : s.chan? c with
  | none => exact .inl rfl
  | some ch =>
    cases hb : ch.busy with
    | false => exact .inl (by simp [hb])
    | true =>
      right
      rcases runJob_cases ch.job (s.setSel c) with ⟨h0, h⟩ | ⟨h0, body, h, hends⟩
      · exact .inl ⟨ch, rfl, hb, h0, by simp [hb, h]⟩
      · refine .inr ⟨ch, body, rfl, hb, h0, hends, ?_⟩
        simp only [hb, if_true, h]
        exact complete_of_busy body (by simpa using hch) hb

/-- A move that answers a next state, made from a state `s₁` that is `s` but for the bookkeeping. -/
theorem runMove_next {m : Move} {s s₁ t : State} (hsame : SameBlock s s₁) (hhost : s₁.host = s.host)
    (hreset : m = .reset → ∃ rest, s.sched = .reset :: rest) (h : runMove m s₁ = .next t) :
    ∃ u, SameBlock s u ∧ Moved s u t := by
  cases m with
  | host =>
    obtain ⟨t', ht', hq | ⟨a, v, rest, hh, hw⟩⟩ := hostMove_next s₁
    · simp only [runMove, ht'] at h
      cases h
      exact ⟨s₁, hsame, .quiet hq⟩
    · simp only [runMove, ht'] at h
      cases h
      exact ⟨s₁.setHost rest, hsame.trans ⟨rfl, rfl, rfl, rfl⟩, .wrote a v rest (hhost.symm.trans hh) hw⟩
  | complete c =>
    simp only [runMove] at h
    rcases completionMove_cases c s₁ with h' | ⟨_, _, _, _, h'⟩ | ⟨ch, body, hch, hb, hj, hends, h'⟩ <;> rw [h'] at h <;> cases h
    · exact ⟨s₁, hsame, .quiet (SameBlock.refl s₁)⟩
    · exact ⟨s₁.setSel c, hsame.trans ⟨rfl, rfl, rfl, rfl⟩, .completed ch body (by simpa using hch) hb hj hends⟩
  | reset =>
    simp only [runMove] at h
    cases h
    obtain ⟨rest, hr⟩ := hreset rfl
    exact ⟨s₁, hsame, .reset rest hr⟩

/-! What no move touches but the step itself -/

/-- The schedule and the delay are the same in both. -/
structure SameOrder (s t : State) : Prop where
  sched : t.sched = s.sched
  delay : t.delay = s.delay

theorem SameOrder.refl (s : State) : SameOrder s s := ⟨rfl, rfl⟩

/-- The model's own fields but the selected channel are the same in both. -/
structure SameOwn (s t : State) : Prop where
  host : t.host = s.host
  sched : t.sched = s.sched
  reads : t.reads = s.reads
  draws : t.draws = s.draws
  delay : t.delay = s.delay

theorem SameOwn.order {s t : State} (h : SameOwn s t) : SameOrder s t := ⟨h.sched, h.delay⟩

theorem State.protectedWrite_own (s : State) (c : Nat) (f : Channel → Channel) :
    SameOwn s (s.protectedWrite c f) ∧ (s.protectedWrite c f).sel = s.sel := by
  unfold State.protectedWrite
  split <;> exact ⟨⟨rfl, rfl, rfl, rfl, rfl⟩, rfl⟩

theorem State.statusWrite_own (s : State) (c : Nat) (v : Word) :
    SameOwn s (s.statusWrite c v) ∧ (s.statusWrite c v).sel = s.sel := by
  unfold State.statusWrite
  split <;> exact ⟨⟨rfl, rfl, rfl, rfl, rfl⟩, rfl⟩

/-- MemWrite leaves the model's own fields as they are. -/
theorem State.memWrite_own (s : State) (a : Addr) (v : Word) :
    SameOwn s (s.memWrite a v) ∧ (s.memWrite a v).sel = s.sel := by
  unfold State.memWrite
  cases s.locate a <;>
    first
    | exact ⟨⟨rfl, rfl, rfl, rfl, rfl⟩, rfl⟩
    | exact s.protectedWrite_own _ _
    | exact s.statusWrite_own _ _

/-- A host write leaves the model's own fields as they are, but that the no-operation word selects its channel. -/
theorem hostWrite_own {a : Addr} {v : Word} {s t : State} (h : hostWrite a v s = .next t) :
    SameOwn s t ∧ (v ≠ 0 → t.sel = s.sel) := by
  unfold hostWrite at h
  split at h
  · next c _ =>
    split at h
    · next hv =>
      rw [exec_nop] at h
      cases h
      obtain ⟨ho, -⟩ := (s.setSel c).protectedWrite_own c _
      exact ⟨⟨ho.host, ho.sched, ho.reads, ho.draws, ho.delay⟩, fun hne => absurd ((decode_nop_iff v).mp hv) hne⟩
    · cases h
      exact ⟨(s.memWrite_own a v).1, fun _ => (s.memWrite_own a v).2⟩
  · cases h
    exact ⟨(s.memWrite_own a v).1, fun _ => (s.memWrite_own a v).2⟩

/-- A move of the host uses up its next access, or, where a poll's condition does not hold or the awaited line is low, leaves the block and the host's accesses as
they are. -/
theorem hostMove_order {s t : State} (h : hostMove s = .next t) :
    SameOrder s t ∧ ((∃ op rest, s.host = op :: rest ∧ t.host = rest) ∨ SameBlock s t ∧ t.host = s.host) := by
  unfold hostMove at h
  split at h
  · cases h
    exact ⟨.refl s, .inr ⟨.refl s, rfl⟩⟩
  · next a rest hh =>
    cases h
    exact ⟨⟨rfl, rfl⟩, .inl ⟨_, rest, hh, rfl⟩⟩
  · next a v rest hh =>
    obtain ⟨ho, -⟩ := hostWrite_own h
    exact ⟨⟨ho.sched, ho.delay⟩, .inl ⟨_, rest, hh, ho.host⟩⟩
  · next a mask val rest hh =>
    split at h <;> cases h
    · exact ⟨⟨rfl, rfl⟩, .inl ⟨_, rest, hh, rfl⟩⟩
    · exact ⟨⟨rfl, rfl⟩, .inr ⟨⟨rfl, rfl, rfl, rfl⟩, rfl⟩⟩
  · next rest hh =>
    split at h <;> cases h
    · exact ⟨⟨rfl, rfl⟩, .inl ⟨_, rest, hh, rfl⟩⟩
    · exact ⟨.refl s, .inr ⟨.refl s, rfl⟩⟩

/-- A completion of a BUSY channel with a nonzero job always happens. -/
theorem completionMove_of_busy {c : Nat} {s : State} {ch : Channel} (hch : s.chan? c = some ch) (hbusy : ch.busy = true)
    (hjob : ch.job ≠ 0) :
    ∃ body : Body, completionMove c s = .next ((s.setSel c).afterBody ch (body s.bufBytes ch s.draws)) ∧
      ∀ n ch draws, BodyEnds n ch (body n ch draws).1 := by
  rcases runJob_cases ch.job (s.setSel c) with ⟨h0, _⟩ | ⟨_, body, hrun, hends⟩
  · exact absurd h0 hjob
  · refine ⟨body, ?_, hends⟩
    unfold completionMove
    rw [hch]
    simp only [hbusy, if_true, hrun]
    exact complete_of_busy body (by simpa using hch) hbusy

/-- No move touches the schedule or the delay; only the step does. -/
theorem runMove_order {m : Move} {s t : State} (h : runMove m s = .next t) : SameOrder s t := by
  cases m with
  | host => exact (hostMove_order h).1
  | complete c =>
    simp only [runMove] at h
    rcases completionMove_cases c s with h' | ⟨_, _, _, _, h'⟩ | ⟨ch, body, _, _, _, _, h'⟩ <;> rw [h'] at h <;> cases h <;>
      exact ⟨rfl, rfl⟩
  | reset =>
    simp only [runMove] at h
    cases h
    exact ⟨rfl, rfl⟩

/-! The step -/

theorem mem_busyMoves {c : Nat} {chans : List Channel} {m : Move} (h : m ∈ busyMoves c chans) :
    ∃ i ch, m = .complete (c + i) ∧ chans[i]? = some ch ∧ ch.busy = true := by
  induction chans generalizing c with
  | nil => simp [busyMoves] at h
  | cons first rest ih =>
    unfold busyMoves at h
    split at h
    · next hb =>
      rcases List.mem_cons.mp h with rfl | h
      · exact ⟨0, first, rfl, rfl, hb⟩
      · obtain ⟨i, ch, hm, hch, hbusy⟩ := ih h
        exact ⟨i + 1, ch, by rw [hm, Nat.add_assoc, Nat.add_comm 1], hch, hbusy⟩
    · obtain ⟨i, ch, hm, hch, hbusy⟩ := ih h
      exact ⟨i + 1, ch, by rw [hm, Nat.add_assoc, Nat.add_comm 1], hch, hbusy⟩

/-- An enabled completion is a BUSY channel's (R119). -/
theorem State.mem_completions {s : State} {m : Move} (h : m ∈ s.completions) :
    ∃ c ch, m = .complete c ∧ s.chan? c = some ch ∧ ch.busy = true := by
  obtain ⟨i, ch, hm, hch, hbusy⟩ := mem_busyMoves h
  exact ⟨i, ch, by simpa using hm, hch, hbusy⟩

theorem busyMoves_eq_nil (c : Nat) (chans : List Channel) : busyMoves c chans = [] ↔ ∀ ch ∈ chans, ch.busy = false := by
  induction chans generalizing c with
  | nil => simp [busyMoves]
  | cons first rest ih =>
    unfold busyMoves
    cases hb : first.busy <;> simp [hb, ih]

/-- No completion is enabled exactly when every channel is IDLE. -/
theorem State.completions_eq_nil (s : State) : s.completions = [] ↔ s.AllIdle := busyMoves_eq_nil 0 s.chans

@[simp] theorem State.afterChoice_bufBytes (s : State) (m : Move) : (s.afterChoice m).bufBytes = s.bufBytes := rfl
@[simp] theorem State.afterChoice_chans (s : State) (m : Move) : (s.afterChoice m).chans = s.chans := rfl
@[simp] theorem State.afterChoice_chan? (s : State) (m : Move) (c : Nat) : (s.afterChoice m).chan? c = s.chan? c := rfl
@[simp] theorem State.afterChoice_numCh (s : State) (m : Move) : (s.afterChoice m).numCh = s.numCh := rfl
@[simp] theorem State.afterChoice_host (s : State) (m : Move) : (s.afterChoice m).host = s.host := rfl
@[simp] theorem State.afterChoice_sched (s : State) (m : Move) : (s.afterChoice m).sched = s.sched := rfl
@[simp] theorem State.afterChoice_delay (s : State) (m : Move) : (s.afterChoice m).delay = s.delayAfter m := rfl

theorem State.afterChoice_sameBlock (s : State) (m : Move) : SameBlock s (s.afterChoice m) := ⟨rfl, rfl, rfl, rfl⟩

/-- With the schedule used up, a step makes the chosen move. -/
theorem step_free {s : State} {m : Move} (hp : Config.paramsOk s.numCh s.bufBytes = true) (hs : s.sched = [])
    (hm : s.freeMove? = some m) : step s = runMove m (s.afterChoice m) := by
  unfold step stepMove
  rw [if_pos hp, hs]
  simp only [hm]

theorem reset_not_mem_busyMoves (c : Nat) (chans : List Channel) : Move.reset ∉ busyMoves c chans := by
  induction chans generalizing c with
  | nil => simp [busyMoves]
  | cons ch rest ih =>
    unfold busyMoves
    split <;> simp [ih]

theorem State.reset_not_mem_completions (s : State) : Move.reset ∉ s.completions := reset_not_mem_busyMoves 0 s.chans

/-- A reset is never chosen freely. -/
theorem reset_not_mem_enabledMoves (s : State) : Move.reset ∉ s.enabledMoves := by
  unfold State.enabledMoves
  split <;> simp [s.reset_not_mem_completions]

theorem getD_mem {α : Type} (l : List α) (n : Nat) (m : α) (hm : m ∈ l) : l.getD n m ∈ l := by
  by_cases h : n < l.length
  · simp [h]
  · simpa [Nat.le_of_not_lt h] using hm

/-- A free choice is one of the enabled moves. -/
theorem State.freeMove?_mem {s : State} {m : Move} (h : s.freeMove? = some m) : m ∈ s.enabledMoves := by
  unfold State.freeMove? at h
  split at h
  · cases h
  · next hm => cases h; rw [hm]; exact getD_mem _ _ _ (by simp)

theorem State.freeMove?_none {s : State} (h : s.freeMove? = none) : s.enabledMoves = [] := by
  unfold State.freeMove? at h
  split at h
  · assumption
  · cases h

/-- Where a command is in flight, some move is chosen, and it is a completion or, while the delay lasts, an access of the host (R131). -/
theorem State.freeMove?_of_busy {s : State} (h : ¬s.AllIdle) :
    ∃ m, s.freeMove? = some m ∧ (m ∈ s.completions ∨ m = .host ∧ s.host ≠ [] ∧ 0 < s.delayLeft) := by
  have hne : s.completions ≠ [] := fun hnil => h ((s.completions_eq_nil).mp hnil)
  cases hf : s.freeMove? with
  | none =>
    have hnil := State.freeMove?_none hf
    unfold State.enabledMoves at hnil
    split at hnil
    · exact absurd hnil hne
    · cases hnil
  | some m =>
    refine ⟨m, rfl, ?_⟩
    have hmem := State.freeMove?_mem hf
    unfold State.enabledMoves at hmem
    split at hmem
    · exact .inl hmem
    · next hcond =>
      rcases List.mem_cons.mp hmem with rfl | hmem
      · simp only [Bool.or_eq_true, List.isEmpty_iff, Bool.and_eq_true, beq_iff_eq, Bool.not_eq_true', List.isEmpty_eq_false_iff,
          not_or, not_and] at hcond
        exact .inr ⟨rfl, hcond.1, Nat.pos_of_ne_zero fun h0 => hcond.2 h0 hne⟩
      · exact .inl hmem

/-- Everything a step can do when it answers a next state. -/
theorem step_next {s t : State} (h : step s = .next t) :
    Config.paramsOk s.numCh s.bufBytes = true ∧ ∃ u, SameBlock s u ∧ Moved s u t := by
  unfold step at h
  split at h
  · next hp =>
    refine ⟨hp, ?_⟩
    unfold stepMove at h
    split at h
    · next m rest hs =>
      exact runMove_next (s₁ := s.setSched rest) ⟨rfl, rfl, rfl, rfl⟩ rfl (fun hm => ⟨rest, hm ▸ hs⟩) h
    · split at h
      · cases h
        exact ⟨s, SameBlock.refl s, .quiet (SameBlock.refl s)⟩
      · next m hm =>
        refine runMove_next (s₁ := s.afterChoice m) ⟨rfl, rfl, rfl, rfl⟩ rfl (fun hr => ?_) h
        exact absurd (State.freeMove?_mem hm) (hr ▸ reset_not_mem_enabledMoves s)
  · cases h

/-- No host write changes the parameters. -/
theorem Written.params {s t : State} (h : Written s t) : t.bufBytes = s.bufBytes ∧ t.numCh = s.numCh := by
  cases h <;> simp

/-- No step changes the parameters. -/
theorem step_params {s t : State} (h : step s = .next t) : t.bufBytes = s.bufBytes ∧ t.numCh = s.numCh := by
  obtain ⟨hp, u, hs, hm⟩ := step_next h
  have h16 : u.bufBytes % 16 = 0 := by rw [hs.bufBytes]; exact ((paramsOk_iff _ _).mp hp).2.2.2.2
  rw [← hs.bufBytes, ← hs.numCh]
  cases hm with
  | quiet hq => exact ⟨hq.bufBytes, hq.numCh⟩
  | wrote a v rest _ hw =>
    have hwritten := (u.memWrite_written h16 a v).params
    exact ⟨hw.bufBytes.trans hwritten.1, hw.numCh.trans hwritten.2⟩
  | completed => simp
  | reset => simp

end Sys2Proof.Machine
end

