-- ==== Sys2Proof/Laws/Invariant.lean ====
section
/-! SUPPORT. Which parts of the invariant each operation keeps: buffers inside their windows, the interrupt bits of the channels, a
channel's own invariant over a write and over the end of a body. -/

namespace Sys2Proof.Machine

/-! Buffers inside their windows -/

theorem Memory.below_nil (n : Nat) : Memory.below n [] = true := rfl

theorem Memory.below_cons (n : Nat) (cell : Host.Cell) (rest : Memory) :
    Memory.below n (cell :: rest) = true ↔ cell.1 < n ∧ Memory.below n rest = true := by
  simp [Memory.below]

theorem Memory.below_set {n a : Nat} {m : Memory} (h : m.below n = true) (ha : a < n) (b : Byte) :
    (m.set a b).below n = true := by
  induction m with
  | nil => exact (Memory.below_cons n _ _).mpr ⟨ha, rfl⟩
  | cons cell rest ih =>
    obtain ⟨k, v⟩ := cell
    have hcons := (Memory.below_cons n _ _).mp h
    simp only [Memory.set]
    split
    · exact (Memory.below_cons n _ _).mpr ⟨ha, h⟩
    · split
      · exact (Memory.below_cons n _ _).mpr ⟨ha, hcons.2⟩
      · exact (Memory.below_cons n _ _).mpr ⟨hcons.1, ih hcons.2⟩

theorem Memory.below_setWord {n a : Nat} {m : Memory} (h : m.below n = true) (ha : a + 4 ≤ n) (v : Word) :
    (m.setWord a v).below n = true :=
  Memory.below_set (Memory.below_set (Memory.below_set (Memory.below_set h (by omega) _) (by omega) _) (by omega) _)
    (by omega) _

theorem Memory.below_ofBytes (bytes : List Byte) {base n : Nat} (h : base + bytes.length ≤ n) :
    (Memory.ofBytes base bytes).below n = true := by
  induction bytes generalizing base with
  | nil => rfl
  | cons b rest ih =>
    simp only [List.length_cons] at h
    exact (Memory.below_cons n _ _).mpr ⟨by simp only; omega, ih (by omega)⟩

theorem Memory.below_zeros (n : Nat) : (Memory.zeros n).below n = true :=
  Memory.below_ofBytes _ (by simp)

/-! The interrupt bits of the channels (R32, R33) -/

theorem channelMask_getLsbD {n : Nat} (hn : n ≤ 15) (b : Nat) : (channelMask n).getLsbD b = decide (b < n) := by
  unfold channelMask
  rw [BitVec.getLsbD_ofNat, Nat.testBit_two_pow_sub_one]
  by_cases h : b < n
  · simp [h]; omega
  · simp [h]

theorem and_channelMask_lt {n : Nat} (hn : n ≤ 15) (v : Word) : (v &&& channelMask n).toNat < 2 ^ n := by
  have hpow : 2 ^ n ≤ 2 ^ 15 := Nat.pow_le_pow_right (by omega) hn
  have hpos : 0 < 2 ^ n := Nat.two_pow_pos n
  have hmask : (channelMask n).toNat = 2 ^ n - 1 := by
    simp only [channelMask, BitVec.toNat_ofNat]
    omega
  rw [BitVec.toNat_and, hmask]
  have := Nat.and_le_right (n := v.toNat) (m := 2 ^ n - 1)
  omega

theorem or_channelBit_lt {n c : Nat} (hc : c < n) (hn : n ≤ 15) {v : Word} (h : v.toNat < 2 ^ n) :
    (v ||| channelBit c).toNat < 2 ^ n := by
  rw [BitVec.toNat_or]
  apply Nat.or_lt_two_pow h
  have hlt : 2 ^ c < 2 ^ n := Nat.pow_lt_pow_right (by omega) hc
  have hpow : 2 ^ n ≤ 2 ^ 15 := Nat.pow_le_pow_right (by omega) hn
  simp only [channelBit, BitVec.toNat_shiftLeft, BitVec.toNat_ofNat, Nat.shiftLeft_eq]
  omega

/-! Channels and states -/

/-- Whatever a host write does to a channel keeps the channel's invariant (R49, R52, R53). -/
theorem ChannelWritten.inv {n : Nat} {ch ch' : Channel} (hw : ChannelWritten n ch ch') (h : ch.Inv n) : ch'.Inv n := by
  obtain ⟨h1, h2, h3, h4, h5, h6, h7, h8, h9, h10, h11⟩ := h
  cases hw with
  | accepted hidle v hv => exact ⟨by simp, fun _ => hv, fun _ => rfl, by simp, h5, h6, h7, h8, h9, h10, by simp⟩
  | din hidle j v hj =>
    exact ⟨h1, h2, h3, h4, h5, Memory.wf_setWord h6 _ _, Memory.below_setWord h7 hj v, h8, h9, h10, h11⟩
  | _ => exact ⟨h1, h2, h3, h4, h5, h6, h7, h8, h9, h10, h11⟩

/-- However a body ends, the channel it leaves meets the invariant (R119). -/
theorem BodyEnds.settle_inv {n : Nat} {ch : Channel} {r : Except ErrCode Channel} (hr : BodyEnds n ch r)
    (hn : n + 16 < 2 ^ 32) (h : ch.Inv n) : (ch.settle n r).Inv n := by
  obtain ⟨h1, h2, h3, h4, h5, h6, h7, h8, h9, h10, h11⟩ := h
  cases hr with
  | failed code hcode =>
    exact ⟨by simp, by simp, by simp, by simp, by simp, h6, h7, by simp [Memory.wf_zeros], by simp [Memory.below_zeros],
      by simp, by simp⟩
  | finished y chain hy =>
    refine ⟨by simp, by simp, by simp, by simp, ?_, h6, h7, by simp [Memory.wf_ofBytes], ?_, .inr ?_, fun _ => ?_⟩
    · simp; omega
    · exact Memory.below_ofBytes _ (by simp; omega)
    · simp; omega
    · simp; omega
  | cleared =>
    exact ⟨by simp, by simp, by simp, by simp, by simp, by simp [Memory.wf_zeros], by simp [Memory.below_zeros],
      by simp [Memory.wf_zeros], by simp [Memory.below_zeros], by simp, by simp⟩

/-- Two states of the same block meet the invariant together. -/
theorem SameBlock.inv {s t : State} (hs : SameBlock s t) (h : s.Inv) : t.Inv := by
  obtain ⟨h1, h2, h3, h4⟩ := h
  refine ⟨?_, ?_, ?_, ?_⟩
  · rw [hs.numCh, hs.bufBytes]; exact h1
  · rw [hs.numCh, hs.intStatus]; exact h2
  · rw [hs.numCh, hs.intEnable]; exact h3
  · rw [hs.chans, hs.bufBytes]; exact h4

theorem State.setChan_inv {s : State} (h : s.Inv) (c : Nat) {ch : Channel} (hch : ch.Inv s.bufBytes) :
    (s.setChan c ch).Inv := by
  obtain ⟨h1, h2, h3, h4⟩ := h
  refine ⟨by simpa using h1, by simpa using h2, by simpa using h3, fun d hd => ?_⟩
  rcases List.mem_or_eq_of_mem_set hd with hd | rfl
  · exact h4 d hd
  · exact hch

/-! The end of a completion, in the words of the claims (R95, R119, R120) -/

theorem State.afterBody_completedWith {s : State} {ch : Channel} {ran : Except ErrCode Channel × Nat}
    (hch : s.chan? s.sel = some ch) {code : ErrCode} (hcode : (ch.settle s.bufBytes ran.1).err = code) :
    CompletedWith code s (s.afterBody ch ran) (ch.settle s.bufBytes ran.1) where
  now := State.afterBody_chan?_self hch ran
  err := hcode
  done := by simp
  busy := by simp
  pending := by simp [channelBit]
  frame := State.afterBody_onlyChannel s ch ran

theorem Channel.settle_error_erased (ch : Channel) (n : Nat) (code : ErrCode) :
    OutputErased n ch (ch.settle n (.error code)) where
  outLen := rfl
  bytes := fun i hi => by simp [Memory.get?_zeros, hi]
  chain := rfl
  inputs := ⟨rfl, rfl, rfl, rfl, rfl, rfl, rfl, rfl⟩

theorem dataBody_inputsKept (op : DataOp) (cipher : Cipher) (n : Nat) (ch : Channel) (draws : Nat) :
    InputsKept ch (ch.settle n (dataBody op cipher n ch draws).1) := by
  rcases dataBody_cases op cipher n ch draws with ⟨code, _, h⟩ | ⟨_, ⟨code, _, h⟩ | ⟨y, chain, _, h⟩⟩ <;> rw [h] <;>
    exact ⟨rfl, rfl, rfl, rfl, rfl, rfl, rfl, rfl⟩

theorem Channel.finish_outputIs (ch : Channel) {n : Nat} {y chain : List Byte} (hn : n + 16 < 2 ^ 32)
    (hy : y.length ≤ n + 16) (hchain : chain.length = 16) : OutputIs n (ch.settle n (.ok (ch.finish n y chain))) y chain where
  outLen := by simp; omega
  bytes := fun i hi => by
    simp only [Channel.settle_ok, Channel.retire_dout, Channel.finish_dout]
    rw [Memory.get?_output _ _ _ hy, if_pos hi]
  tail := fun i hlo hhi => by
    simp only [Channel.settle_ok, Channel.retire_dout, Channel.finish_dout]
    rw [Memory.get?_output _ _ _ hy, if_neg (by omega), if_pos hhi]
  chain := regBytes_blockRegs hchain

end Sys2Proof.Machine
end

