-- ==== Sys2Proof/Laws/PerInstr.lean ====
section
/-! SUPPORT. The statements made for every instruction, one lemma per constructor: the fields of its word. -/

namespace Sys2Proof.Laws.Encoding

/-- The word of an instruction has `RSV = 0` and an `OP` of 0 to 5, and the instruction is well formed (R60, R61). -/
def Statement (i : Instr) : Prop :=
  i.wellFormed = true ∧ rsvField (encode i) = 0 ∧ (opField (encode i)).toNat ≤ 5

theorem nop : Statement .nop := by unfold Statement; decide
theorem enc : Statement .enc := by unfold Statement; decide
theorem dec : Statement .dec := by unfold Statement; decide
theorem encRaw : Statement .encRaw := by unfold Statement; decide
theorem decRaw : Statement .decRaw := by unfold Statement; decide
theorem clear : Statement .clear := by unfold Statement; decide

end Sys2Proof.Laws.Encoding
end

