-- ==== Sys2Proof/Tests/Slice0.lean ====
section
/-! SUPPORT. Tests of the model on fixed values. Every expected value is the spec's: a rule, or a vector of spec/95_test_vectors.md (its
row is named in the comment). -/

namespace Sys2Proof.Tests

open Sys2Proof.Machine

/-! Helpers -/

/-- The `n` bytes of a number, the most significant first, as the spec writes byte strings (R14). -/
def hexBytes (n v : Nat) : List Byte := (List.range n).map fun i => BitVec.ofNat 8 (v / 256 ^ (n - 1 - i))

/-- A block from its sixteen bytes. -/
def hexBlock (v : Nat) : Block := Block.ofBytes (hexBytes 16 v)

/-- A byte sequence in the key registers. -/
def keyRegs (bytes : List Byte) : Vector Word 8 := Vector.ofFn fun k => wordAt bytes (4 * k)

/-- A BUSY channel with an all-zero key and IV of legal lengths and an input. -/
def loaded (input : List Byte) : Channel :=
  { Channel.reset with
    busy := true, job := 1, keyLen := 16, ivLen := 16, inLen := BitVec.ofNat 32 input.length, din := Memory.ofBytes 0 input }

/-- Two channels with buffers of 32 bytes; channel 0 as given, selected. -/
def small (ch : Channel) : State := { State.reset with bufBytes := 32, chans := [ch, Channel.reset] }

/-- A view of the state a step answers. -/
def seen {α : Type} (r : Result) (view : State → α) : Option α :=
  match r with
  | .next t => some (view t)
  | .fault _ => none
  | .refused _ => none

/-- A view of channel 0 of the state a step answers. -/
def seen0 {α : Type} (r : Result) (view : Channel → α) : Option α :=
  match r with
  | .next t => (t.chan? 0).map view
  | .fault _ => none
  | .refused _ => none

/-- The first `n` bytes of `DOUT`. -/
def out (n : Nat) (ch : Channel) : List (Option Byte) := (List.range n).map ch.dout.get?

/-- Specified bytes. -/
def all (bytes : List Byte) : List (Option Byte) := bytes.map some

/-! WellFormed: a term that each check refuses -/

theorem test_wellFormed_word_of_instruction : Instr.wellFormed .nop = true ∧ Instr.wellFormed .clear = true := by decide
theorem test_illFormed_numCh_zero : Config.numChOk 0 = false ∧ Config.numChOk 1 = true := by decide
theorem test_illFormed_numCh_sixteen : Config.numChOk 16 = false ∧ Config.numChOk 15 = true := by decide
theorem test_illFormed_bufBytes_zero : Config.bufBytesOk 0 = false ∧ Config.bufBytesOk 16 = true := by decide
theorem test_illFormed_bufBytes_above : Config.bufBytesOk 16400 = false ∧ Config.bufBytesOk 16384 = true := by decide
theorem test_illFormed_bufBytes_no_multiple : Config.bufBytesOk 24 = false := by decide
theorem test_illFormed_params : Config.paramsOk 0 4096 = false ∧ Config.paramsOk 4 24 = false ∧ Config.paramsOk 4 4096 = true := by
  decide
theorem test_illFormed_config_is_refused : step { State.reset with chans := [] } = .refused .badConfig := rfl
theorem test_illFormed_channel : Pseudo.expand 4 4096 (.cmd 4 .enc) = none ∧ Pseudo.expand 4 4096 (.wait 4) = none := by decide
theorem test_illFormed_key : Pseudo.expand 4 4096 (.setKey 0 (List.replicate 33 0)) = none := by decide
theorem test_illFormed_iv : Pseudo.expand 4 4096 (.setIv 0 (List.replicate 17 0)) = none := by decide
theorem test_illFormed_input : Pseudo.expand 4 16 (.setIn 0 (List.replicate 17 0)) = none := by decide

/-! Decode: words written out from the opcode map (R60, R61), and illegal words (R62; W4 to W8) -/

theorem test_decode_nop : decodeTableWord 32 0b00000000000000000000000000000000 = some .nop := by decide
theorem test_decode_enc : decodeTableWord 32 0b00000000000000000000000000000001 = some .enc := by decide
theorem test_decode_dec : decodeTableWord 32 0b00000000000000000000000000000010 = some .dec := by decide
theorem test_decode_encRaw : decodeTableWord 32 0b00000000000000000000000000000011 = some .encRaw := by decide
theorem test_decode_decRaw : decodeTableWord 32 0b00000000000000000000000000000100 = some .decRaw := by decide
theorem test_decode_clear : decodeTableWord 32 0b00000000000000000000000000000101 = some .clear := by decide
theorem test_decode_illegal_op : decode 0x00000006 = .error .illegalCommand ∧ decode 0x000000FF = .error .illegalCommand :=
  ⟨rfl, rfl⟩
theorem test_decode_illegal_rsv :
    decode 0x00000101 = .error .illegalCommand ∧ decode 0x00000100 = .error .illegalCommand ∧
    decode 0x05000001 = .error .illegalCommand ∧ decode 0x80000000 = .error .illegalCommand := ⟨rfl, rfl, rfl, rfl⟩
theorem test_encode : Sys2Proof.encode .encRaw = 3 ∧ Sys2Proof.encode .decRaw = 4 := by decide

/-! The block cipher (§2.1) -/

/-- A1. -/
theorem test_aes_128 :
    aesEnc (hexBytes 16 0x000102030405060708090A0B0C0D0E0F) (hexBlock 0x00112233445566778899AABBCCDDEEFF) =
      hexBlock 0x69C4E0D86A7B0430D8CDB78070B4C55A := by decide +kernel
/-- A2. -/
theorem test_aes_192 :
    aesEnc (hexBytes 24 0x000102030405060708090A0B0C0D0E0F1011121314151617) (hexBlock 0x00112233445566778899AABBCCDDEEFF) =
      hexBlock 0xDDA97CA4864CDFE06EAF70A0EC0D7191 := by decide +kernel
/-- A3. -/
theorem test_aes_256 :
    aesEnc (hexBytes 32 0x000102030405060708090A0B0C0D0E0F101112131415161718191A1B1C1D1E1F)
        (hexBlock 0x00112233445566778899AABBCCDDEEFF) = hexBlock 0x8EA2B7CA516745BFEAFC49904B496089 := by decide +kernel
/-- A7. -/
theorem test_aes_dec_128 : aesDec (hexBytes 16 0) (hexBlock 0) = hexBlock 0x140F0F1011B5223D79587717FFD9EC3A := by decide +kernel
/-- A5, inverted. -/
theorem test_aes_dec_192 : aesDec (hexBytes 24 0) (hexBlock 0xAAE06992ACBF52A3E8F4A96EC9300BD7) = hexBlock 0 := by decide +kernel
/-- A6, inverted. -/
theorem test_aes_dec_256 : aesDec (hexBytes 32 0) (hexBlock 0xDC95C078A2408989AD48A21492842087) = hexBlock 0 := by decide +kernel
/-- R71's example. -/
theorem test_sbox : sbox 0x53 = 0xED ∧ invSbox 0xED = 0x53 ∧ sbox 0x00 = 0x63 ∧ sbox 0xFF = 0x16 := by decide +kernel
/-- §2.1: the column DB 13 53 45. -/
theorem test_mixColumns :
    mixColumn ⟨0xDB, 0x13, 0x53, 0x45⟩ = ⟨0x8E, 0x4D, 0xA1, 0xBC⟩ ∧ invMixColumn ⟨0x8E, 0x4D, 0xA1, 0xBC⟩ = ⟨0xDB, 0x13, 0x53, 0x45⟩ := by
  decide +kernel
/-- K1. -/
theorem test_keyExpansion_128 :
    let w := keyExpansion (hexBytes 16 0x2B7E151628AED2A6ABF7158809CF4F3C)
    w[4]? = some ⟨0xA0, 0xFA, 0xFE, 0x17⟩ ∧ w[43]? = some ⟨0xB6, 0x63, 0x0C, 0xA6⟩ ∧ w[44]? = none := by decide +kernel
/-- K2. -/
theorem test_keyExpansion_192 :
    let w := keyExpansion (hexBytes 24 0x8E73B0F7DA0E6452C810F32B809079E562F8EAD2522C6B7B)
    w[6]? = some ⟨0xFE, 0x0C, 0x91, 0xF7⟩ ∧ w[51]? = some ⟨0x01, 0x00, 0x22, 0x02⟩ ∧ w[52]? = none := by decide +kernel
/-- K3. -/
theorem test_keyExpansion_256 :
    let w := keyExpansion (hexBytes 32 0x603DEB1015CA71BE2B73AEF0857D77811F352C073B6108D72D9810A30914DFF4)
    w[12]? = some ⟨0xA8, 0xB0, 0x9C, 0x1A⟩ ∧ w[59]? = some ⟨0x70, 0x6C, 0x63, 0x1E⟩ ∧ w[60]? = none := by decide +kernel

/-! CBC and padding (§2.2 to §2.4) -/

/-- B1, blocks 0 and 1. -/
theorem test_cbcEnc_chains :
    cbcEnc (hexBytes 16 0x2B7E151628AED2A6ABF7158809CF4F3C) (hexBytes 16 0x000102030405060708090A0B0C0D0E0F)
        (hexBytes 32 0x6BC1BEE22E409F96E93D7E117393172AAE2D8A571E03AC9C9EB76FAC45AF8E51) =
      hexBytes 32 0x7649ABAC8119B246CEE98E9B12E9197D5086CB9B507219EE95DB113A917678B2 := by decide +kernel
/-- B3, blocks 0 and 1, decrypted. -/
theorem test_cbcDec_chains :
    cbcDec (hexBytes 32 0x603DEB1015CA71BE2B73AEF0857D77811F352C073B6108D72D9810A30914DFF4)
        (hexBytes 16 0x000102030405060708090A0B0C0D0E0F)
        (hexBytes 32 0xF58C4C04D6E5F1BA779EABFB5F7BFBD69CFC4E967EDB808D679F777BC6702C7D) =
      hexBytes 32 0x6BC1BEE22E409F96E93D7E117393172AAE2D8A571E03AC9C9EB76FAC45AF8E51 := by decide +kernel
/-- The pad table of §2.3, and V1's padding. -/
theorem test_pad :
    [0, 1, 4, 15, 16, 17, 31, 32, 4095, 4096].map padCount = [16, 15, 12, 1, 16, 15, 1, 16, 1, 16] ∧
    pad (hexBytes 4 0x74657374) = hexBytes 16 0x746573740C0C0C0C0C0C0C0C0C0C0C0C ∧ (pad []).length = 16 := by decide
/-- D1 to D7, D9 and D10. -/
theorem test_padValid :
    padValid (hexBytes 16 0x746573740C0C0C0C0C0C0C0C0C0C0C0C) = true ∧
    padValid (hexBytes 16 0x41414141414141414141414141414100) = false ∧
    padValid (hexBytes 16 0x41414141414141414141414141414111) = false ∧
    padValid (hexBytes 16 0x41414141414141414141414141410302) = false ∧
    padValid (hexBytes 16 0x10101010101010101010101010101010) = true ∧
    padValid (hexBytes 16 0x41414141414141414141414141414101) = true ∧
    padValid (hexBytes 16 0x11101010101010101010101010101010) = false ∧
    padValid (hexBytes 16 0x41414141414141414141414141410202) = true ∧
    padValid (hexBytes 16 0x41414141414141414141414141030302) = false := by decide
/-- D1, D5 and D8. -/
theorem test_unpad :
    unpad (hexBytes 16 0x746573740C0C0C0C0C0C0C0C0C0C0C0C) = hexBytes 4 0x74657374 ∧
    unpad (List.replicate 16 0x10) = [] ∧
    unpad (List.replicate 16 0x42 ++ List.replicate 16 0x10) = List.replicate 16 0x42 := by decide

/-! The commands, one step each -/

/-- V1. -/
theorem test_enc_test :
    seen0 (exec .enc (small (loaded (hexBytes 4 0x74657374))))
        (fun ch => (ch.err, ch.outLen, out 16 ch, [16, 47, 48].map ch.dout.get?)) =
      some (.ok, 16, all (hexBytes 16 0xA9313268EF30A1D8FFB00161CE2A5977), [some 0, some 0, none]) := by decide +kernel
/-- V4: the empty input, and the chaining value. -/
theorem test_enc_empty :
    seen0 (exec .enc (small (loaded []))) (fun ch => (ch.err, ch.outLen, regBytes ch.chain)) =
      some (.ok, 16, hexBytes 16 0x0143DB63EE66B0CDFF9F69917680151E) := by decide +kernel
/-- D1. -/
theorem test_dec_test :
    seen0 (exec .dec (small (loaded (hexBytes 16 0xA9313268EF30A1D8FFB00161CE2A5977))))
        (fun ch => (ch.err, ch.outLen, out 5 ch, regBytes ch.chain)) =
      some (.ok, 4, all (hexBytes 5 0x7465737400), hexBytes 16 0xA9313268EF30A1D8FFB00161CE2A5977) := by decide +kernel
/-- D7: no decrypted byte is visible, and `CHAIN` keeps its value. -/
theorem test_dec_invalid_padding :
    seen0 (exec .dec (small { loaded (hexBytes 16 0xEAEF77800500A91F1187F733C623D6A0) with chain := #v[1, 2, 3, 4] }))
        (fun ch => (ch.err, ch.outLen, out 16 ch, ch.chain)) =
      some (.paddingValidation, 0, all (List.replicate 16 0), #v[1, 2, 3, 4]) := by decide +kernel
/-- §2.3, last line: ENC_RAW of 16 × 10 equals V4. -/
theorem test_encRaw_block :
    seen0 (exec .encRaw (small (loaded (List.replicate 16 0x10)))) (fun ch => (ch.err, ch.outLen, out 16 ch)) =
      some (.ok, 16, all (hexBytes 16 0x0143DB63EE66B0CDFF9F69917680151E)) := by decide +kernel
/-- E17. -/
theorem test_encRaw_partial_block :
    seen0 (exec .encRaw (small (loaded (List.replicate 15 0)))) (fun ch => (ch.err, ch.outLen, out 1 ch)) =
      some (.invalidDataLength, 0, [some 0]) := by decide +kernel
/-- E23. -/
theorem test_decRaw_block :
    seen0 (exec .decRaw (small (loaded (List.replicate 16 0)))) (fun ch => (ch.err, ch.outLen, out 16 ch)) =
      some (.ok, 16, all (hexBytes 16 0x140F0F1011B5223D79587717FFD9EC3A)) := by decide +kernel
/-- E24. -/
theorem test_decRaw_partial_block :
    seen0 (exec .decRaw (small (loaded (List.replicate 15 0)))) (fun ch => (ch.err, ch.outLen)) =
      some (.invalidCiphertextLength, 0) := by decide +kernel
/-- W3: CLEAR checks nothing and leaves zeros. -/
theorem test_clear :
    seen0 (exec .clear (small { loaded (hexBytes 4 0x74657374) with keyLen := 17, werr := true }))
        (fun ch => (ch.statusWord, ch.keyLen, ch.inLen, ch.din.get? 0, ch.dout.get? 47)) =
      some (0x00000102, 0, 0, some 0, some 0) := by decide +kernel
/-- W1. -/
theorem test_nop_idle : seen (exec .nop (small Channel.reset)) (fun t => decide (t = small Channel.reset)) = some true := by decide
/-- R100, R52: NOP written to a BUSY channel is a dropped write. -/
theorem test_nop_busy :
    seen0 (exec .nop (small (loaded []))) (fun ch => (ch.busy, ch.werr, ch.job, ch.done)) = some (true, true, 1, false) := by decide
/-- W6 and W9: an illegal word ends with its error, whatever the key length. -/
theorem test_illegal_word :
    seen0 (runJob 0x00000101 (small { loaded [] with keyLen := 17 })) (fun ch => (ch.statusWord, ch.outLen, out 1 ch)) =
      some (0x00000052, 0, [some 0]) := by decide +kernel
/-- V10: key bytes above `KEY_LEN` are not used (R89). -/
theorem test_key_above_keyLen :
    { loaded [] with key := #v[0, 0, 0, 0, 0xA5A5A5A5, 0xA5A5A5A5, 0xA5A5A5A5, 0xA5A5A5A5] }.keyBytes = List.replicate 16 0 := by
  decide
/-- K1's key in its registers (P3's words). -/
theorem test_key_registers :
    { loaded [] with key := #v[0x16157E2B, 0xA6D2AE28, 0x8815F7AB, 0x3C4FCF09, 0, 0, 0, 0] }.keyBytes =
      hexBytes 16 0x2B7E151628AED2A6ABF7158809CF4F3C := by decide

/-! The checks (§2.6) -/

/-- The code a check of a data command on a channel with these lengths answers. -/
def checked (op : DataOp) (keyLen ivLen inLen : Word) : ErrCode :=
  match validate op 4096 { Channel.reset with keyLen := keyLen, ivLen := ivLen, inLen := inLen } with
  | .ok _ => .ok
  | .error code => code

/-- E1 to E11. -/
theorem test_key_material :
    ([0, 15, 17, 23, 25, 31, 33, 272].map fun n => checked .enc n 16 16) = List.replicate 8 .invalidKeyMaterial ∧
    ([0, 15, 17].map fun n => checked .enc 16 n 16) = List.replicate 3 .invalidKeyMaterial ∧
    ([16, 24, 32].map fun n => checked .dec n 16 16) = List.replicate 3 .ok := by decide
/-- E12 to E25. -/
theorem test_lengths :
    ([0, 15, 17, 4097].map fun n => checked .dec 16 16 n) =
      [.invalidCiphertextLength, .invalidCiphertextLength, .invalidCiphertextLength, .invalidDataLength] ∧
    ([0, 15, 16, 4097].map fun n => checked .encRaw 16 16 n) =
      [.invalidDataLength, .invalidDataLength, .ok, .invalidDataLength] ∧
    ([0, 4096, 4097, 0xFFFFFFFF].map fun n => checked .enc 16 16 n) = [.ok, .ok, .invalidDataLength, .invalidDataLength] ∧
    checked .dec 17 16 15 = .invalidKeyMaterial ∧ checked .decRaw 16 16 15 = .invalidCiphertextLength := by decide

/-! The bus (§2.8) -/

/-- B1, B2. -/
theorem test_id_and_config :
    State.reset.memRead 0x00000 = (0x41455343, 0) ∧ State.reset.memRead 0x00004 = (0x01000004, 0) := by decide
/-- B3. -/
theorem test_key_is_write_only :
    (State.reset.memWrite 0x10020 0xDEADBEEF).memRead 0x10020 = (0, 0) ∧
    ((State.reset.memWrite 0x10020 0xDEADBEEF).chan? 0).map (fun ch => ch.key[0]) = some 0xDEADBEEF := by decide
/-- B4. -/
theorem test_low_address_bits :
    (State.reset.memWrite 0x10042 0x11223344).memRead 0x10040 = (0x11223344, 0) ∧
    (State.reset.memWrite 0x10042 0x11223344).memRead 0x10043 = (0x11223344, 0) := by decide
/-- B5, B6, B8. -/
theorem test_reserved_absent_readOnly :
    (State.reset.memWrite 0x10018 5).memRead 0x10018 = (0, 0) ∧ State.reset.memRead 0x50000 = (0, 0) ∧
    State.reset.memRead 0xF0000 = (0, 0) ∧ (State.reset.memWrite 0x10014 7).memRead 0x10014 = (0, 0) := by decide
/-- B7. -/
theorem test_int_enable_bits : (State.reset.memWrite 0x0000C 0xFFFFFFFF).memRead 0x0000C = (0x0000000F, 0) := by decide
/-- B9. -/
theorem test_nop_word_is_not_accepted : (State.reset.memWrite 0x10000 0).memRead 0x10004 = (0, 0) := by decide
/-- B10. -/
theorem test_accepted_command :
    let s := State.reset.memWrite 0x10000 5
    s.memRead 0x10004 = (1, 0) ∧ s.memRead 0x00010 = (1, 0) ∧ s.memRead 0x00014 = (0, 0) := by decide
/-- B11. -/
theorem test_write_while_busy :
    let s := (State.reset.memWrite 0x10000 5).memWrite 0x10008 16
    s.memRead 0x10004 = (0x00000101, 0) ∧ s.memRead 0x10008 = (0, 0) := by decide
/-- R44 (P1's `DIN` word): the lowest address is the least significant lane. -/
theorem test_byte_lanes :
    (((small Channel.reset).memWrite 0x14000 0x74736574).chan? 0).map (fun ch => (List.range 4).map ch.din.get?) =
      some (all (hexBytes 4 0x74657374)) := by decide
/-- R42: the last word of each buffer, and the word after it. -/
theorem test_buffer_windows :
    locate 4 4096 0x14FFC = .din 0 4092 ∧ locate 4 4096 0x15000 = .reserved ∧ locate 4 4096 0x1900C = .dout 0 4108 ∧
    locate 4 4096 0x19010 = .reserved ∧ locate 4 16384 0x17FFC = .din 0 16380 ∧ locate 4 16384 0x18000 = .dout 0 0 := by decide
/-- B18: a word of a fresh buffer is four draws, and its value is theirs. -/
theorem test_fresh_buffer_is_drawn :
    (State.reset.memRead 0x14000).2 = 4 ∧ (State.reset.memRead 0x18000).2 = 4 ∧
    (State.reset.memRead 0x14000).1 =
      wordOfBytes (Config.freeByte 0) (Config.freeByte 1) (Config.freeByte 2) (Config.freeByte 3) := ⟨rfl, rfl, rfl⟩

/-! Steps -/

/-- B10 to B12: CLEAR accepted, its completion, the status and the interrupt. -/
theorem test_step_completion :
    seen (step (((small Channel.reset).memWrite 0x10000 5).memWrite 0x0000C 1 |>.setSched [.complete 0]))
        (fun t => [0x10004, 0x00008, 0x00014, 0x14000, 0x18000].map t.memRead) = some [(2, 0), (1, 0), (1, 0), (0, 0), (0, 0)] := by decide +kernel
/-- B13, B14: write-one-to-clear. -/
theorem test_step_acknowledge :
    seen (step ({ small { Channel.reset with werr := true, done := true } with intStatus := 1 }
        |>.setHost [.wr 0x00008 0xFFFFFFFF] |>.setSched [.host])) (fun t => (t.intStatus, t.irq)) = some (0, false) ∧
    seen (step ((small { Channel.reset with werr := true, done := true }).setHost [.wr 0x10004 0x100] |>.setSched [.host]))
        (fun t => (t.memRead 0x10004).1) = some 2 := by decide
/-- R67: a polling loop reads again until its condition holds. -/
theorem test_step_poll :
    seen (step ((small (loaded [])).setHost [.poll 0x10004 1 0] |>.setSched [.host])) (fun t => (t.reads, t.host)) =
      some ([1], [.poll 0x10004 1 0]) ∧
    seen (step ((small { Channel.reset with done := true }).setHost [.poll 0x10004 1 0] |>.setSched [.host]))
        (fun t => (t.reads, t.host)) = some ([2], []) := by decide
/-- R67, R122: a wait for the `irq` line makes no read and ends when an enabled bit is pending. -/
theorem test_step_await_irq :
    seen (step ({ small Channel.reset with intStatus := 2, intEnable := 1 } |>.setHost [.awaitIrq] |>.setSched [.host]))
        (fun t => (t.reads, t.host)) = some ([], [.awaitIrq]) ∧
    seen (step ({ small Channel.reset with intStatus := 2, intEnable := 3 } |>.setHost [.awaitIrq] |>.setSched [.host]))
        (fun t => (t.reads, t.host)) = some ([], []) := by decide
/-- R130: reset during a command. -/
theorem test_step_reset :
    seen (step ({ small (loaded [0x41]) with intStatus := 3, intEnable := 3 } |>.setSched [.reset]))
        (fun t => (t.chans, t.intStatus, t.intEnable)) = some ([Channel.reset, Channel.reset], 0, 0) := by decide
/-- Log entry 12: a scheduled completion that is not enabled changes nothing of the block. -/
theorem test_step_idle_completion :
    seen (step ((small Channel.reset).setSched [.complete 0])) (fun t => (t.chans, t.intStatus, t.sched)) =
      some ([Channel.reset, Channel.reset], 0, []) := by decide
/-- R131: a WAIT on a channel that stays BUSY may be chosen while the delay lasts, and no longer. -/
theorem test_step_delay :
    State.enabledMoves { small (loaded []) with host := [.poll 0x10004 1 0], delay := some 1 } = [.host, .complete 0] ∧
    State.enabledMoves { small (loaded []) with host := [.poll 0x10004 1 0], delay := some 0 } = [.complete 0] ∧
    State.enabledMoves { small Channel.reset with host := [.poll 0x10004 1 0], delay := some 0 } = [.host] := by decide
/-- R142: nothing enabled, nothing changes. -/
theorem test_step_at_rest : seen (step State.reset) (fun t => decide (t = State.reset)) = some true := by decide
/-- A placed command word is run by the next step (log entry 3): CLEAR, an illegal word, NOP. -/
theorem test_step_runs_placed_word :
    seen0 (step (State.reset.withFetchWord 32 5)) (fun ch => ch.statusWord) = some 2 ∧
    seen0 (step (State.reset.withFetchWord 32 6)) (fun ch => ch.statusWord) = some 0x52 ∧
    seen (step (State.reset.withFetchWord 32 0)) (fun t => decide (t = State.reset)) = some true := by decide +kernel

/-! The notation (R66 to R68) -/

/-- P1's first lines, in pseudo-instructions. -/
theorem test_expand_setIv :
    Pseudo.expand 4 4096 (.setIv 0 (hexBytes 16 0x000102030405060708090A0B0C0D0E0F)) =
      some [.wr 0x1000C 0x10, .wr 0x10040 0x03020100, .wr 0x10044 0x07060504, .wr 0x10048 0x0B0A0908, .wr 0x1004C 0x0F0E0D0C] := by
  decide
/-- P1's `SETIN 0, "test"`, and a last word filled up with zero lanes. -/
theorem test_expand_setIn :
    Pseudo.expand 4 4096 (.setIn 0 (hexBytes 4 0x74657374)) = some [.wr 0x14000 0x74736574, .wr 0x10010 4] ∧
    Pseudo.expand 4 4096 (.setIn 3 (hexBytes 5 0x6D73673041)) =
      some [.wr 0x44000 0x3067736D, .wr 0x44004 0x41, .wr 0x40010 5] := by decide
/-- `CMD`, `WAIT`, `WAITIRQ`, `RDBYTES` (R67). -/
theorem test_expand_others :
    Pseudo.expand 4 4096 (.cmd 1 .dec) = some [.wr 0x20000 2] ∧
    Pseudo.expand 4 4096 (.wait 0) = some [.poll 0x10004 1 0] ∧
    Pseudo.expand 4 4096 (.waitIrq .poll) = some [.poll 0x00014 1 1] ∧ Pseudo.expand 4 4096 (.waitIrq .line) = some [.awaitIrq] ∧
    Pseudo.expand 4 4096 (.rdBytes 0x18000 5) = some [.rd 0x18000, .rd 0x18004] ∧
    rdBytesResult 5 [0x74736574, 0xFFFFFF21] = hexBytes 5 0x7465737421 := by decide

/-! Witnesses: for every statement with hypotheses, states and operands that meet all of them together, at the boundary values of each
clause -/

/-- The hypotheses that the data commands' results share. -/
structure Ready (s : State) (ch : Channel) : Prop where
  params : Config.paramsOk s.numCh s.bufBytes = true
  now : s.chan? s.sel = some ch
  busy : ch.busy = true
  legal : KeyMaterialLegal ch

/-- A loaded channel on the small machine meets them. -/
theorem ready_small (input : List Byte) : Ready (small (loaded input)) (loaded input) :=
  ⟨(by decide : Config.paramsOk 2 32 = true), rfl, rfl, .inl rfl, rfl⟩

theorem ready_keyLen_24_32 :
    Ready (small { loaded [] with keyLen := 24 }) { loaded [] with keyLen := 24 } ∧
    Ready (small { loaded [] with keyLen := 32 }) { loaded [] with keyLen := 32 } :=
  ⟨⟨by decide, rfl, rfl, .inr (.inl rfl), rfl⟩, ⟨by decide, rfl, rfl, .inr (.inr rfl), rfl⟩⟩

/-- A 32-byte message of two blocks. -/
def twoBlocks : List Byte := List.replicate 32 0x41

/-- O3, O56. -/
theorem witness_StepRunsTheLatchedCommand :
    let s := (small (loaded [])).setSched [.complete 0]
    Config.paramsOk s.numCh s.bufBytes = true ∧ s.sched = .complete 0 :: [] ∧ s.chan? 0 = some (loaded []) ∧
    (loaded []).busy = true ∧ (loaded []).job ≠ 0 ∧ decode (loaded []).job = .ok .enc :=
  ⟨by decide, rfl, rfl, rfl, by decide, rfl⟩

/-- O4, at the first and the last channel, with the low address bits set. -/
theorem witness_StepRunsTheNopWrite :
    let s := (small (loaded [])).setHost [.wr 0x20003 0] |>.setSched [.host]
    Config.paramsOk s.numCh s.bufBytes = true ∧ s.sched = .host :: [] ∧ s.host = .wr 0x20003 0 :: [] ∧
    decode 0 = .ok .nop ∧ 1 < s.numCh ∧ (0x20003 : Addr).toNat / 4 * 4 = 0x10000 * (1 + 1) ∧
    (0x10000 : Addr).toNat / 4 * 4 = 0x10000 * (0 + 1) :=
  ⟨by decide, rfl, rfl, rfl, by decide, by decide, by decide⟩

/-- O5, the first illegal `OP` and a nonzero `RSV`. -/
theorem witness_IllegalWordCompletesWithItsError :
    (small (loaded [])).chan? (small (loaded [])).sel = some (loaded []) ∧ (loaded []).busy = true ∧
    ((0x00000006 : Word) ≠ 0 ∧ (0x00000006 : Word).toNat / 256 = 0 ∧ 6 ≤ (0x00000006 : Word).toNat % 256) ∧
    ((0x00000100 : Word) ≠ 0 ∧ (0x00000100 : Word).toNat / 256 ≠ 0) :=
  ⟨rfl, rfl, by decide, by decide⟩

/-- O6: the empty input and one that fills the buffer. -/
theorem witness_EncCompletes :
    (Ready (small (loaded [])) (loaded []) ∧ (loaded []).inLen.toNat ≤ (small (loaded [])).bufBytes) ∧
    (Ready (small (loaded twoBlocks)) (loaded twoBlocks) ∧ (loaded twoBlocks).inLen.toNat = (small (loaded twoBlocks)).bufBytes) :=
  ⟨⟨ready_small _, by decide⟩, ⟨ready_small _, by decide⟩⟩

/-- O7, O10: one block, and an input that fills the buffer. -/
theorem witness_RawCompletes :
    (Ready (small (loaded (List.replicate 16 0))) (loaded (List.replicate 16 0)) ∧ 0 < (loaded (List.replicate 16 0)).inLen.toNat ∧
      (loaded (List.replicate 16 0)).inLen.toNat % 16 = 0 ∧ (loaded (List.replicate 16 0)).inLen.toNat ≤ 32) ∧
    (Ready (small (loaded twoBlocks)) (loaded twoBlocks) ∧ 0 < (loaded twoBlocks).inLen.toNat ∧
      (loaded twoBlocks).inLen.toNat % 16 = 0 ∧ (loaded twoBlocks).inLen.toNat ≤ 32) :=
  ⟨⟨ready_small _, by decide, by decide, by decide⟩, ⟨ready_small _, by decide, by decide, by decide⟩⟩

/-- D1's ciphertext. -/
def goodCipher : List Byte := hexBytes 16 0xA9313268EF30A1D8FFB00161CE2A5977

/-- D7's ciphertext. -/
def badCipher : List Byte := hexBytes 16 0xEAEF77800500A91F1187F733C623D6A0

/-- O8: D1. -/
theorem witness_DecCompletes :
    Ready (small (loaded goodCipher)) (loaded goodCipher) ∧ 0 < (loaded goodCipher).inLen.toNat ∧
    (loaded goodCipher).inLen.toNat % 16 = 0 ∧ (loaded goodCipher).inLen.toNat ≤ 32 ∧
    padValid (cbcDec (loaded goodCipher).keyBytes (loaded goodCipher).ivBytes ((loaded goodCipher).input 0).1) = true :=
  ⟨ready_small _, by decide, by decide, by decide, by decide +kernel⟩

/-- O9: D7. -/
theorem witness_DecRejects :
    Ready (small (loaded badCipher)) (loaded badCipher) ∧ 0 < (loaded badCipher).inLen.toNat ∧
    (loaded badCipher).inLen.toNat % 16 = 0 ∧ (loaded badCipher).inLen.toNat ≤ 32 ∧
    padValid (cbcDec (loaded badCipher).keyBytes (loaded badCipher).ivBytes ((loaded badCipher).input 0).1) = false :=
  ⟨ready_small _, by decide, by decide, by decide, by decide +kernel⟩

/-- O11, O12, O16 and O19: a BUSY and an IDLE selected channel; for O16 a word of each kind. -/
theorem witness_BusyAndIdle :
    ((small (loaded [])).chan? (small (loaded [])).sel = some (loaded []) ∧ (loaded []).busy = true ∧ (1 : Word) ≠ 0 ∧
      (5 : Word) ≠ 0 ∧ (6 : Word) ≠ 0) ∧
    ((small Channel.reset).chan? (small Channel.reset).sel = some Channel.reset ∧ Channel.reset.busy = false) :=
  ⟨⟨rfl, rfl, by decide⟩, ⟨rfl, rfl⟩⟩

/-- O13: a key length and an IV length just outside. -/
theorem witness_IllegalKeyMaterial :
    ((small { loaded [] with keyLen := 17 }).chan? 0 = some { loaded [] with keyLen := 17 } ∧
      ((17 : Word) ≠ 16 ∧ (17 : Word) ≠ 24 ∧ (17 : Word) ≠ 32)) ∧
    ((small { loaded [] with ivLen := 15 }).chan? 0 = some { loaded [] with ivLen := 15 } ∧ (15 : Word) ≠ 16) :=
  ⟨⟨rfl, by decide⟩, ⟨rfl, by decide⟩⟩

/-- O14: no byte, and one byte more than a block. -/
theorem witness_IllegalCiphertextLength :
    (Ready (small (loaded [])) (loaded []) ∧ (loaded []).inLen.toNat ≤ 32 ∧ (loaded []).inLen.toNat = 0) ∧
    (Ready (small (loaded (List.replicate 17 0))) (loaded (List.replicate 17 0)) ∧ (loaded (List.replicate 17 0)).inLen.toNat ≤ 32 ∧
      (loaded (List.replicate 17 0)).inLen.toNat % 16 ≠ 0) :=
  ⟨⟨ready_small _, by decide, by decide⟩, ⟨ready_small _, by decide, by decide⟩⟩

/-- O15: one byte more than the buffer; for ENC_RAW no byte, and less than a block. -/
theorem witness_IllegalDataLength :
    (Ready (small (loaded (List.replicate 33 0))) (loaded (List.replicate 33 0)) ∧ 32 < (loaded (List.replicate 33 0)).inLen.toNat) ∧
    (Ready (small (loaded [])) (loaded []) ∧ (loaded []).inLen.toNat = 0) ∧
    (Ready (small (loaded (List.replicate 15 0))) (loaded (List.replicate 15 0)) ∧ (loaded (List.replicate 15 0)).inLen.toNat % 16 ≠ 0) :=
  ⟨⟨ready_small _, by decide⟩, ⟨ready_small _, by decide⟩, ⟨ready_small _, by decide⟩⟩

/-- O17: the failure of an illegal word. -/
theorem witness_AFailureErases :
    ∃ t ch', runJob 6 (small (loaded [])) = .next t ∧ (small (loaded [])).chan? 0 = some (loaded []) ∧ t.chan? 0 = some ch' ∧
      ch'.err ≠ .ok :=
  ⟨_, _, rfl, rfl, rfl, by decide⟩

/-- O18, O22, O23: a BUSY channel whose completion comes next, in a state that meets the invariant. -/
theorem witness_EveryAcceptedCommandCompletes :
    let s := (small (loaded [])).setSched [.complete 0]
    s.Inv ∧ s.sched = .complete 0 :: [] ∧ s.chan? 0 = some (loaded []) ∧ (loaded []).busy = true ∧ ∃ t, step s = .next t :=
  ⟨by decide, rfl, rfl, rfl, _, rfl⟩

/-- O19: every instruction answers a next state somewhere. -/
theorem witness_InstructionsChangeOnlyTheirChannel (i : Instr) : ∃ t, exec i (small (loaded [])) = .next t := by
  cases i <;> exact ⟨_, rfl⟩

/-- O20: equal channels with different numbers, on machines that differ elsewhere. -/
theorem witness_ChannelsDoNotInterfere :
    let s := small (loaded [])
    let s' := { s with chans := [Channel.reset, Channel.reset, loaded []], sel := 2, intStatus := 3, reads := [5] }
    s.chan? s.sel = some (loaded []) ∧ s'.chan? s'.sel = some (loaded []) ∧ s.bufBytes = s'.bufBytes ∧ s.draws = s'.draws ∧
      ∃ t, exec .enc s = .next t :=
  ⟨rfl, rfl, rfl, rfl, _, rfl⟩

/-- O24: a read while a command runs. -/
theorem witness_InputsAreFrozenWhileBusy :
    ∃ t ch', step ((small (loaded [])).setHost [.rd 0x10004] |>.setSched [.host]) = .next t ∧
      (small (loaded [])).chan? 0 = some (loaded []) ∧ (loaded []).busy = true ∧ t.chan? 0 = some ch' ∧ ch'.busy = true :=
  ⟨_, _, rfl, rfl, rfl, rfl, rfl⟩

/-- O25, O26: a completion, and a reset. -/
theorem witness_OnlyCompletionOrResetEndsACommand :
    (∃ t ch', step ((small (loaded [])).setSched [.complete 0]) = .next t ∧ (small (loaded [])).intStatus.getLsbD 0 = false ∧
      t.intStatus.getLsbD 0 = true ∧ t.chan? 0 = some ch' ∧ ch'.busy = false) ∧
    (∃ t ch', step ((small (loaded [])).setSched [.reset]) = .next t ∧ t.chan? 0 = some ch' ∧ ch'.busy = false) :=
  ⟨⟨_, _, rfl, rfl, rfl, rfl, rfl⟩, ⟨_, _, rfl, rfl, rfl⟩⟩

/-- O27: the host's write of `STATUS`, and a reset. -/
theorem witness_WerrIsSticky :
    let ch := { loaded [] with werr := true }
    (∃ t ch', step ((small ch).setHost [.wr 0x10004 0x100] |>.setSched [.host]) = .next t ∧ (small ch).chan? 0 = some ch ∧
      ch.werr = true ∧ t.chan? 0 = some ch' ∧ ch'.werr = false) ∧
    (∃ t ch', step ((small ch).setSched [.reset]) = .next t ∧ t.chan? 0 = some ch' ∧ ch'.werr = false) :=
  ⟨⟨_, _, rfl, rfl, rfl, rfl, rfl⟩, ⟨_, _, rfl, rfl, rfl⟩⟩

/-- O29: two commands in flight, nothing scheduled. -/
theorem witness_CommandsInFlightDrain :
    let s := { small (loaded []) with chans := [loaded [], loaded [0x41]] }
    s.Inv ∧ s.sched = [] ∧ s.host = [] ∧ ¬s.AllIdle := ⟨by decide, rfl, rfl, by decide⟩

/-- O57: two commands in flight, a poll that waits for both, a write that starts another, and a poll that never holds. -/
theorem witness_EveryCommandInFlightCompletes :
    let s := { small (loaded []) with
      chans := [loaded [], loaded [0x41]], host := [.poll 0x00010 3 0, .wr 0x10000 5, .poll 0x00000 1 0], sched := [.host, .complete 1] }
    s.Inv ∧ s.sched ≠ [] ∧ s.host ≠ [] ∧ ¬s.AllIdle ∧ (s.memRead 0x00010).1 &&& 3 ≠ 0 ∧ (s.memRead 0x00000).1 &&& 1 ≠ 0 := by decide

/-- O31: keys of each length. -/
theorem witness_KeySchedule :
    (hexBytes 16 1).length = 4 * 4 ∧ (hexBytes 24 1).length = 4 * 6 ∧ (hexBytes 32 1).length = 4 * 8 := by decide

/-- O33: no block and two blocks. -/
theorem witness_CbcChains : ([] : List Byte).length = 16 * 0 ∧ twoBlocks.length = 16 * 2 := by decide

/-- O34: a final byte that is valid and one that is not. -/
theorem witness_Padding :
    (0 < twoBlocks.length ∧ twoBlocks.length % 16 = 0 ∧ twoBlocks[twoBlocks.length - 1]? = some 0x41) ∧
    (0 < (pad []).length ∧ (pad []).length % 16 = 0 ∧ (pad [])[(pad []).length - 1]? = some 0x10) := by decide

/-- The input of a loaded channel is what it was loaded with. -/
theorem inputIs_loaded {input : List Byte} (h : input.length < 2 ^ 32) : InputIs (loaded input) input where
  inLen := by simp [loaded]; omega
  bytes := fun i hi => by simp [loaded, Memory.get?_ofBytes]

/-- What a data command leaves on the small machine. -/
def ended (body : Body) (ch : Channel) : Channel := ch.settle 32 (body 32 ch 0).1

theorem exec_enc_ended (ch : Channel) (hb : ch.busy = true) :
    ∃ t, exec .enc (small ch) = .next t ∧ t.chan? (small ch).sel = some (ended (dataBody .enc encCipher) ch) :=
  ⟨_, complete_of_busy (s := small ch) (ch := ch) _ rfl hb, State.afterBody_chan?_self (s := small ch) rfl _⟩

theorem exec_encRaw_ended (ch : Channel) (hb : ch.busy = true) :
    ∃ t, exec .encRaw (small ch) = .next t ∧ t.chan? (small ch).sel = some (ended (dataBody .encRaw encRawCipher) ch) :=
  ⟨_, complete_of_busy (s := small ch) (ch := ch) _ rfl hb, State.afterBody_chan?_self (s := small ch) rfl _⟩

/-- The message of the round trip. -/
def message : List Byte := hexBytes 4 0x74657374

/-- The channel that holds ENC's whole output as its input. -/
def back : Channel :=
  { loaded message with
    inLen := (ended (dataBody .enc encCipher) (loaded message)).outLen
    din := (ended (dataBody .enc encCipher) (loaded message)).dout }

/-- O36: "test" and back. -/
theorem witness_DecGivesBackWhatEncWasGiven :
    ∃ t mid, Ready (small (loaded message)) (loaded message) ∧ InputIs (loaded message) message ∧ message.length ≤ 32 ∧
      exec .enc (small (loaded message)) = .next t ∧ t.chan? (small (loaded message)).sel = some mid ∧
      Config.paramsOk (small back).numCh (small back).bufBytes = true ∧ (small back).chan? (small back).sel = some back ∧
      back.busy = true ∧ back.keyLen = (loaded message).keyLen ∧ back.keyBytes = (loaded message).keyBytes ∧
      back.ivLen = (loaded message).ivLen ∧ back.iv = (loaded message).iv ∧ back.inLen = mid.outLen ∧
      (∀ i, i < mid.outLen.toNat → back.din.get? i = mid.dout.get? i) ∧ mid.outLen.toNat ≤ (small back).bufBytes := by
  obtain ⟨t, ht, hmid⟩ := exec_enc_ended (loaded message) rfl
  exact ⟨t, _, ready_small _, inputIs_loaded (by decide), by decide, ht, hmid,
    (by decide : Config.paramsOk 2 32 = true), rfl, rfl, rfl, by simp only [Channel.keyBytes, back], rfl, rfl, rfl,
    fun i _ => rfl, by decide +kernel⟩

/-- The second chunk's channel: the first chunk's chaining value as its IV. -/
def secondChunk : Channel :=
  { loaded message with iv := (ended (dataBody .encRaw encRawCipher) (loaded (List.replicate 16 0))).chain }

theorem secondChunk_input : InputIs secondChunk message where
  inLen := by simp only [secondChunk]; exact (inputIs_loaded (by decide)).inLen
  bytes := by simp only [secondChunk]; exact (inputIs_loaded (by decide)).bytes

/-- O37: one block, then four bytes. -/
theorem witness_ChunkedEncEqualsOneShotEnc :
    let m₁ : List Byte := List.replicate 16 0
    ∃ t₁ out₁ t₂ out₂ t out,
      Config.paramsOk 2 32 = true ∧ KeyMaterialLegal (loaded m₁) ∧ InputIs (loaded m₁) m₁ ∧ 0 < m₁.length ∧ m₁.length % 16 = 0 ∧
      m₁.length ≤ 32 ∧ exec .encRaw (small (loaded m₁)) = .next t₁ ∧ t₁.chan? (small (loaded m₁)).sel = some out₁ ∧
      secondChunk.keyBytes = (loaded m₁).keyBytes ∧ secondChunk.iv = out₁.chain ∧ InputIs secondChunk message ∧
      exec .enc (small secondChunk) = .next t₂ ∧ t₂.chan? (small secondChunk).sel = some out₂ ∧
      InputIs (loaded (m₁ ++ message)) (m₁ ++ message) ∧ m₁.length + message.length ≤ 32 ∧
      exec .enc (small (loaded (m₁ ++ message))) = .next t ∧ t.chan? (small (loaded (m₁ ++ message))).sel = some out := by
  obtain ⟨t₁, h₁, o₁⟩ := exec_encRaw_ended (loaded (List.replicate 16 0)) rfl
  obtain ⟨t₂, h₂, o₂⟩ := exec_enc_ended secondChunk rfl
  obtain ⟨t, h, o⟩ := exec_enc_ended (loaded (List.replicate 16 0 ++ message)) rfl
  exact ⟨t₁, _, t₂, _, t, _, by decide, ⟨.inl rfl, rfl⟩, inputIs_loaded (by decide), by decide, by decide, by decide, h₁, o₁,
    by simp only [Channel.keyBytes, secondChunk, loaded], rfl, secondChunk_input, h₂, o₂,
    inputIs_loaded (by decide), by decide, h, o⟩

/-- What DEC_RAW leaves of a first block of zeros. -/
def firstHalf : Channel := ended (dataBody .decRaw decRawCipher) (loaded (List.replicate 16 0))

/-- The channel of the second chunk of a ciphertext: the chaining value the first left as its IV. -/
def secondHalf (c₂ : List Byte) : Channel := { loaded c₂ with iv := firstHalf.chain }

theorem secondHalf_input {c₂ : List Byte} (h : c₂.length < 2 ^ 32) : InputIs (secondHalf c₂) c₂ where
  inLen := (inputIs_loaded h).inLen
  bytes := (inputIs_loaded h).bytes

theorem exec_dec_ended (ch : Channel) (hb : ch.busy = true) :
    ∃ t, exec .dec (small ch) = .next t ∧ t.chan? (small ch).sel = some (ended (dataBody .dec decCipher) ch) :=
  ⟨_, complete_of_busy (s := small ch) (ch := ch) _ rfl hb, State.afterBody_chan?_self (s := small ch) rfl _⟩

/-- O58: one block of ciphertext, then another, with which DEC ends without an error. -/
theorem witness_ChunkedDecEqualsOneShotDec :
    let c₁ : List Byte := List.replicate 16 0
    let c₂ := goodCipher
    ∃ t₁ t₂ out₂ t out,
      Config.paramsOk 2 32 = true ∧ KeyMaterialLegal (loaded c₁) ∧ InputIs (loaded c₁) c₁ ∧ 0 < c₁.length ∧ c₁.length % 16 = 0 ∧
      c₁.length ≤ 32 ∧ exec .decRaw (small (loaded c₁)) = .next t₁ ∧ t₁.chan? (small (loaded c₁)).sel = some firstHalf ∧
      (secondHalf c₂).keyBytes = (loaded c₁).keyBytes ∧ (secondHalf c₂).iv = firstHalf.chain ∧ InputIs (secondHalf c₂) c₂ ∧
      0 < c₂.length ∧ c₂.length % 16 = 0 ∧ c₂.length ≤ 32 ∧ exec .dec (small (secondHalf c₂)) = .next t₂ ∧
      t₂.chan? (small (secondHalf c₂)).sel = some out₂ ∧ out₂.err = .ok ∧
      InputIs (loaded (c₁ ++ c₂)) (c₁ ++ c₂) ∧ c₁.length + c₂.length ≤ 32 ∧
      exec .dec (small (loaded (c₁ ++ c₂))) = .next t ∧ t.chan? (small (loaded (c₁ ++ c₂))).sel = some out := by
  obtain ⟨t₂, h₂, o₂⟩ := exec_dec_ended (secondHalf goodCipher) rfl
  obtain ⟨t, h, o⟩ := exec_dec_ended (loaded (List.replicate 16 0 ++ goodCipher)) rfl
  exact ⟨_, t₂, _, t, _, by decide, ⟨.inl rfl, rfl⟩, inputIs_loaded (by decide), by decide, by decide, by decide,
    complete_of_busy (s := small (loaded (List.replicate 16 0))) (ch := loaded (List.replicate 16 0)) _ rfl rfl,
    State.afterBody_chan?_self (s := small (loaded (List.replicate 16 0))) rfl _,
    by simp only [Channel.keyBytes, secondHalf, loaded], rfl, secondHalf_input (by decide), by decide, by decide, by decide, h₂, o₂,
    by decide +kernel, inputIs_loaded (by decide), by decide, h, o⟩

/-- O58's first clause where DEC of the second chunk ends with an error. -/
theorem witness_ChunkedDecEqualsOneShotDec_error :
    (ended (dataBody .dec decCipher) (secondHalf badCipher)).err = .paddingValidation := by decide +kernel

/-- O38: two channels that differ above `KEY_LEN`, above `IN_LEN` and in their results. -/
theorem witness_ResultsDependOnTheOperandsAlone :
    let a := loaded message
    let b := { a with
      key := #v[0, 0, 0, 0, 5, 5, 5, 5], din := a.din ++ [(4, 0x77)], outLen := 9, chain := #v[1, 2, 3, 4], werr := true }
    (small a).bufBytes = (small b).bufBytes ∧ (small a).chan? 0 = some a ∧ (small b).chan? 0 = some b ∧ b.busy = true ∧
      a.keyLen = b.keyLen ∧ a.keyBytes = b.keyBytes ∧ a.ivLen = b.ivLen ∧ a.iv = b.iv ∧ a.inLen = b.inLen ∧
      (∀ j, j < a.inLen.toNat → a.din.get? j ≠ none ∧ a.din.get? j = b.din.get? j) ∧
      ∃ t a', exec .enc (small a) = .next t ∧ t.chan? 0 = some a' := by
  obtain ⟨t, h, o⟩ := exec_enc_ended (loaded message) rfl
  exact ⟨rfl, rfl, rfl, rfl, rfl, by decide, rfl, rfl, rfl, by decide, t, _, h, o⟩

/-- O39. -/
theorem witness_OnlyUnwrittenBytesAreDraws :
    InputIs (loaded message) message ∧ (loaded message).din.get? 0 ≠ none ∧ (loaded message).din.get? 4 = none :=
  ⟨inputIs_loaded (by decide), by decide, by decide⟩

/-- O39 on the bus: a word of `DIN` with two specified bytes and two unspecified ones, on a BUSY channel; a word of `DOUT` with none specified, on
an IDLE one, at each end of its window; an input with a gap. -/
theorem witness_UnwrittenWords :
    let ch := { loaded [0x41] with din := [(0, 0x41), (2, 0x42)], inLen := 3 }
    Config.paramsOk (small ch).numCh (small ch).bufBytes = true ∧ (small ch).chan? 0 = some ch ∧ ch.busy = true ∧
    (0x14000 : Addr).toNat / 4 * 4 = 0x10000 * (0 + 1) + 0x4000 + 0 ∧ ch.din.unwritten 0 4 = 2 ∧ ch.din.unwritten 0 3 = 1 ∧
    (small ch).chan? 1 = some Channel.reset ∧ Channel.reset.busy = false ∧ Channel.reset.dout.unwritten 44 4 = 4 ∧
    (0x28000 : Addr).toNat / 4 * 4 = 0x10000 * (1 + 1) + 0x8000 + 0 ∧
    (0x2802C : Addr).toNat / 4 * 4 = 0x10000 * (1 + 1) + 0x8000 + 44 := by decide

/-- U1, R48: of a word with a gap, the specified bytes are as held and the gaps are the next free values, in order. -/
theorem test_gap_is_drawn :
    let ch := { loaded [0x41] with din := [(0, 0x41), (2, 0x42)] }
    (small ch).memRead 0x14000 = (wordOfBytes 0x41 (Config.freeByte 0) 0x42 (Config.freeByte 1), 2) := rfl

/-- O32: a block's bytes, and every row and column. -/
theorem witness_AesRules : (hexBytes 16 0x00112233445566778899AABBCCDDEEFF).length = 16 ∧ (3 : Nat) < 4 := by decide

/-- O40. -/
theorem witness_LowAddressBits : (0x10040 : Addr).toNat / 4 = (0x10043 : Addr).toNat / 4 := by decide

/-- O41: the first and the last address of each range, on the small machine. -/
theorem witness_Reserved :
    (0x30000 : Addr).toNat / 0x10000 > 2 ∧ (0xFFFFF : Addr).toNat / 0x10000 > 2 ∧
    (0x018 : Addr).toNat / 0x10000 = 0 ∧ 0x018 ≤ (0x018 : Addr).toNat ∧ (0x0FFFF : Addr).toNat / 0x10000 = 0 ∧
    (∀ a ∈ [(0x10018, 0x018), (0x1001F, 0x01F), (0x10060, 0x060), (0x13FFF, 0x3FFF), (0x14020, 0x4020), (0x17FFF, 0x7FFF),
        (0x18030, 0x8030), (0x2FFFF, 0xFFFF)],
      1 ≤ (BitVec.ofNat 20 a.1).toNat / 0x10000 ∧ (BitVec.ofNat 20 a.1).toNat / 0x10000 ≤ 2 ∧
      (BitVec.ofNat 20 a.1).toNat % 0x10000 = a.2 ∧
      (0x018 ≤ a.2 ∧ a.2 < 0x020 ∨ 0x060 ≤ a.2 ∧ a.2 < 0x4000 ∨ 0x4000 + 32 ≤ a.2 ∧ a.2 < 0x8000 ∨ 0x8000 + 32 + 16 ≤ a.2)) := by
  decide

/-- O42's poll: one whose condition holds, and one whose does not (`BUSY` is 1). -/
theorem witness_PollsReadAgain :
    let s := small (loaded [])
    (s.setHost [.poll 0x10004 1 1]).host = .poll 0x10004 1 1 :: [] ∧ (s.memRead 0x10004).1 &&& 1 = 1 ∧
      (s.setHost [.poll 0x10004 1 0]).host = .poll 0x10004 1 0 :: [] ∧ (s.memRead 0x10004).1 &&& 1 ≠ 0 := by decide

/-- O42's wait for the line: low, and high. -/
theorem witness_AwaitIrq :
    let low := { small Channel.reset with intStatus := 2, intEnable := 1, host := [.awaitIrq] }
    let high := { low with intEnable := 3 }
    low.host = .awaitIrq :: [] ∧ low.intStatus &&& low.intEnable = 0 ∧ high.host = .awaitIrq :: [] ∧
      high.intStatus &&& high.intEnable ≠ 0 := by decide

/-- O59: a command word written to an IDLE channel, the no-operation word and a register; the host named by the schedule. -/
theorem witness_AHostWriteIsMade :
    let s := (small Channel.reset).setSched [.host]
    Config.paramsOk s.numCh s.bufBytes = true ∧ s.sched = .host :: [] ∧
      (∀ op ∈ [HostOp.wr 0x10000 5, HostOp.wr 0x10003 0, HostOp.wr 0x0000C 1], (s.setHost [op]).host = op :: []) := by decide

/-- O60: nothing enabled, the host alone, and a BUSY channel. -/
theorem witness_AFreeStepMakesAnEnabledMove :
    Config.paramsOk (small (loaded [])).numCh (small (loaded [])).bufBytes = true ∧ (small (loaded [])).sched = [] ∧
    ¬(small (loaded [])).AllIdle ∧ (small Channel.reset).AllIdle ∧ (small Channel.reset).host = [] ∧
    ((small Channel.reset).setHost [.rd 0]).host ≠ [] := by decide

/-- O42, a read that uses no free value and one that does; and a second state of the same block. -/
theorem witness_ReadsChangeNothing :
    let s := (small (loaded [])).setHost [.rd 0x10004]
    s.host = .rd 0x10004 :: [] ∧ (s.memRead 0x10004).2 = s.draws ∧ (s.memRead 0x24000).2 = s.draws + 4 ∧
      SameBlock s ({ s with reads := [7], draws := 9 }) := ⟨rfl, by decide, rfl, rfl, rfl, rfl, rfl⟩

/-- O43, O52, O53, O54: the words of the global bank. -/
theorem witness_GlobalWords :
    Config.paramsOk (small Channel.reset).numCh (small Channel.reset).bufBytes = true ∧ (small Channel.reset).Inv ∧
    (0x00003 : Addr).toNat / 4 * 4 = 0x000 ∧ (0x00004 : Addr).toNat / 4 * 4 = 0x004 ∧ (0x00008 : Addr).toNat / 4 * 4 = 0x008 ∧
    (0x0000C : Addr).toNat / 4 * 4 = 0x00C ∧ (0x00010 : Addr).toNat / 4 * 4 = 0x010 ∧ (0x00017 : Addr).toNat / 4 * 4 = 0x014 := by
  decide

/-- O44 to O49, O51: an IDLE channel, and addresses of its registers and the ends of its windows. -/
theorem witness_ChannelWords :
    Config.paramsOk (small Channel.reset).numCh (small Channel.reset).bufBytes = true ∧
    (small Channel.reset).chan? 1 = some Channel.reset ∧ Channel.reset.busy = false ∧
    (∀ off ∈ [0x000, 0x004, 0x008, 0x00C, 0x010, 0x014, 0x020 + 4 * 0, 0x020 + 4 * 7, 0x040 + 4 * 0, 0x040 + 4 * 3,
        0x050 + 4 * 0, 0x050 + 4 * 3, 0x4000 + 0, 0x4000 + 28, 0x8000 + 0, 0x8000 + 44],
      (BitVec.ofNat 20 (0x20000 + off)).toNat / 4 * 4 = 0x10000 * (1 + 1) + off) ∧ 28 < 32 ∧ 44 < 32 + 16 := by
  decide

/-- O45, O47, O48: a BUSY channel, whose registers hold what was written before, and a specified word of `DIN`. -/
theorem witness_OperandsReadWhileBusy :
    let ch := loaded (hexBytes 4 0x74657374)
    (small ch).chan? 0 = some ch ∧ ch.busy = true ∧ (∀ l : Fin 4, ch.din.get? (0 + l) = some ((hexBytes 4 0x74657374).getD l 0)) ∧
    (0x14000 : Addr).toNat / 4 * 4 = 0x10000 * (0 + 1) + 0x4000 + 0 ∧ (0x1004C : Addr).toNat / 4 * 4 = 0x10000 * (0 + 1) + 0x040 + 4 * 3 := by
  decide
/-- R52: reads of the operands while BUSY give their stored values (P1's `DIN` word). -/
theorem test_operands_read_while_busy :
    (small (loaded (hexBytes 4 0x74657374))).memRead 0x14000 = (0x74736574, 0) ∧
    (small (loaded (hexBytes 4 0x74657374))).memRead 0x10008 = (16, 0) ∧
    (small (loaded (hexBytes 4 0x74657374))).memRead 0x10010 = (4, 0) := by decide

/-- O49: a specified word of `DOUT`, on an IDLE channel and on a BUSY one. -/
theorem witness_ResultsAreMasked :
    let ch := { Channel.reset with dout := Memory.ofBytes 0 (List.replicate 48 0x5A) }
    (small ch).chan? 0 = some ch ∧ ch.busy = false ∧ (∀ l : Fin 4, ch.dout.get? (44 + l) = some 0x5A) ∧
    (small (loaded [])).chan? 0 = some (loaded []) ∧ (loaded []).busy = true := by decide

/-- O50, and O51 on a BUSY channel: the first and the last protected offset of each range. -/
theorem witness_ProtectedWrites :
    Config.paramsOk (small (loaded [])).numCh (small (loaded [])).bufBytes = true ∧
    (small (loaded [])).chan? 0 = some (loaded []) ∧ (loaded []).busy = true ∧
    (∀ off ∈ [0x000, 0x008, 0x00C, 0x010, 0x020, 0x04C, 0x4000, 0x401C],
      (BitVec.ofNat 20 (0x10000 + off)).toNat / 4 * 4 = 0x10000 * (0 + 1) + off ∧
      (off = 0x000 ∨ off = 0x008 ∨ off = 0x00C ∨ off = 0x010 ∨ 0x020 ≤ off ∧ off ≤ 0x04C ∨ 0x4000 ≤ off ∧ off < 0x4000 + 32)) := by
  decide

/-- R67: `SETKEY` of 5 bytes fills the second word up with zero lanes and writes no third. -/
theorem test_expand_setKey :
    Pseudo.expand 4 4096 (.setKey 1 (hexBytes 5 0x0102030405)) = some [.wr 0x20008 5, .wr 0x20020 0x04030201, .wr 0x20024 0x05] := by
  decide

/-- O55: keys of 0, 5 and 32 bytes, so that each clause on a key byte is met (5 bytes: byte 4, byte 5 and byte 8). -/
theorem witness_SetKey :
    Config.paramsOk (small Channel.reset).numCh (small Channel.reset).bufBytes = true ∧
    (small Channel.reset).chan? 1 = some Channel.reset ∧ Channel.reset.busy = false ∧
    ([] : List Byte).length ≤ 32 ∧ (hexBytes 5 7).length ≤ 32 ∧ (hexBytes 32 7).length ≤ 32 := by decide

end Sys2Proof.Tests
end

section
/-! The invariant of the machine over a host write, a completion, a reset, a move and a step; and at reset. -/

namespace Sys2Proof.Machine

section

variable {numCh bufBytes : Nat} (h : Config.paramsOk numCh bufBytes = true)
include h

theorem numCh_le_of_paramsOk : numCh ≤ 15 := by
  rw [paramsOk_iff] at h
  omega

theorem bufBytes_le_of_paramsOk : bufBytes ≤ 0x4000 := by
  rw [paramsOk_iff] at h
  omega

theorem bufBytes_mod_of_paramsOk : bufBytes % 16 = 0 := by
  rw [paramsOk_iff] at h
  omega

end

theorem Channel.reset_inv (n : Nat) : Channel.reset.Inv n := by
  simp [Channel.Inv, Channel.reset, Memory.wf_nil, Memory.below_nil]

/-- Whatever a host write does keeps the invariant (R49). -/
theorem Written.inv {s t : State} (hw : Written s t) (h : s.Inv) : t.Inv := by
  obtain ⟨hparams, hstatus, henable, hchans⟩ := h
  have hn := numCh_le_of_paramsOk hparams
  cases hw with
  | nothing => exact ⟨hparams, hstatus, henable, hchans⟩
  | intStatus v => exact ⟨hparams, and_channelMask_lt hn _, henable, hchans⟩
  | intEnable v => exact ⟨hparams, hstatus, and_channelMask_lt hn v, hchans⟩
  | channel c ch ch' hch hw =>
    exact State.setChan_inv ⟨hparams, hstatus, henable, hchans⟩ c (hw.inv (hchans ch (State.chan?_mem hch)))

/-- However its body ends, a completion of the selected channel keeps the invariant (R119). -/
theorem State.afterBody_inv {s : State} {ch : Channel} {ran : Except ErrCode Channel × Nat} (h : s.Inv)
    (hch : s.chan? s.sel = some ch) (hends : BodyEnds s.bufBytes ch ran.1) : (s.afterBody ch ran).Inv := by
  obtain ⟨hparams, hstatus, henable, hchans⟩ := h
  have hn := numCh_le_of_paramsOk hparams
  have hbuf := bufBytes_le_of_paramsOk hparams
  have hsettled := hends.settle_inv (by omega) (hchans ch (State.chan?_mem hch))
  obtain ⟨_, _, _, hchans'⟩ := State.setChan_inv ⟨hparams, hstatus, henable, hchans⟩ s.sel hsettled
  have hstatus' := or_channelBit_lt (State.chan?_lt hch) hn hstatus
  exact ⟨by simpa using hparams, by simpa using hstatus', by simpa using henable, hchans'⟩

/-- A reset of the block leaves it meeting the invariant, where the parameters are in range (R38, R130). -/
theorem State.resetBlock_inv {s : State} (hparams : Config.paramsOk s.numCh s.bufBytes = true) : s.resetBlock.Inv := by
  refine ⟨by simpa [State.numCh] using hparams, by simp, by simp, fun ch hch => ?_⟩
  rw [List.eq_of_mem_replicate hch]
  exact Channel.reset_inv _

/-- Whatever the block does in one step keeps the invariant. -/
theorem Moved.inv {s u t : State} (hm : Moved s u t) (h : u.Inv) : t.Inv := by
  have ⟨hparams, _⟩ := h
  cases hm with
  | quiet hsame => exact hsame.inv h
  | wrote a v rest hhost hsame =>
    have h16 := bufBytes_mod_of_paramsOk hparams
    exact hsame.inv ((u.memWrite_written h16 a v).inv h)
  | completed ch body hch hbusy hjob hends => exact State.afterBody_inv h hch (hends _ _ _)
  | reset rest hsched => exact State.resetBlock_inv hparams

/-- Settles O22: the step's inversion lemma, and the invariant over each of its moves. -/
theorem everyStepKeepsTheInvariant : Obligations.EveryStepKeepsTheInvariant := by
  intro s t h hstep
  obtain ⟨_, u, hsame, hmoved⟩ := step_next hstep
  exact hmoved.inv (hsame.inv h)

/-- Settles O21: the reset state is a block just reset, with the default parameters in range. -/
theorem resetMeetsTheInvariant : Obligations.ResetMeetsTheInvariant :=
  State.resetBlock_inv (s := State.reset) (by decide)

end Sys2Proof.Machine
end

section
/-! What an instruction changes: the frame of NOP's write and of the completions. -/

namespace Sys2Proof.Machine

theorem OnlyChannel.refl (c : Nat) (s : State) : OnlyChannel c s s where
  bufBytes := rfl
  numCh := rfl
  others := fun _ _ => rfl
  intStatus := .inl rfl
  intEnable := rfl
  sel := rfl
  host := rfl
  sched := rfl
  reads := rfl
  delay := rfl

theorem State.setChan_onlyChannel (s : State) (c : Nat) (ch : Channel) : OnlyChannel c s (s.setChan c ch) where
  bufBytes := rfl
  numCh := by simp
  others := fun _ hd => s.chan?_setChan_ne hd ch
  intStatus := .inl rfl
  intEnable := rfl
  sel := rfl
  host := rfl
  sched := rfl
  reads := rfl
  delay := rfl

theorem State.protectedWrite_onlyChannel (s : State) (c : Nat) (f : Channel → Channel) :
    OnlyChannel c s (s.protectedWrite c f) := by
  rcases s.protectedWrite_cases c f with h | ⟨ch, _, ⟨_, h⟩ | ⟨_, h⟩⟩ <;> rw [h]
  · exact .refl c s
  · exact s.setChan_onlyChannel c _
  · exact s.setChan_onlyChannel c _

/-- Outside its channel an instruction changes that channel's interrupt bit only (R37, R58). -/
theorem exec_onlyChannel {i : Instr} {s t : State} (h : exec i s = .next t) : OnlyChannel s.sel s t := by
  cases hbody : bodyOf i with
  | none =>
    cases i <;> simp only [bodyOf, reduceCtorEq] at hbody
    rw [exec_nop] at h
    cases h
    exact s.protectedWrite_onlyChannel s.sel _
  | some body =>
    rw [exec_of_body hbody] at h
    obtain ⟨ch, _, _, rfl⟩ := complete_next h
    exact s.afterBody_onlyChannel ch _

/-- The body of each data command is the frame they share, with the command's own cipher (R90 to R95). -/
theorem bodyOf_data {i : Instr} (h : i = .enc ∨ i = .dec ∨ i = .encRaw ∨ i = .decRaw) :
    ∃ op cipher, bodyOf i = some (dataBody op cipher) := by
  rcases h with rfl | rfl | rfl | rfl <;> exact ⟨_, _, rfl⟩

/-- Settles O19: NOP is a write to the selected channel, every other instruction a completion of it; and the data commands'
shared frame keeps the inputs. -/
theorem instructionsChangeOnlyTheirChannel : Obligations.InstructionsChangeOnlyTheirChannel := by
  intro i s t h
  refine ⟨exec_onlyChannel h, fun hdata => ?_⟩
  obtain ⟨op, cipher, hbody⟩ := bodyOf_data hdata
  rw [exec_of_body hbody] at h
  obtain ⟨ch, hch, _, rfl⟩ := complete_next h
  exact ⟨ch, _, hch, State.afterBody_chan?_self hch _, dataBody_inputsKept op cipher _ ch _⟩

end Sys2Proof.Machine
end

section
/-! One read and one write of a register or word: where its address leads, what the location holds, and what the write stores. -/

namespace Sys2Proof.Machine

/-! Where an address leads -/

theorem State.locate_global {s : State} {a : Addr} {off : Nat} (hoff : off < 0x10000) (ha : a.toNat / 4 * 4 = off) :
    s.locate a = globalLoc off := by
  subst ha
  exact Machine.locate_global _ _ (by omega)

/-- An address in a window of a channel bank, by the offset of its word from the window's first (R41, R42). -/
theorem State.locate_window {s : State} {c base i : Nat} {ch : Channel} {a : Addr} {l : Loc} (hch : s.chan? c = some ch)
    (ha : a.toNat / 4 * 4 = 0x10000 * (c + 1) + base + i) (hoff : base + i < 0x10000)
    (hl : channelLoc s.bufBytes c (base + i) = l) : s.locate a = l :=
  (State.locate_channel hch hoff (ha.trans (Nat.add_assoc _ _ _))).trans hl

theorem State.memRead_of_locate {s : State} {a : Addr} {l : Loc} (h : s.locate a = l) : s.memRead a = s.readLoc l :=
  congrArg s.readLoc h

theorem State.memWrite_of_locate {s : State} {a : Addr} {l : Loc} (h : s.locate a = l) (v : Word) :
    s.memWrite a v = s.writeLoc v l :=
  congrArg (s.writeLoc v) h

/-! What a channel's location holds, and its `STATUS` after a write -/

theorem State.chanWord_of_some {s : State} {c : Nat} {ch : Channel} (hch : s.chan? c = some ch) (word : Channel → Word) :
    s.chanWord c word = word ch := by
  simp [State.chanWord, hch]

theorem State.readLoc_din {s : State} {c : Nat} {ch : Channel} (hch : s.chan? c = some ch) (j : Nat) :
    s.readLoc (.din c j) = ch.din.drawWord j s.draws := by
  simp [State.readLoc, State.chanDraw, hch]

theorem State.readLoc_dout {s : State} {c : Nat} {ch : Channel} (hch : s.chan? c = some ch) (j : Nat) :
    s.readLoc (.dout c j) = if ch.busy then (0, s.draws) else ch.dout.drawWord j s.draws := by
  simp [State.readLoc, State.chanDraw, hch]

theorem State.statusWrite_of_some {s : State} {c : Nat} {ch : Channel} (hch : s.chan? c = some ch) (v : Word) :
    s.statusWrite c v = s.setChan c { ch with werr := ch.werr && !v.getLsbD 8 } := by
  simp [State.statusWrite, hch]

/-! Words of a buffer -/

/-- A word whose four bytes are specified is read with no draw, and its lanes are those bytes (R44). -/
theorem Memory.drawWord_lanes {m : Memory} {j : Nat} {b : Fin 4 → Byte} (h : ∀ l : Fin 4, m.get? (j + l) = some (b l))
    (draws : Nat) : ∃ r, m.drawWord j draws = (r, draws) ∧ ∀ l : Fin 4, r.extractLsb' (8 * l) 8 = b l := by
  refine ⟨_, Memory.drawWord_of_some h draws, fun l => ?_⟩
  obtain ⟨h0, h1, h2, h3⟩ := lane_wordOfBytes (b 0) (b 1) (b 2) (b 3)
  match l with
  | 0 => exact h0
  | 1 => exact h1
  | 2 => exact h2
  | 3 => exact h3

/-- A word is read back as it was written. -/
theorem Memory.drawWord_setWord (m : Memory) (j : Nat) (v : Word) (draws : Nat) :
    (m.setWord j v).drawWord j draws = (v, draws) := by
  have hlanes : ∀ l : Fin 4, (m.setWord j v).get? (j + l) = some (lane v l) := fun l => by
    rw [Memory.get?_setWord, if_pos (by omega), Nat.add_sub_cancel_left]
  exact (Memory.drawWord_of_some hlanes draws).trans (congrArg (·, draws) (wordOfBytes_lanes v))

/-! A register that a host write stores to while the channel is IDLE -/

section

variable {s : State} {c : Nat} {ch : Channel} {a : Addr} {v : Word} {l : Loc} {store : Channel → Channel}
  (hch : s.chan? c = some ch) (hloc : s.locate a = l)
include hch hloc

/-- A write that R52 protects, made while the channel is IDLE. -/
theorem State.memWrite_of_idle (hwrite : s.writeLoc v l = s.protectedWrite c store) (hidle : ch.busy = false) :
    s.memWrite a v = s.setChan c (store ch) := by
  rw [State.memWrite_of_locate hloc, hwrite]
  exact State.protectedWrite_of_idle hch hidle store

/-- A read at the same address after such a write sees the channel that the write made. -/
theorem State.memRead_memWrite_of_idle (hwrite : s.writeLoc v l = s.protectedWrite c store) (hidle : ch.busy = false) :
    (s.memWrite a v).memRead a = (s.setChan c (store ch)).readLoc l ∧
      (s.setChan c (store ch)).chan? c = some (store ch) := by
  rw [State.memWrite_of_idle hch hloc hwrite hidle]
  exact ⟨State.memRead_of_locate ((s.locate_setChan c _ a).trans hloc), State.chan?_setChan_self hch _⟩

/-- A register's word is read with no draw. -/
theorem State.memRead_register {word : Channel → Word} (hread : s.readLoc l = (s.chanWord c word, s.draws)) :
    s.memRead a = (word ch, s.draws) := by
  rw [State.memRead_of_locate hloc, hread, State.chanWord_of_some hch]

/-- A register that reads as it is held, IDLE or BUSY, and that a write while IDLE stores to, reads back the word written. -/
theorem State.heldRegister {held : Channel → Word} (hread : ∀ t : State, t.readLoc l = (t.chanWord c held, t.draws))
    (hwrite : s.writeLoc v l = s.protectedWrite c store) (hstore : held (store ch) = v) :
    s.memRead a = (held ch, s.draws) ∧
      (ch.busy = false → s.memWrite a v = s.setChan c (store ch) ∧ (s.memWrite a v).memRead a = (v, s.draws)) := by
  refine ⟨State.memRead_register hch hloc (hread s), fun hidle => ⟨State.memWrite_of_idle hch hloc hwrite hidle, ?_⟩⟩
  obtain ⟨hback, hnow⟩ := State.memRead_memWrite_of_idle hch hloc hwrite hidle
  rw [hback, hread, State.chanWord_of_some hnow, hstore, State.setChan_draws]

end

end Sys2Proof.Machine
end

section
/-! The registers and windows of a channel bank. -/

namespace Sys2Proof.Machine

/-- Settles O46: a write of `KEYk` sets one register of the row, and no read gives it. -/
theorem keyRegistersAreWriteOnly : Obligations.KeyRegistersAreWriteOnly := by
  intro s c k ch a v hch hk ha
  have hloc : s.locate a = .key c ⟨k, hk⟩ :=
    State.locate_window hch ha (by omega) (channelLoc_key s.bufBytes c ⟨k, hk⟩)
  refine ⟨State.memRead_of_locate hloc, fun hidle => ⟨ch.key.set k v, ?_, fun i _ => regBytes_set ch.key hk v i⟩⟩
  exact State.memWrite_of_idle hch hloc (store := fun ch => { ch with key := ch.key.set k v }) rfl hidle

/-- Settles O47: a write of `IVk` sets one register of the row, which reads as it is held. -/
theorem ivRegistersReadBackWhatWasWritten : Obligations.IvRegistersReadBackWhatWasWritten := by
  intro s c k ch a v hch ha
  have hloc : s.locate a = .iv c k :=
    State.locate_window hch ha (by omega) (channelLoc_iv s.bufBytes c k)
  obtain ⟨hread, hwrite⟩ := State.heldRegister hch hloc (v := v) (held := fun ch => ch.iv[k])
    (store := fun ch => { ch with iv := ch.iv.set k v }) (fun _ => rfl) rfl (by simp)
  refine ⟨hread, fun hidle => ⟨ch.iv.set k v, ?_⟩⟩
  obtain ⟨hstored, hback⟩ := hwrite hidle
  exact ⟨hstored, hback, fun i _ => regBytes_set ch.iv k.isLt v i⟩

/-- Settles O48: a word of `DIN` is four bytes of the buffer. -/
theorem dinKeepsTheWrittenLanes : Obligations.DinKeepsTheWrittenLanes := by
  intro s c j ch a v hparams hch hj ha
  have hbuf := bufBytes_le_of_paramsOk hparams
  have hloc : s.locate a = .din c j :=
    State.locate_window hch ha (by omega) (channelLoc_dinWord c hj)
  refine ⟨fun b hb => ?_, fun hidle => ⟨ch.din.setWord j v, ?_, ?_, fun i => Memory.get?_setWord ch.din j i v⟩⟩
  · rw [State.memRead_of_locate hloc, State.readLoc_din hch]
    exact Memory.drawWord_lanes hb s.draws
  · exact State.memWrite_of_idle hch hloc (store := fun ch => { ch with din := ch.din.setWord j v }) rfl hidle
  · obtain ⟨hback, hnow⟩ := State.memRead_memWrite_of_idle hch hloc (v := v)
      (store := fun ch => { ch with din := ch.din.setWord j v }) rfl hidle
    rw [hback, State.readLoc_din hnow, State.setChan_draws]
    exact Memory.drawWord_setWord ch.din j v s.draws

/-- Settles O49: the reads of the three results go through the mask of `BUSY`, and their locations take no write. -/
theorem resultsAreMaskedWhileBusy : Obligations.ResultsAreMaskedWhileBusy := by
  intro s c ch a v hparams hch
  have hbuf := bufBytes_le_of_paramsOk hparams
  refine ⟨fun ha => ?_, fun k ha => ?_, fun j hj ha => ?_⟩
  · have hloc : s.locate a = .outLen c := State.locate_channel hch (by decide) ha
    exact ⟨State.memRead_register hch hloc rfl, State.memWrite_of_locate hloc v⟩
  · have hloc : s.locate a = .chain c k :=
      State.locate_window hch ha (by omega) (channelLoc_chain s.bufBytes c k)
    exact ⟨State.memRead_register hch hloc rfl, State.memWrite_of_locate hloc v⟩
  · have hloc : s.locate a = .dout c j :=
      State.locate_window hch ha (by omega) (channelLoc_doutWord c hbuf hj)
    have hread := (State.memRead_of_locate hloc).trans (State.readLoc_dout hch j)
    refine ⟨fun hbusy => ?_, fun hidle b hb => ?_, State.memWrite_of_locate hloc v⟩
    · rw [hread, if_pos hbusy]
    · rw [hread, if_neg (by simp [hidle])]
      exact Memory.drawWord_lanes hb s.draws

/-- Settles O45: each length register reads as it is held and stores the word written. -/
theorem lengthRegistersKeepTheWrittenWord : Obligations.LengthRegistersKeepTheWrittenWord := by
  intro s c ch a v hch
  refine ⟨fun ha => ?_, fun ha => ?_, fun ha => ?_⟩
  · have hloc : s.locate a = .keyLen c := State.locate_channel hch (by decide) ha
    exact State.heldRegister hch hloc (store := fun ch => { ch with keyLen := v }) (fun _ => rfl) rfl rfl
  · have hloc : s.locate a = .ivLen c := State.locate_channel hch (by decide) ha
    exact State.heldRegister hch hloc (store := fun ch => { ch with ivLen := v }) (fun _ => rfl) rfl rfl
  · have hloc : s.locate a = .inLen c := State.locate_channel hch (by decide) ha
    exact State.heldRegister hch hloc (store := fun ch => { ch with inLen := v }) (fun _ => rfl) rfl rfl

/-- Settles O51: a write of `CMD` is accepted, does nothing or is dropped, by `BUSY` and by whether the word is 0. -/
theorem aNonzeroCommandWordIsAccepted : Obligations.ANonzeroCommandWordIsAccepted := by
  intro s c ch a v hch ha
  have hloc : s.locate a = .cmd c := State.locate_channel hch (off := 0) (by decide) ha
  have hwrite : s.memWrite a v = s.cmdWrite c v := State.memWrite_of_locate hloc v
  refine ⟨fun hidle hv => ?_, fun hidle hv => ?_, fun hbusy => ?_, State.memRead_of_locate hloc⟩
  · rw [hwrite, State.cmdWrite, State.protectedWrite_of_idle hch hidle, if_neg hv]
    rfl
  · rw [hwrite, State.cmdWrite, State.protectedWrite_of_idle hch hidle, if_pos hv, State.setChan_same hch]
  · rw [hwrite, State.cmdWrite, State.protectedWrite_of_busy hch hbusy]
    rfl

end Sys2Proof.Machine
end

section
/-! The bits of `STATUS`. -/

namespace Sys2Proof.Machine

/-- A word below `2 ^ n` has no bit from `n` on. -/
theorem Word.getLsbD_of_toNat_lt {w : Word} {n b : Nat} (h : w.toNat < 2 ^ n) (hb : n ≤ b) : w.getLsbD b = false :=
  Nat.testBit_lt_two_pow (Nat.lt_of_lt_of_le h (Nat.pow_le_pow_right (by decide) hb))

theorem flagWord_getLsbD (b : Bool) (i : Nat) : (flagWord b).getLsbD i = (b && decide (i = 0)) := by
  cases b <;> simp [flagWord]

theorem ErrCode.code_getLsbD_of_le (e : ErrCode) {i : Nat} (hi : 4 ≤ i) : e.code.getLsbD i = false := by
  have hlt : e.code.toNat < 2 ^ 4 := by cases e <;> decide
  exact Word.getLsbD_of_toNat_lt hlt hi

/-- Every bit of `STATUS` (R19): `BUSY`, `DONE`, two zeros, the code of `ERR`, `WERR`, and zeros. -/
theorem Channel.statusWord_getLsbD (ch : Channel) (i : Nat) :
    ch.statusWord.getLsbD i =
      if i = 0 then ch.busy
      else if i = 1 then ch.done
      else if 4 ≤ i ∧ i < 8 then ch.err.code.getLsbD (i - 4)
      else if i = 8 then ch.werr
      else false := by
  simp only [Channel.statusWord, BitVec.getLsbD_or, BitVec.getLsbD_shiftLeft, flagWord_getLsbD]
  by_cases hi : i < 8
  · interval_cases i <;> simp
  · rw [ch.err.code_getLsbD_of_le (show 4 ≤ i - 4 by omega)]
    by_cases h8 : i = 8
    · subst h8
      simp
    · simp [hi, h8, show i ≠ 0 by omega, show i ≠ 1 by omega, show i - 1 ≠ 0 by omega, show i - 8 ≠ 0 by omega]

/-- Settles O44: a read of `STATUS` by its bits, and the one field that a write changes. -/
theorem statusReadsItsFieldsAndClearsWerr : Obligations.StatusReadsItsFieldsAndClearsWerr := by
  intro s c ch a v hch ha
  have hloc : s.locate a = .status c := State.locate_channel hch (by decide) ha
  have hread : s.memRead a = (ch.statusWord, s.draws) := State.memRead_register hch hloc rfl
  refine ⟨⟨ch.statusWord, hread, ch.statusWord_getLsbD 0, ch.statusWord_getLsbD 1, ?_, ?_, ch.statusWord_getLsbD 8, ?_⟩, ?_⟩
  · apply BitVec.eq_of_getLsbD_eq
    intro i hi
    simp [ch.statusWord_getLsbD, show 2 + i ≠ 1 by omega, show 2 + i ≠ 8 by omega, show ¬ 4 ≤ 2 + i by omega]
  · have hcode : ch.statusWord.extractLsb' 4 4 = ch.err.code.extractLsb' 0 4 := by
      apply BitVec.eq_of_getLsbD_eq
      intro i hi
      simp [ch.statusWord_getLsbD, hi, show 4 + i < 8 by omega, show 4 + i ≠ 1 by omega]
    rw [hcode]
    cases ch.err <;> rfl
  · apply BitVec.eq_of_getLsbD_eq
    intro i _
    simp [ch.statusWord_getLsbD, show 9 + i ≠ 1 by omega, show 9 + i ≠ 8 by omega, show ¬ 9 + i < 8 by omega]
  · rw [State.memWrite_of_locate hloc]
    exact State.statusWrite_of_some hch v

end Sys2Proof.Machine
end

section
/-! The registers of the global bank. -/

namespace Sys2Proof.Machine

theorem flagWord_toNat_le (b : Bool) : (flagWord b).toNat ≤ 1 := by cases b <;> decide

theorem flagWord_eq_one_iff (b : Bool) : flagWord b = 1 ↔ b = true := by cases b <;> decide

/-- The interrupt output is high exactly when some pending bit is enabled (R122). -/
theorem State.irq_iff (s : State) :
    s.irq = true ↔ ∃ b, s.intStatus.getLsbD b = true ∧ s.intEnable.getLsbD b = true := by
  unfold State.irq
  rw [bne_iff_ne]
  constructor
  · intro hne
    by_contra hnone
    refine hne (BitVec.eq_of_getLsbD_eq fun b _ => ?_)
    simpa using fun hpending => Bool.eq_false_iff.mpr fun henabled => hnone ⟨b, hpending, henabled⟩
  · rintro ⟨b, hpending, henabled⟩ hzero
    have hbit := congrArg (·.getLsbD b) hzero
    simp [hpending, henabled] at hbit

/-- `CONFIG` as a number (R31). -/
theorem State.configWord_toNat {s : State} (hparams : Config.paramsOk s.numCh s.bufBytes = true) :
    s.configWord.toNat = s.bufBytes / 16 * 2 ^ 16 + s.numCh := by
  have hn := numCh_le_of_paramsOk hparams
  have hbuf := bufBytes_le_of_paramsOk hparams
  have hlow : s.numCh < 2 ^ 16 := by omega
  have hhigh : (s.bufBytes / 16) <<< 16 < 2 ^ 32 := by rw [Nat.shiftLeft_eq]; omega
  calc s.configWord.toNat = (s.bufBytes / 16) <<< 16 ||| s.numCh := by
        unfold State.configWord
        rw [BitVec.toNat_or, BitVec.toNat_shiftLeft, BitVec.toNat_ofNat, BitVec.toNat_ofNat,
          Nat.mod_eq_of_lt (show s.bufBytes / 16 < 2 ^ 32 by omega), Nat.mod_eq_of_lt hhigh]
        exact congrArg _ (Nat.mod_eq_of_lt (Nat.lt_trans hlow (by decide)))
    _ = s.bufBytes / 16 * 2 ^ 16 + s.numCh := by rw [← Nat.shiftLeft_add_eq_or_of_lt hlow, Nat.shiftLeft_eq]

/-- Settles O43: neither location takes a write, and `CONFIG` is the number of its two fields. -/
theorem idAndConfigAreConstants : Obligations.IdAndConfigAreConstants := by
  intro s a v hparams
  refine ⟨fun ha => ?_, fun ha => ?_⟩
  · have hloc : s.locate a = .id := State.locate_global (by decide) ha
    exact ⟨State.memRead_of_locate hloc, State.memWrite_of_locate hloc v⟩
  · have hloc : s.locate a = .config := State.locate_global (by decide) ha
    rw [State.memRead_of_locate hloc, State.memWrite_of_locate hloc]
    exact ⟨State.configWord_toNat hparams, rfl, rfl⟩

/-- Settles O52: the mask of a write to either register, bit by bit; the invariant keeps the bits above the channels 0. -/
theorem interruptRegistersClearAndEnable : Obligations.InterruptRegistersClearAndEnable := by
  rintro s a v ⟨hparams, hstatus, henable, _⟩
  have hmask := channelMask_getLsbD (numCh_le_of_paramsOk hparams)
  have hzero : ∀ b, s.numCh ≤ b → s.intStatus.getLsbD b = false ∧ s.intEnable.getLsbD b = false := fun b hb =>
    ⟨Word.getLsbD_of_toNat_lt hstatus hb, Word.getLsbD_of_toNat_lt henable hb⟩
  refine ⟨hzero, fun ha => ?_, fun ha => ?_⟩
  · have hloc : s.locate a = .intStatus := State.locate_global (by decide) ha
    refine ⟨State.memRead_of_locate hloc, _, State.memWrite_of_locate hloc v, fun b => ?_⟩
    by_cases hb : b < s.numCh
    · have hn := numCh_le_of_paramsOk hparams
      simp [hmask, hb, show b < 32 by omega]
    · obtain ⟨hclear, _⟩ := hzero b (by omega)
      simp [hclear]
  · have hloc : s.locate a = .intEnable := State.locate_global (by decide) ha
    refine ⟨State.memRead_of_locate hloc, _, State.memWrite_of_locate hloc v, fun b => ?_⟩
    rw [BitVec.getLsbD_and, hmask]

/-- Settles O53: the bits of `CH_BUSY`, of which there are enough for all channels. -/
theorem chBusyMirrorsTheChannels : Obligations.ChBusyMirrorsTheChannels := by
  intro s a v hparams ha
  have hn : s.chans.length ≤ 15 := numCh_le_of_paramsOk hparams
  have hloc : s.locate a = .chBusy := State.locate_global (by decide) ha
  exact ⟨⟨s.chBusyWord, State.memRead_of_locate hloc, busyBits_getLsbD s.chans (by omega)⟩, State.memWrite_of_locate hloc v⟩

/-- Settles O54: `IRQ_LEVEL` is the interrupt output as a word. -/
theorem irqIsTheEnabledPendingBits : Obligations.IrqIsTheEnabledPendingBits := by
  intro s a v ha
  have hloc : s.locate a = .irqLevel := State.locate_global (by decide) ha
  exact ⟨⟨s.irqLevelWord, State.memRead_of_locate hloc, flagWord_toNat_le s.irq,
    (flagWord_eq_one_iff s.irq).trans s.irq_iff⟩, State.memWrite_of_locate hloc v⟩

end Sys2Proof.Machine
end

section
/-! The address map as a whole: the low bits, the reserved and the protected offsets. -/

namespace Sys2Proof.Machine

/-- Only the word of an address selects a location (R46). -/
theorem State.locate_congr (s : State) {a b : Addr} (h : a.toNat / 4 = b.toNat / 4) : s.locate a = s.locate b := by
  simp only [State.locate, Machine.locate, h]

/-- Settles O40: reads and writes go by the location that the address selects. -/
theorem lowAddressBitsAreIgnored : Obligations.LowAddressBitsAreIgnored := by
  intro s a b v h
  have hloc := s.locate_congr h
  exact ⟨State.memRead_of_locate hloc, State.memWrite_of_locate hloc v⟩

/-! Reserved offsets (R43) -/

theorem globalLoc_reserved {off : Nat} (h : 0x018 ≤ off) : globalLoc off = .reserved := by
  unfold globalLoc
  repeat rw [if_neg (by omega)]

/-- The offsets of a channel bank before, between and after its registers and windows. -/
theorem channelLoc_reserved {n off : Nat} (c : Nat)
    (h : 0x018 ≤ off ∧ off < 0x020 ∨ 0x060 ≤ off ∧ off < 0x4000 ∨ 0x4000 + n ≤ off ∧ off < 0x8000 ∨
      0x8000 + n + 16 ≤ off) : channelLoc n c off = .reserved := by
  unfold channelLoc
  repeat rw [if_neg (by omega)]

/-- Settles O41: each of the three ranges leads to the reserved location, as the bounds of the ranges are whole words. -/
theorem reservedAddressesReadZeroAndIgnoreWrites : Obligations.ReservedAddressesReadZeroAndIgnoreWrites := by
  intro s a v hparams h
  have hmod := bufBytes_mod_of_paramsOk hparams
  have hloc : s.locate a = .reserved := by
    rcases h with habsent | ⟨hbank, hoff⟩ | ⟨off, hlo, hhi, rfl, hoff⟩
    · exact locate_absent _ (by omega)
    · exact (locate_global _ _ (by omega)).trans (globalLoc_reserved (by omega))
    · have hword := locate_channel (a := a) (c := a.toNat / 0x10000 - 1) (off := a.toNat % 0x10000 / 4 * 4) s.bufBytes
        (show _ < s.numCh by omega) (by omega) (by omega)
      exact hword.trans (channelLoc_reserved _ (by omega))
  exact ⟨State.memRead_of_locate hloc, State.memWrite_of_locate hloc v⟩

/-! Protected registers (R52) -/

/-- A write at the offset of a register that R52 protects goes through the check of `BUSY`. -/
theorem writeLoc_protected {n off : Nat} (c : Nat) (haligned : off % 4 = 0)
    (h : off = 0x000 ∨ off = 0x008 ∨ off = 0x00C ∨ off = 0x010 ∨ 0x020 ≤ off ∧ off ≤ 0x04C ∨
      0x4000 ≤ off ∧ off < 0x4000 + n) (s : State) (v : Word) :
    ∃ store, s.writeLoc v (channelLoc n c off) = s.protectedWrite c store := by
  rcases h with rfl | rfl | rfl | rfl | ⟨hlo, hhi⟩ | ⟨hlo, hhi⟩
  · exact ⟨_, rfl⟩
  · exact ⟨_, rfl⟩
  · exact ⟨_, rfl⟩
  · exact ⟨_, rfl⟩
  · by_cases hkey : off < 0x040
    · obtain ⟨k, rfl⟩ : ∃ k : Fin 8, off = 0x020 + 4 * k := ⟨⟨(off - 0x020) / 4, by omega⟩, by simp only; omega⟩
      exact ⟨_, congrArg (s.writeLoc v) (channelLoc_key n c k)⟩
    · obtain ⟨k, rfl⟩ : ∃ k : Fin 4, off = 0x040 + 4 * k := ⟨⟨(off - 0x040) / 4, by omega⟩, by simp only; omega⟩
      exact ⟨_, congrArg (s.writeLoc v) (channelLoc_iv n c k)⟩
  · obtain ⟨j, rfl⟩ := Nat.exists_eq_add_of_le hlo
    exact ⟨_, congrArg (s.writeLoc v) (channelLoc_dinWord c (by omega))⟩

/-- Settles O50: every such write goes through the check of `BUSY`, and a BUSY channel drops it. -/
theorem protectedWritesAreDroppedWhileBusy : Obligations.ProtectedWritesAreDroppedWhileBusy := by
  intro s c off ch a v hparams hch hbusy ha hoff
  have hbuf := bufBytes_le_of_paramsOk hparams
  have hloc : s.locate a = channelLoc s.bufBytes c off := State.locate_channel hch (by omega) ha
  obtain ⟨store, hwrite⟩ := writeLoc_protected c (by omega) hoff s v
  rw [State.memWrite_of_locate hloc, hwrite]
  exact State.protectedWrite_of_busy hch hbusy store

end Sys2Proof.Machine
end

section
/-! What a channel's own step depends on, and what a step leaves of a channel that stays BUSY. -/

namespace Sys2Proof.Machine

theorem State.protectedWrite_chan?_self {s : State} {c : Nat} {ch : Channel} (hch : s.chan? c = some ch)
    (f : Channel → Channel) :
    (s.protectedWrite c f).chan? c = some (if ch.busy then ch.dropWrite else f ch) := by
  simp only [State.protectedWrite, hch]
  exact State.chan?_setChan_self hch _

theorem State.protectedWrite_draws (s : State) (c : Nat) (f : Channel → Channel) :
    (s.protectedWrite c f).draws = s.draws := by
  obtain ⟨hown, _⟩ := s.protectedWrite_own c f
  exact hown.draws

/-- Settles O20: NOP's write and a completion each make of the selected channel a function of it, of `BUF_BYTES` and of the
count of free values. -/
theorem channelsDoNotInterfere : Obligations.ChannelsDoNotInterfere := by
  intro i s s' t ch hch hch' hbuf hdraws h
  cases hbody : bodyOf i with
  | none =>
    cases i <;> simp only [bodyOf, reduceCtorEq] at hbody
    rw [exec_nop] at h
    cases h
    refine ⟨_, exec_nop s', ?_, ?_⟩
    · rw [State.cmdWrite, State.cmdWrite, State.protectedWrite_chan?_self hch, State.protectedWrite_chan?_self hch']
    · exact (s.protectedWrite_draws _ _).trans (hdraws.trans (s'.protectedWrite_draws _ _).symm)
  | some body =>
    rw [exec_of_body hbody] at h
    obtain ⟨ran, hran, hbusy, rfl⟩ := complete_next h
    obtain rfl : ran = ch := Option.some.inj (hran.symm.trans hch)
    refine ⟨_, (exec_of_body hbody s').trans (complete_of_busy body hch' hbusy), ?_, ?_⟩
    · rw [State.afterBody_chan?_self hch, State.afterBody_chan?_self hch', hbuf, hdraws]
    · rw [State.afterBody_draws, State.afterBody_draws, hbuf, hdraws]

/-! A channel that stays BUSY (R52, R57) -/

/-- A host write changes no field but `WERR` of a channel that is BUSY before and after it. -/
theorem ChannelWritten.onlyWerr {n : Nat} {ch ch' : Channel} (hw : ChannelWritten n ch ch') (hbusy : ch.busy = true) :
    ch' = { ch with werr := ch'.werr } := by
  cases hw with
  | dropped _ => rfl
  | acknowledged v => rfl
  | accepted hidle | keyLen hidle | ivLen hidle | inLen hidle | key hidle | iv hidle | din hidle =>
    rw [hidle] at hbusy
    cases hbusy

/-- What a host write makes of a channel. -/
theorem Written.chan? {s t : State} (hw : Written s t) {c : Nat} {ch ch' : Channel} (hch : s.chan? c = some ch)
    (hch' : t.chan? c = some ch') : ch' = ch ∨ ChannelWritten s.bufBytes ch ch' := by
  cases hw with
  | nothing | intStatus | intEnable => exact .inl (Option.some.inj (hch'.symm.trans hch))
  | channel d old new hold hnew =>
    by_cases hd : c = d
    · subst hd
      obtain rfl : old = ch := Option.some.inj (hold.symm.trans hch)
      obtain rfl : new = ch' := Option.some.inj ((State.chan?_setChan_self hold new).symm.trans hch')
      exact .inr hnew
    · rw [State.chan?_setChan_ne s hd] at hch'
      exact .inl (Option.some.inj (hch'.symm.trans hch))

/-- Whatever the block does in one step, a channel that is BUSY before and after it keeps every field but `WERR`. -/
theorem Moved.onlyWerr {s u t : State} (hm : Moved s u t) (h16 : u.bufBytes % 16 = 0) {c : Nat} {ch ch' : Channel}
    (hch : u.chan? c = some ch) (hbusy : ch.busy = true) (hch' : t.chan? c = some ch') (hbusy' : ch'.busy = true) :
    ch' = { ch with werr := ch'.werr } := by
  cases hm with
  | quiet hsame =>
    rw [hsame.chan?, hch] at hch'
    cases hch'
    rfl
  | wrote a v rest hhost hsame =>
    rw [hsame.chan?] at hch'
    rcases (u.memWrite_written h16 a v).chan? hch hch' with rfl | hw
    · rfl
    · exact hw.onlyWerr hbusy
  | completed ran body hran hbusyRan hjob hends =>
    by_cases hc : c = u.sel
    · subst hc
      rw [State.afterBody_chan?_self hran] at hch'
      cases hch'
      rw [Channel.settle_busy] at hbusy'
      cases hbusy'
    · rw [State.afterBody_chan?_ne u ran _ hc, hch] at hch'
      cases hch'
      rfl
  | reset rest hsched =>
    rw [State.chan?_resetBlock, if_pos (State.chan?_lt hch)] at hch'
    cases hch'
    cases hbusy'

/-- Settles O24: a channel that stays BUSY keeps every field but `WERR`. -/
theorem inputsAreFrozenWhileBusy : Obligations.InputsAreFrozenWhileBusy := by
  intro s t c ch ch' hstep hch hbusy hch' hbusy'
  obtain ⟨hparams, u, hsame, hmoved⟩ := step_next hstep
  have h16 : u.bufBytes % 16 = 0 := by
    rw [hsame.bufBytes]
    exact bufBytes_mod_of_paramsOk hparams
  rw [hmoved.onlyWerr h16 ((hsame.chan? c).trans hch) hbusy hch' hbusy']
  exact ⟨rfl, rfl, rfl, rfl, rfl, rfl, rfl, rfl, rfl, rfl⟩

end Sys2Proof.Machine
end

section
/-! Reads and writes in two states of the same block, and the moves of the host. -/

namespace Sys2Proof.Machine

/-! Reads (R48, R50) -/

/-- A word whose reading uses no free value reads the same again, whatever the count. -/
theorem Memory.drawWord_of_kept {m : Memory} {j draws : Nat} (h : (m.drawWord j draws).2 = draws) (draws' : Nat) :
    m.drawWord j draws' = ((m.drawWord j draws).1, draws') := by
  unfold Memory.drawWord
  rw [Memory.drawBytes_of_kept h draws']

section

variable {s t : State} (hsame : SameBlock s t)
include hsame

theorem SameBlock.locate (a : Addr) : t.locate a = s.locate a := by
  simp only [State.locate, hsame.numCh, hsame.bufBytes]

theorem SameBlock.chanWord (c : Nat) (word : Channel → Word) : t.chanWord c word = s.chanWord c word := by
  simp only [State.chanWord, hsame.chan?]

/-- A location whose reading uses no free value reads the same in every state of the block (R50). -/
theorem SameBlock.readLoc_of_kept {l : Loc} (hkept : (s.readLoc l).2 = s.draws) :
    t.readLoc l = ((s.readLoc l).1, t.draws) := by
  cases l with
  | din c j =>
    simp only [State.readLoc, State.chanDraw, hsame.chan?] at hkept ⊢
    cases hch : s.chan? c with
    | none => rfl
    | some ch =>
      rw [hch] at hkept
      exact Memory.drawWord_of_kept hkept t.draws
  | dout c j =>
    simp only [State.readLoc, State.chanDraw, hsame.chan?] at hkept ⊢
    cases hch : s.chan? c with
    | none => rfl
    | some ch =>
      rw [hch] at hkept
      cases hbusy : ch.busy with
      | true => simp only [hbusy, if_true]
      | false =>
        simp only [hbusy, Bool.false_eq_true, if_false] at hkept ⊢
        exact Memory.drawWord_of_kept hkept t.draws
  | config => simp only [State.readLoc, State.configWord, hsame.bufBytes, hsame.chans]
  | intStatus => simp only [State.readLoc, hsame.intStatus]
  | intEnable => simp only [State.readLoc, hsame.intEnable]
  | chBusy => simp only [State.readLoc, State.chBusyWord, hsame.chans]
  | irqLevel => simp only [State.readLoc, State.irqLevelWord, State.irq, hsame.intStatus, hsame.intEnable]
  | status | keyLen | ivLen | inLen | outLen | iv | chain => simp only [State.readLoc, hsame.chanWord]
  | id | cmd | key | reserved => rfl

theorem SameBlock.memRead_of_kept {a : Addr} (hkept : (s.memRead a).2 = s.draws) :
    t.memRead a = ((s.memRead a).1, t.draws) :=
  (State.memRead_of_locate (hsame.locate a)).trans (hsame.readLoc_of_kept hkept)

/-! Writes (R49) -/

theorem SameBlock.setChan (c : Nat) (ch : Channel) : SameBlock (s.setChan c ch) (t.setChan c ch) where
  bufBytes := hsame.bufBytes
  chans := congrArg (·.set c ch) hsame.chans
  intStatus := hsame.intStatus
  intEnable := hsame.intEnable

theorem SameBlock.protectedWrite (c : Nat) (f : Channel → Channel) :
    SameBlock (s.protectedWrite c f) (t.protectedWrite c f) := by
  unfold State.protectedWrite
  rw [hsame.chan?]
  split
  · exact hsame
  · exact hsame.setChan c _

theorem SameBlock.statusWrite (c : Nat) (v : Word) : SameBlock (s.statusWrite c v) (t.statusWrite c v) := by
  unfold State.statusWrite
  rw [hsame.chan?]
  split
  · exact hsame
  · exact hsame.setChan c _

/-- MemWrite does the same to the block in every state of it. -/
theorem SameBlock.memWrite (a : Addr) (v : Word) : SameBlock (s.memWrite a v) (t.memWrite a v) := by
  unfold State.memWrite
  rw [hsame.locate]
  cases s.locate a with
  | intStatus =>
    refine ⟨hsame.bufBytes, hsame.chans, ?_, hsame.intEnable⟩
    simp only [State.writeLoc, State.setIntStatus_intStatus, hsame.intStatus, hsame.numCh]
  | intEnable =>
    refine ⟨hsame.bufBytes, hsame.chans, hsame.intStatus, ?_⟩
    simp only [State.writeLoc, State.setIntEnable_intEnable, hsame.numCh]
  | status c => exact hsame.statusWrite c v
  | cmd | keyLen | ivLen | inLen | key | iv | din => exact hsame.protectedWrite _ _
  | id | config | chBusy | irqLevel | outLen | chain | dout | reserved => exact hsame

end

/-! The host's next access (R66, R67) -/

theorem State.setSched_sameBlock (s : State) (moves : List Move) : SameBlock s (s.setSched moves) := ⟨rfl, rfl, rfl, rfl⟩

theorem State.setHost_sameBlock (s : State) (ops : List HostOp) : SameBlock s (s.setHost ops) := ⟨rfl, rfl, rfl, rfl⟩

theorem State.setHost_hostRead_sameBlock (s : State) (ops : List HostOp) (a : Addr) :
    SameBlock s ((s.setHost ops).hostRead a) :=
  (s.setHost_sameBlock ops).trans ((s.setHost ops).hostRead_sameBlock a)

theorem State.setHost_same {s : State} {ops : List HostOp} (h : s.host = ops) : s.setHost ops = s := by
  subst h
  rfl

section

variable {s : State} {a : Addr} {v mask val : Word} {ops : List HostOp}

theorem hostMove_rd (h : s.host = .rd a :: ops) : hostMove s = .next ((s.setHost ops).hostRead a) := by
  simp only [hostMove, h]

theorem hostMove_wr (h : s.host = .wr a v :: ops) : hostMove s = hostWrite a v (s.setHost ops) := by
  simp only [hostMove, h]

/-- A poll reads once, and stays the next access where its condition does not hold. -/
theorem hostMove_poll (h : s.host = .poll a mask val :: ops) :
    hostMove s =
      .next ((s.setHost (if (s.memRead a).1 &&& mask = val then ops else .poll a mask val :: ops)).hostRead a) := by
  simp only [hostMove, h]
  split
  · rfl
  · rw [State.setHost_same h]

/-- A wait for the `irq` line is used up where an enabled bit is pending, and otherwise stays (R122). -/
theorem hostMove_awaitIrq (h : s.host = .awaitIrq :: ops) :
    hostMove s = .next (s.setHost (if s.intStatus &&& s.intEnable = 0 then .awaitIrq :: ops else ops)) := by
  simp only [hostMove, h, State.irq, bne_iff_ne, ne_eq, ite_not]
  split
  · rw [State.setHost_same h]
  · rfl

end

/-- Settles O42: each read is the read of the block as it stands, with the host's list moved on or not; and what a location
holds is the block's. -/
theorem readsChangeNothing : Obligations.ReadsChangeNothing := by
  intro s a
  refine ⟨fun ops h => ?_, fun mask val ops h => ?_, fun ops h => hostMove_awaitIrq h, fun hkept t hsame => ?_⟩
  · exact ⟨_, hostMove_rd h, State.setHost_hostRead_sameBlock s _ a, rfl, rfl, rfl, rfl, rfl, rfl⟩
  · exact ⟨_, hostMove_poll h, State.setHost_hostRead_sameBlock s _ a, rfl, rfl, rfl, rfl, rfl, rfl⟩
  · exact hsame.memRead_of_kept hkept

/-- A move of the host whose next access is a write makes it, and leaves the schedule. -/
theorem hostMove_wrote {s : State} {a : Addr} {v : Word} {ops : List HostOp} (h : s.host = .wr a v :: ops) :
    ∃ t, hostMove s = .next t ∧ HostWrote a v ops s t ∧ t.sched = s.sched := by
  obtain ⟨t, ht, hblock⟩ := hostWrite_next a v (s.setHost ops)
  obtain ⟨⟨hhost, hsched, hreads, hdraws, hdelay⟩, hsel⟩ := hostWrite_own ht
  have hblock' := ((s.setHost_sameBlock ops).memWrite a v).trans hblock
  exact ⟨t, (hostMove_wr h).trans ht, ⟨hblock', hhost, hreads, hdraws, hdelay, hsel⟩, hsched⟩

theorem HostWrote.of_setSched {s t : State} {a : Addr} {v : Word} {ops : List HostOp} {moves : List Move}
    (h : HostWrote a v ops (s.setSched moves) t) : HostWrote a v ops s t where
  block := ((s.setSched_sameBlock moves).memWrite a v).trans h.block
  host := h.host
  reads := h.reads
  draws := h.draws
  delay := h.delay
  sel := h.sel

end Sys2Proof.Machine
end

section
/-! The step: the scheduled move, and the free choice. -/

namespace Sys2Proof.Machine

theorem step_scheduled {s : State} {m : Move} {rest : List Move} (hp : Config.paramsOk s.numCh s.bufBytes = true)
    (hs : s.sched = m :: rest) : step s = runMove m (s.setSched rest) := by
  unfold step stepMove
  rw [if_pos hp, hs]

/-- Settles O56: the schedule's next move comes before any free choice. -/
theorem aStepMakesTheScheduledMove : Obligations.AStepMakesTheScheduledMove :=
  fun _ _ _ hp hs => step_scheduled hp hs

/-- Settles O59: the host's move makes the write, and the scheduled step is that move with the schedule moved on. -/
theorem aHostWriteIsMade : Obligations.AHostWriteIsMade := by
  intro s a v ops h
  refine ⟨hostMove_wrote h, fun rest hp hs => ?_⟩
  obtain ⟨t, ht, hwrote, hsched⟩ := hostMove_wrote (s := s.setSched rest) h
  exact ⟨t, (step_scheduled hp hs).trans ht, hwrote.of_setSched, hsched⟩

/-- A step with no enabled move and nothing scheduled leaves the machine at rest (R142). -/
theorem step_rest {s : State} (hp : Config.paramsOk s.numCh s.bufBytes = true) (hs : s.sched = [])
    (hm : s.freeMove? = none) : step s = .next s := by
  unfold step stepMove
  rw [if_pos hp, hs]
  simp only [hm]

/-- An enabled move is the completion of a BUSY channel or an access that the host has left (R55, R119). -/
theorem State.mem_enabledMoves {s : State} {m : Move} (h : m ∈ s.enabledMoves) :
    m = .host ∧ s.host ≠ [] ∨ m ∈ s.completions := by
  unfold State.enabledMoves at h
  split at h
  · exact .inr h
  · next hcond =>
    rcases List.mem_cons.mp h with rfl | h
    · refine .inl ⟨rfl, fun hnil => hcond ?_⟩
      simp [hnil]
    · exact .inr h

/-- No move is enabled only where the host has no access left and every channel is IDLE. -/
theorem State.enabledMoves_eq_nil {s : State} (h : s.enabledMoves = []) : s.host = [] ∧ s.AllIdle := by
  unfold State.enabledMoves at h
  split at h
  · next hcond =>
    refine ⟨?_, s.completions_eq_nil.mp h⟩
    simpa [h] using hcond
  · cases h

/-- Settles O60: the free choice is one of the enabled moves; where it finds none, the machine is at rest. -/
theorem aFreeStepMakesAnEnabledMove : Obligations.AFreeStepMakesAnEnabledMove := by
  intro s hp hs
  cases hm : s.freeMove? with
  | none =>
    obtain ⟨hhost, hidle⟩ := State.enabledMoves_eq_nil (State.freeMove?_none hm)
    exact .inl ⟨hhost, hidle, step_rest hp hs hm⟩
  | some m =>
    refine .inr ⟨m, s.delayAfter m, ?_, step_free hp hs hm⟩
    rcases State.mem_enabledMoves (State.freeMove?_mem hm) with hhost | hcompletion
    · exact .inl hhost
    · exact .inr (State.mem_completions hcompletion)

end Sys2Proof.Machine
end

section
/-! Every word has one meaning: the decoder against the fields of a word. -/

namespace Sys2Proof

theorem decode_encode (i : Instr) : decode (encode i) = .ok i := by
  cases i <;> rfl

/-- A word whose `RSV` is 0 and whose `OP` is that of a command is the command's word (R60, R61). -/
theorem decode_of_fields {w : Word} (i : Instr) (h : w.toNat / 256 = 0 ∧ w.toNat % 256 = (encode i).toNat) :
    decode w = .ok i := by
  obtain ⟨hrsv, hop⟩ := h
  obtain rfl : w = encode i := BitVec.eq_of_toNat_eq (by omega)
  exact decode_encode i

/-- A word with a nonzero `RSV`, or an `OP` above those of the commands, is illegal (R62): no command's word has those fields. -/
theorem decode_illegal {w : Word} (h : w.toNat / 256 ≠ 0 ∨ 6 ≤ w.toNat % 256) : decode w = .error .illegalCommand := by
  cases hd : decode w with
  | error e => cases e; rfl
  | ok i =>
    obtain rfl := Machine.encode_decode hd
    exact absurd h (by cases i <;> decide)

/-- Settles O1: the legal words are those with the fields of a command, and every other word is illegal by its fields. -/
theorem everyWordHasOneMeaning : Obligations.EveryWordHasOneMeaning := by
  refine ⟨decode_encode, fun w => ?_⟩
  dsimp only
  split_ifs with hnop henc hdec hencRaw hdecRaw hclear
  · rw [hnop]
    exact decode_encode .nop
  · exact decode_of_fields .enc henc
  · exact decode_of_fields .dec hdec
  · exact decode_of_fields .encRaw hencRaw
  · exact decode_of_fields .decRaw hdecRaw
  · exact decode_of_fields .clear hclear
  · have hne : w.toNat ≠ 0 := fun h0 => hnop (BitVec.eq_of_toNat_eq h0)
    exact decode_illegal (by omega)

/-! Words as the opcode map numbers them -/

theorem decodeTableWord_encode (i : Instr) : decodeTableWord 32 (encode i).toNat = some i := by
  have hword : tableWord 32 (encode i).toNat = encode i := by cases i <;> rfl
  rw [decodeTableWord, hword, decode_encode]

theorem decodeTableWord_illegal {n : Nat} (hn : n < 2 ^ 32) (h : n / 256 ≠ 0 ∨ 6 ≤ n % 256) :
    decodeTableWord 32 n = none := by
  have hword : (tableWord 32 n).toNat = n := by simp only [tableWord, BitVec.toNat_ofNat]; omega
  rw [decodeTableWord, decode_illegal (by rwa [hword])]

/-- Settles O2: six words are those of the commands, and each of the four others has an illegal field. -/
theorem writtenOutWordsDecode : Obligations.WrittenOutWordsDecode :=
  ⟨decodeTableWord_encode .nop, decodeTableWord_encode .enc, decodeTableWord_encode .dec,
    decodeTableWord_encode .encRaw, decodeTableWord_encode .decRaw, decodeTableWord_encode .clear,
    decodeTableWord_illegal (by decide) (by decide), decodeTableWord_illegal (by decide) (by decide),
    decodeTableWord_illegal (by decide) (by decide), decodeTableWord_illegal (by decide) (by decide)⟩

end Sys2Proof
end

section
/-! The step in which the host writes the no-operation word. -/

namespace Sys2Proof.Machine

/-- The no-operation word written to a channel's `CMD` is exec of NOP on that channel (R63, R100). -/
theorem hostWrite_nop {s : State} {c : Nat} {a : Addr} {v : Word} (hloc : s.locate a = .cmd c)
    (hv : decode v = .ok .nop) : hostWrite a v s = exec .nop (s.setSel c) := by
  simp only [hostWrite, hloc, if_pos hv]

/-- Settles O4: the scheduled step is the host's write, and its address selects the channel's `CMD`. -/
theorem stepRunsTheNopWrite : Obligations.StepRunsTheNopWrite := by
  intro s c rest ops a v hp hsched hhost hv hc ha
  have hloc : s.locate a = .cmd c := locate_channel s.bufBytes (off := 0) hc (by decide) ha
  calc step s = hostMove (s.setSched rest) := step_scheduled hp hsched
    _ = hostWrite a v ((s.setSched rest).setHost ops) := hostMove_wr hhost
    _ = exec .nop (((s.setSched rest).setHost ops).setSel c) := hostWrite_nop hloc hv

end Sys2Proof.Machine
end

section
/-! The accesses of `SETKEY`. -/

namespace Sys2Proof.Machine

theorem State.setChan_setChan (s : State) (c : Nat) (ch ch' : Channel) :
    (s.setChan c ch).setChan c ch' = s.setChan c ch' := by
  simp only [State.setChan, List.set_set]

/-- The expansion of a `SETKEY` that the notation takes (R67, R68). -/
theorem Pseudo.expand_setKey {numCh c : Nat} {bytes : List Byte} (bufBytes : Nat) (hc : c < numCh)
    (hlen : bytes.length ≤ 32) :
    Pseudo.expand numCh bufBytes (.setKey c bytes) =
      some (.wr (chAddr c 0x008) (BitVec.ofNat 32 bytes.length) :: wrBytesOps (chAddr c 0x020) bytes) :=
  if_pos (by simp [Pseudo.wellFormed, hc, hlen])

/-- An address of a row of words in a channel's bank, by the offset of the row (R66, R67). -/
theorem chAddr_add_toNat {c off j : Nat} (hc : c < 15) (hoff : off + j < 0x10000) :
    (chAddr c off + BitVec.ofNat 20 j).toNat = 0x10000 * (c + 1) + off + j := by
  rw [BitVec.toNat_add, chAddr_toNat hc (by omega), BitVec.toNat_ofNat]
  omega

section

variable {s : State} {c : Nat} {ch : Channel} (hc : c < 15) (hch : s.chan? c = some ch) (hidle : ch.busy = false)
include hc hch hidle

theorem State.memWrite_keyLen (v : Word) :
    s.memWrite (chAddr c 0x008) v = s.setChan c { ch with keyLen := v } := by
  have hloc : s.locate (chAddr c 0x008) = .keyLen c :=
    State.locate_channel hch (off := 0x008) (by decide) (by rw [chAddr_toNat hc (by decide)]; omega)
  exact State.memWrite_of_idle hch hloc (store := fun ch => { ch with keyLen := v }) rfl hidle

theorem State.memWrite_key {k : Nat} (hk : k < 8) (v : Word) :
    s.memWrite (chAddr c 0x020 + BitVec.ofNat 20 (4 * k)) v = s.setChan c { ch with key := ch.key.set k v } := by
  have hloc : s.locate (chAddr c 0x020 + BitVec.ofNat 20 (4 * k)) = .key c ⟨k, hk⟩ :=
    State.locate_window (i := 4 * k) hch (by rw [chAddr_add_toNat hc (by omega)]; omega) (by omega)
      (channelLoc_key s.bufBytes c ⟨k, hk⟩)
  exact State.memWrite_of_idle hch hloc (store := fun ch => { ch with key := ch.key.set k v }) rfl hidle

/-- The first `n` writes of `WRBYTES` to the key row set the first `4 * n` key bytes, to 0x00 past the string's end (R67). -/
theorem State.memWrite_keyRow (bytes : List Byte) {n : Nat} (hn : n ≤ 8) :
    ∃ key' : Vector Word 8,
      (List.range n).foldl
        (fun u k => u.memWrite (chAddr c 0x020 + BitVec.ofNat 20 (4 * k)) (wordAt bytes (4 * k))) s =
        s.setChan c { ch with key := key' } ∧
      ∀ i, (regBytes key')[i]? = if i < 4 * n then some (bytes.getD i 0) else (regBytes ch.key)[i]? := by
  induction n with
  | zero => exact ⟨ch.key, (State.setChan_same hch).symm, fun i => by simp⟩
  | succ n ih =>
    obtain ⟨key', hfold, hbytes⟩ := ih (by omega)
    refine ⟨key'.set n (wordAt bytes (4 * n)), ?_, fun i => ?_⟩
    · rw [List.range_succ, List.foldl_append, hfold, List.foldl_cons, List.foldl_nil,
        State.memWrite_key hc (State.chan?_setChan_self hch { ch with key := key' }) hidle hn, State.setChan_setChan]
    · rw [regBytes_set key' hn, hbytes]
      by_cases hword : i / 4 = n
      · rw [if_pos hword, if_pos (by omega), lane_wordAt _ _ (by omega), show 4 * n + i % 4 = i by omega]
      · simp only [if_neg hword, show i < 4 * (n + 1) ↔ i < 4 * n by omega]

end

/-- Settles O55: the write of `KEY_LEN`, then the writes of the key row. -/
theorem setKeyLoadsTheKey : Obligations.SetKeyLoadsTheKey := by
  intro s c ch bytes hparams hch hidle hlen
  have hlt := State.chan?_lt hch
  have hc : c < 15 := Nat.lt_of_lt_of_le hlt (numCh_le_of_paramsOk hparams)
  obtain ⟨key', hrow, hbytes⟩ := State.memWrite_keyRow hc
    (State.chan?_setChan_self hch { ch with keyLen := BitVec.ofNat 32 bytes.length }) hidle bytes
    (n := (bytes.length + 3) / 4) (by omega)
  have hkey : ∀ i : Nat, (regBytes key')[i]? =
      if i < bytes.length then bytes[i]?
      else if i < 4 * ((bytes.length + 3) / 4) then some 0
      else (regBytes ch.key)[i]? := fun i => by
    rw [hbytes]
    by_cases hi : i < bytes.length
    · rw [if_pos (by omega), if_pos hi, List.getD_eq_getElem _ _ hi, List.getElem?_eq_getElem hi]
    · rw [if_neg hi, List.getD_eq_default _ _ (by omega)]
  refine ⟨_, key', Pseudo.expand_setKey s.bufBytes hlt hlen, ?_, ?_, fun i _ => hkey i⟩
  · simp only [List.foldl_cons, wrBytesOps, List.foldl_map, State.memWrite_keyLen hc hch hidle]
    exact hrow.trans (s.setChan_setChan c _ _)
  · refine List.ext_getElem? fun i => ?_
    rw [List.getElem?_take, hkey]
    by_cases hi : i < bytes.length
    · rw [if_pos hi, if_pos hi]
    · rw [if_neg hi, List.getElem?_eq_none (by omega)]

end Sys2Proof.Machine
end

section
/-! The S-box against the inverse in GF(2^8), and the two tables against each other. -/

namespace Sys2Proof.Machine

/-- The inverse of a byte as its S-box entry gives it: the affine map of R71 undone. -/
def inverseFromSbox (a : Byte) : Byte :=
  let s := sbox a ^^^ 0x63
  s.rotateLeft 1 ^^^ s.rotateLeft 3 ^^^ s.rotateLeft 6

/-- It is the inverse for the product of R70, and 0 for 0. -/
theorem gmul_inverseFromSbox (a : Byte) :
    if a = 0 then inverseFromSbox a = 0 else gmul a (inverseFromSbox a) = 0x01 := by
  revert a
  decide +kernel

theorem sbox_eq_affine_inverseFromSbox (a : Byte) :
    let b := inverseFromSbox a
    sbox a = b ^^^ b.rotateLeft 1 ^^^ b.rotateLeft 2 ^^^ b.rotateLeft 3 ^^^ b.rotateLeft 4 ^^^ 0x63 := by
  revert a
  decide +kernel

@[simp] theorem invSbox_sbox (a : Byte) : invSbox (sbox a) = a := by
  revert a
  decide +kernel

@[simp] theorem sbox_invSbox (a : Byte) : sbox (invSbox a) = a :=
  Function.LeftInverse.rightInverse_of_card_le invSbox_sbox le_rfl a

/-- Settles O30: the inverse is the one that the table's own entry gives when the affine map is undone. -/
theorem sboxIsTheAffineMapOfTheInverse : Obligations.SboxIsTheAffineMapOfTheInverse := fun a =>
  ⟨⟨inverseFromSbox a, gmul_inverseFromSbox a, sbox_eq_affine_inverseFromSbox a⟩, invSbox_sbox a, sbox_invSbox a⟩

end Sys2Proof.Machine
end

section
/-! The product in GF(2^8) as the sum over the bits of its second factor. -/

namespace Sys2Proof.Machine

theorem xtime_toNat (a : Byte) :
    (xtime a).toNat = if a.toNat < 128 then 2 * a.toNat else (2 * a.toNat) ^^^ 0x11B := by
  revert a
  decide +kernel

/-- The highest of `n + 1` terms of the product. -/
theorem gmulTerms_succ (n : Nat) (a b : Byte) :
    gmulTerms (n + 1) a b = gmulTerms n a b ^^^ (if b.getLsbD n then xtime^[n] a else 0) := by
  induction n generalizing a b with
  | zero => simp [gmulTerms]
  | succ n ih =>
    rw [gmulTerms, ih, gmulTerms, BitVec.getLsbD_ushiftRight, Nat.add_comm 1 n, Function.iterate_succ_apply,
      BitVec.xor_assoc]

theorem gmulTerms_eq_foldl (n : Nat) (a b : Byte) :
    gmulTerms n a b = (List.range n).foldl (fun sum i => sum ^^^ (if b.getLsbD i then xtime^[i] a else 0)) 0 := by
  induction n with
  | zero => rfl
  | succ n ih => rw [gmulTerms_succ, ih, List.range_succ, List.foldl_append, List.foldl_cons, List.foldl_nil]

theorem gmul_one_left (b : Byte) : gmul 0x01 b = b := by
  revert b
  decide +kernel

/-- Every byte is a sum of powers of `x`, so what sums keep holds of every byte once it holds of those. -/
theorem byte_xor_induction {P : Byte → Prop} (hxor : ∀ x y, P x → P y → P (x ^^^ y))
    (hpow : ∀ i < 8, P (xtime^[i] 0x01)) (b : Byte) : P b := by
  have hzero : P 0 := by simpa using hxor _ _ (hpow 0 (by decide)) (hpow 0 (by decide))
  have hterms : ∀ n ≤ 8, P (gmulTerms n 0x01 b) := by
    intro n hn
    induction n with
    | zero => exact hzero
    | succ n ih =>
      rw [gmulTerms_succ]
      refine hxor _ _ (ih (by omega)) ?_
      split
      · exact hpow n hn
      · exact hzero
  exact gmul_one_left b ▸ hterms 8 le_rfl

end Sys2Proof.Machine
end

section
/-! The layers of a round, each undone by its inverse. -/

namespace Sys2Proof.Machine

@[simp] theorem Col.xor_xor_cancel (v w : Col) : (v.xor w).xor w = v := by
  simp [Col.xor]

@[simp] theorem Block.xor_xor_cancel (s t : Block) : (s.xor t).xor t = s := by
  simp [Block.xor]

@[simp] theorem addRoundKey_addRoundKey (w : List Col) (j : Nat) (s : Block) :
    addRoundKey w j (addRoundKey w j s) = s := by
  simp [addRoundKey]

@[simp] theorem invSubBytes_subBytes (s : Block) : invSubBytes (subBytes s) = s := by
  simp [invSubBytes, subBytes, Block.mapCols, Col.map]

@[simp] theorem subBytes_invSubBytes (s : Block) : subBytes (invSubBytes s) = s := by
  simp [invSubBytes, subBytes, Block.mapCols, Col.map]

@[simp] theorem invShiftRows_shiftRows (s : Block) : invShiftRows (shiftRows s) = s := rfl

@[simp] theorem shiftRows_invShiftRows (s : Block) : shiftRows (invShiftRows s) = s := rfl

theorem mixColumn_xor (v w : Col) : mixColumn (v.xor w) = (mixColumn v).xor (mixColumn w) := by
  simp only [mixColumn, Col.xor, gmul_xor, Col.mk.injEq]
  refine ⟨?_, ?_, ?_, ?_⟩ <;> ac_rfl

theorem invMixColumn_xor (v w : Col) : invMixColumn (v.xor w) = (invMixColumn v).xor (invMixColumn w) := by
  simp only [invMixColumn, Col.xor, gmul_xor, Col.mk.injEq]
  refine ⟨?_, ?_, ?_, ?_⟩ <;> ac_rfl

/-- The column with the byte `x` in row `r` and 0 in the others. -/
def Col.single (r : Nat) (x : Byte) : Col :=
  ⟨if r = 0 then x else 0, if r = 1 then x else 0, if r = 2 then x else 0, if r = 3 then x else 0⟩

theorem Col.single_xor (r : Nat) (x y : Byte) : Col.single r (x ^^^ y) = (Col.single r x).xor (Col.single r y) := by
  simp only [Col.single, Col.xor, Col.mk.injEq]
  refine ⟨?_, ?_, ?_, ?_⟩ <;> split <;> simp

theorem Col.eq_xor_single (w : Col) :
    w = (((Col.single 0 w.a0).xor (Col.single 1 w.a1)).xor (Col.single 2 w.a2)).xor (Col.single 3 w.a3) := by
  simp [Col.single, Col.xor]

/-- A map of columns that respects XOR is the identity where it is so on the columns of a single power of `x`. -/
theorem Col.eq_self_of_xor {f : Col → Col} (hxor : ∀ v w, f (v.xor w) = (f v).xor (f w))
    (hpow : ∀ r < 4, ∀ i < 8, f (.single r (xtime^[i] 0x01)) = .single r (xtime^[i] 0x01)) (w : Col) : f w = w := by
  have hsingle : ∀ r < 4, ∀ x, f (.single r x) = .single r x := fun r hr x =>
    byte_xor_induction (P := fun x => f (.single r x) = .single r x) (fun x y hx hy => by rw [Col.single_xor, hxor, hx, hy]) (hpow r hr) x
  rw [w.eq_xor_single, hxor, hxor, hxor, hsingle 0 (by decide), hsingle 1 (by decide), hsingle 2 (by decide),
    hsingle 3 (by decide)]

@[simp] theorem invMixColumn_mixColumn (w : Col) : invMixColumn (mixColumn w) = w :=
  Col.eq_self_of_xor (f := fun w => invMixColumn (mixColumn w)) (fun v w => by rw [mixColumn_xor, invMixColumn_xor])
    (by decide +kernel) w

@[simp] theorem mixColumn_invMixColumn (w : Col) : mixColumn (invMixColumn w) = w :=
  Col.eq_self_of_xor (f := fun w => mixColumn (invMixColumn w)) (fun v w => by rw [invMixColumn_xor, mixColumn_xor])
    (by decide +kernel) w

@[simp] theorem invMixColumns_mixColumns (s : Block) : invMixColumns (mixColumns s) = s := by
  simp [invMixColumns, mixColumns, Block.mapCols]

@[simp] theorem mixColumns_invMixColumns (s : Block) : mixColumns (invMixColumns s) = s := by
  simp [invMixColumns, mixColumns, Block.mapCols]

end Sys2Proof.Machine
end

section
/-! The rounds: the inverse cipher undoes the cipher and the other way round, and the loops of R80 and R81. -/

namespace Sys2Proof.Machine

theorem decRounds_subBytes_encRounds (w : List Col) (n : Nat) (s : Block) :
    decRounds w n (shiftRows (subBytes (encRounds w n s))) = shiftRows (subBytes s) := by
  induction n with
  | zero => rfl
  | succ n ih => simp [decRounds, encRounds, ih]

theorem encRounds_invSubBytes_decRounds (w : List Col) (n : Nat) (s : Block) :
    encRounds w n (invSubBytes (invShiftRows (decRounds w n s))) = invSubBytes (invShiftRows s) := by
  induction n generalizing s with
  | zero => rfl
  | succ n ih => simp [decRounds, encRounds, ih]

/-- R82, one direction. -/
@[simp] theorem aesDec_aesEnc (key : List Byte) (x : Block) : aesDec key (aesEnc key x) = x := by
  simp [aesDec, aesEnc, decRounds_subBytes_encRounds]

/-- R82, the other direction. -/
@[simp] theorem aesEnc_aesDec (key : List Byte) (x : Block) : aesEnc key (aesDec key x) = x := by
  simp [aesDec, aesEnc, encRounds_invSubBytes_decRounds]

theorem encRounds_eq_foldl (w : List Col) (n : Nat) (s : Block) :
    encRounds w n s =
      ((List.range n).map (· + 1)).foldl (fun s j => addRoundKey w j (mixColumns (shiftRows (subBytes s)))) s := by
  induction n with
  | zero => rfl
  | succ n ih => simp [encRounds, ih, List.range_succ]

theorem decRounds_eq_foldl (w : List Col) (n : Nat) (s : Block) :
    decRounds w n s =
      ((List.range n).map (· + 1)).reverse.foldl
        (fun s j => invMixColumns (addRoundKey w j (invSubBytes (invShiftRows s)))) s := by
  induction n generalizing s with
  | zero => rfl
  | succ n ih => simp [decRounds, ih, List.range_succ]

end Sys2Proof.Machine
end

section
/-! The layers of a round, byte by byte. -/

namespace Sys2Proof.Machine

theorem Block.getElem?_eq_entry {bytes : List Byte} (hlen : bytes.length = 16) {r c : Nat} (hr : r < 4) (hc : c < 4) :
    bytes[r + 4 * c]? = some ((Block.ofBytes bytes).entry r c) := by
  rw [Block.entry, Block.toBytes_ofBytes bytes hlen.ge, List.take_of_length_le hlen.le, List.getD_eq_getElem _ _ (by omega),
    List.getElem?_eq_getElem]

section

variable {r c : Nat} (hr : r < 4) (hc : c < 4)
include hr hc

theorem subBytes_entry (s : Block) : (subBytes s).entry r c = sbox (s.entry r c) := by
  interval_cases r <;> interval_cases c <;> rfl

theorem invSubBytes_entry (s : Block) : (invSubBytes s).entry r c = invSbox (s.entry r c) := by
  interval_cases r <;> interval_cases c <;> rfl

theorem shiftRows_entry (s : Block) : (shiftRows s).entry r c = s.entry r ((c + r) % 4) := by
  interval_cases r <;> interval_cases c <;> rfl

theorem invShiftRows_entry (s : Block) : (invShiftRows s).entry r c = s.entry r ((c + 4 - r) % 4) := by
  interval_cases r <;> interval_cases c <;> rfl

theorem addRoundKey_entry (w : List Col) (j : Nat) (s : Block) :
    (addRoundKey w j s).entry r c = s.entry r c ^^^ (w.getD (4 * j + c) Col.zero).toBytes.getD r 0 := by
  interval_cases r <;> interval_cases c <;> rfl

end

/-- The column `c` of the state. -/
def Block.column (s : Block) (c : Nat) : Col := ⟨s.entry 0 c, s.entry 1 c, s.entry 2 c, s.entry 3 c⟩

/-- A map of each column acts on the columns of the state. -/
theorem Block.column_mapCols (f : Col → Col) (s : Block) {c : Nat} (hc : c < 4) :
    (s.mapCols f).column c = f (s.column c) := by
  interval_cases c <;> rfl

/-- Settles O32: the clauses on single bytes by the layers' own lemmas, the product by its terms, the loops by their folds, and R82 by
each layer undoing its inverse. -/
theorem aesDecInvertsAesEnc : Obligations.AesDecInvertsAesEnc := by
  refine ⟨fun a b => ⟨xtime_toNat a, gmulTerms_eq_foldl 8 a b⟩, fun bytes hlen => ⟨?_, fun r c hr hc => ?_⟩,
    fun s w j r c hr hc => ⟨subBytes_entry hr hc s, invSubBytes_entry hr hc s, shiftRows_entry hr hc s,
      invShiftRows_entry hr hc s, addRoundKey_entry hr hc w j s⟩,
    fun s c hc => ?_, ⟨fun v => ⟨rfl, rfl⟩, by decide⟩,
    fun key x => ⟨?_, ?_, aesDec_aesEnc key x, aesEnc_aesDec key x⟩⟩
  · rw [Block.toBytes_ofBytes bytes hlen.ge, List.take_of_length_le hlen.le]
  · exact Block.getElem?_eq_entry hlen hr hc
  · have hmix := Block.column_mapCols mixColumn s hc
    have hinv := Block.column_mapCols invMixColumn s hc
    simp only [Block.column, mixColumn, invMixColumn, Col.mk.injEq] at hmix hinv
    obtain ⟨m0, m1, m2, m3⟩ := hmix
    exact ⟨m0, m1, m2, m3, hinv⟩
  · exact congrArg (fun u => addRoundKey _ _ (shiftRows (subBytes u))) (encRounds_eq_foldl _ _ _)
  · exact congrArg (fun u => addRoundKey _ _ (invSubBytes (invShiftRows u))) (decRounds_eq_foldl _ _ _)

end Sys2Proof.Machine
end

section
/-! The key schedule. -/

namespace Sys2Proof.Machine

@[simp] theorem length_expandKey (nk n : Nat) (w : List Col) : (expandKey nk n w).length = w.length + n := by
  induction n generalizing w with
  | zero => rfl
  | succ n ih =>
    rw [expandKey, ih, List.length_append, List.length_singleton]
    omega

@[simp] theorem length_keyWords (n : Nat) (key : List Byte) : (keyWords n key).length = n := by
  simp [keyWords]

/-- The expansion only adds words at the end. -/
theorem prefix_expandKey (nk n : Nat) (w : List Col) : w <+: expandKey nk n w := by
  induction n generalizing w with
  | zero => exact List.prefix_refl w
  | succ n ih => exact (List.prefix_append w _).trans (ih _)

/-- Each word added is the next one after the words before it. -/
theorem expandKey_getElem? (nk n : Nat) {w : List Col} {i : Nat} (hlo : w.length ≤ i) (hhi : i < w.length + n) :
    (expandKey nk n w)[i]? = some (nextKeyWord nk ((expandKey nk n w).take i)) := by
  induction n generalizing w with
  | zero => omega
  | succ n ih =>
    rw [expandKey]
    by_cases hi : i = w.length
    · subst hi
      obtain ⟨later, hlater⟩ := prefix_expandKey nk n (w ++ [nextKeyWord nk w])
      rw [← hlater]
      simp
    · refine ih ?_ ?_ <;> rw [List.length_append, List.length_singleton] <;> omega

/-- The word of index `i` of R79 from the words before it. -/
theorem nextKeyWord_take {nk i : Nat} (w : List Col) (hnk : 0 < nk) (hle : nk ≤ i) (hi : i ≤ w.length) :
    nextKeyWord nk (w.take i) =
      (w.getD (i - nk) Col.zero).xor
        (if i % nk = 0 then (subWord (rotWord (w.getD (i - 1) Col.zero))).xor (rcon (i / nk))
         else if nk = 8 ∧ i % nk = 4 then subWord (w.getD (i - 1) Col.zero)
         else w.getD (i - 1) Col.zero) := by
  have hget : ∀ j < i, (w.take i).getD j Col.zero = w.getD j Col.zero := fun j hj => by
    rw [List.getD_eq_getElem?_getD, List.getElem?_take, if_pos hj, ← List.getD_eq_getElem?_getD]
  simp only [nextKeyWord, List.length_take, Nat.min_eq_left hi, hget (i - 1) (by omega), hget (i - nk) (by omega)]

theorem Col.toBytes_ofBytes {bytes : List Byte} {i : Nat} (h : i + 4 ≤ bytes.length) :
    (Col.ofBytes bytes i).toBytes = (bytes.drop i).take 4 := by
  have hdrop : ∀ j < bytes.length, bytes.drop j = bytes.getD j 0 :: bytes.drop (j + 1) := fun j hj => by
    rw [List.getD_eq_getElem _ _ hj, List.drop_eq_getElem_cons hj]
  rw [hdrop i (by omega), hdrop (i + 1) (by omega), hdrop (i + 2) (by omega), hdrop (i + 3) (by omega)]
  rfl

/-- Settles O31: the first words are the key's own, and each later one is the next word after those before it. -/
theorem keyScheduleFollowsItsRecurrence : Obligations.KeyScheduleFollowsItsRecurrence := by
  intro key nk hnk hlen
  have hexp : keyExpansion key = expandKey nk (4 * (nk + 7) - nk) (keyWords nk key) := by
    rw [keyExpansion, keyNr, keyNk, hlen, Nat.mul_div_cancel_left nk (by decide)]
  have hlength : (keyExpansion key).length = 4 * (nk + 7) := by
    rw [hexp, length_expandKey, length_keyWords]
    omega
  refine ⟨hlength, fun i hi => ?_, fun i hlo hhi => ?_⟩
  · obtain ⟨later, hlater⟩ := prefix_expandKey nk (4 * (nk + 7) - nk) (keyWords nk key)
    have hword : (keyExpansion key).getD i Col.zero = Col.ofBytes key (4 * i) := by
      rw [hexp, ← hlater, List.getD_append _ _ _ _ (by simpa using hi), List.getD_eq_getElem _ _ (by simpa using hi)]
      simp [keyWords]
    exact (congrArg Col.toBytes hword).trans (Col.toBytes_ofBytes (by omega))
  · have hnext : (keyExpansion key)[i]? = some (nextKeyWord nk ((keyExpansion key).take i)) := by
      rw [hexp]
      exact expandKey_getElem? nk _ (by simpa using hlo) (by rw [length_keyWords]; omega)
    calc (keyExpansion key).getD i Col.zero = nextKeyWord nk ((keyExpansion key).take i) := by
          rw [List.getD_eq_getElem?_getD, hnext, Option.getD_some]
      _ = _ := nextKeyWord_take _ (by omega) hlo (by omega)

end Sys2Proof.Machine
end

section
/-! The blocks of CBC, each from the one before it. -/

namespace Sys2Proof.Machine

theorem blocksOf_getElem? (n : Nat) (bytes : List Byte) {k : Nat} (hk : k < n) :
    (blocksOf n bytes)[k]? = some (Block.ofBytes (bytes.drop (16 * k))) := by
  induction n generalizing bytes k with
  | zero => omega
  | succ n ih =>
    cases k with
    | zero => rfl
    | succ k =>
      rw [blocksOf, List.getElem?_cons_succ, ih _ (by omega), List.drop_drop, Nat.mul_succ, Nat.add_comm 16]

/-- The blocks of a sequence of blocks' bytes are those blocks. -/
theorem getElem?_eq_ofBytes_drop {blocks : List Block} {k : Nat} (hk : k < blocks.length) :
    blocks[k]? = some (Block.ofBytes ((bytesOfBlocks blocks).drop (16 * k))) := by
  have hsplit : blocksOf blocks.length (bytesOfBlocks blocks) = blocks := by
    simpa using blocksOf_bytesOfBlocks blocks []
  rw [← blocksOf_getElem? blocks.length _ hk, hsplit]

/-- The block before block `k` of a byte sequence, the first block's being `iv`. -/
theorem cons_getElem?_before {blocks : List Block} {bytes : List Byte} {n : Nat}
    (hget : ∀ j < n, blocks[j]? = some (Block.ofBytes (bytes.drop (16 * j)))) (iv : Block) {k : Nat} (hk : k < n) :
    (iv :: blocks)[k]? = some (if k = 0 then iv else Block.ofBytes (bytes.drop (16 * (k - 1)))) := by
  cases k with
  | zero => rfl
  | succ k => exact hget k (by omega)

/-- Block `k` of the output of R83, the block before the first being the IV. -/
theorem cbcEncBlocks_getElem? (enc : Block → Block) (prev : Block) {xs : List Block} {k : Nat} {x before : Block}
    (hx : xs[k]? = some x) (hbefore : (prev :: cbcEncBlocks enc prev xs)[k]? = some before) :
    (cbcEncBlocks enc prev xs)[k]? = some (enc (x.xor before)) := by
  induction xs generalizing prev k with
  | nil => simp at hx
  | cons x₀ xs ih =>
    cases k with
    | zero =>
      cases hx
      cases hbefore
      rfl
    | succ k => exact ih _ hx hbefore

/-- Block `k` of the output of R84, likewise. -/
theorem cbcDecBlocks_getElem? (dec : Block → Block) (prev : Block) {ys : List Block} {k : Nat} {y before : Block}
    (hy : ys[k]? = some y) (hbefore : (prev :: ys)[k]? = some before) :
    (cbcDecBlocks dec prev ys)[k]? = some ((dec y).xor before) := by
  induction ys generalizing prev k with
  | nil => simp at hy
  | cons y₀ ys ih =>
    cases k with
    | zero =>
      cases hy
      cases hbefore
      rfl
    | succ k => exact ih _ hy hbefore

/-- Settles O33: each block of the output by the loop's own recurrence, the blocks of both sequences read from their bytes. -/
theorem cbcChainsTheBlocks : Obligations.CbcChainsTheBlocks := by
  intro key iv x n hlen
  have hn : x.length / 16 = n := by omega
  refine ⟨by rw [length_cbcEnc, hn], by rw [length_cbcDec, hn], fun k hk => ⟨?_, ?_⟩⟩
  · have hin := blocksOf_getElem? n x hk
    have hout : ∀ j < n, (cbcEncBlocks (aesEnc key) (Block.ofBytes iv) (blocksOf n x))[j]? =
        some (Block.ofBytes ((cbcEnc key iv x).drop (16 * j))) := fun j hj => by
      rw [cbcEnc, hn]
      exact getElem?_eq_ofBytes_drop (by simpa using hj)
    have hstep := cbcEncBlocks_getElem? (aesEnc key) (Block.ofBytes iv) hin (cons_getElem?_before hout _ hk)
    exact Option.some.inj ((hout k hk).symm.trans hstep)
  · have hin : ∀ j < n, (blocksOf n x)[j]? = some (Block.ofBytes (x.drop (16 * j))) := fun j => blocksOf_getElem? n x
    have hout : (cbcDecBlocks (aesDec key) (Block.ofBytes iv) (blocksOf n x))[k]? =
        some (Block.ofBytes ((cbcDec key iv x).drop (16 * k))) := by
      rw [cbcDec, hn]
      exact getElem?_eq_ofBytes_drop (by simpa using hk)
    have hstep := cbcDecBlocks_getElem? (aesDec key) (Block.ofBytes iv) (hin k hk) (cons_getElem?_before hin _ hk)
    exact Option.some.inj (hout.symm.trans hstep)

end Sys2Proof.Machine
end

section
/-! PKCS#7 padding, its check and its removal. -/

namespace Sys2Proof.Machine

theorem finalByte_of_getElem? {x : List Byte} {n : Byte} (h : x[x.length - 1]? = some n) : finalByte x = n := by
  rw [finalByte, List.getD_eq_getElem?_getD, h, Option.getD_some]

theorem forall_mem_drop_eq_iff (x : List Byte) (m : Nat) (n : Byte) :
    (∀ b ∈ x.drop m, b = n) ↔ ∀ i, m ≤ i → i < x.length → x[i]? = some n := by
  simp only [List.mem_drop_iff_getElem]
  constructor
  · intro h i hlo hhi
    obtain ⟨j, rfl⟩ := Nat.exists_eq_add_of_le hlo
    rw [List.getElem?_eq_getElem hhi, h _ ⟨j, by omega, rfl⟩]
  · rintro h _ ⟨j, hj, rfl⟩
    have hj' : m + j < x.length := by omega
    exact Option.some.inj ((List.getElem?_eq_getElem hj').symm.trans (h (m + j) (Nat.le_add_right m j) hj'))

/-- What the check says of the bytes of the sequence (R86). -/
theorem padValid_iff (x : List Byte) :
    padValid x = true ↔ 1 ≤ (finalByte x).toNat ∧ (finalByte x).toNat ≤ 16 ∧
      ∀ i, x.length - (finalByte x).toNat ≤ i → i < x.length → x[i]? = some (finalByte x) := by
  simp only [padValid, Bool.and_eq_true, decide_eq_true_eq, List.all_eq_true, beq_iff_eq, and_assoc,
    forall_mem_drop_eq_iff]

theorem padCount_pos (len : Nat) : 1 ≤ padCount len := by
  rw [padCount]
  omega

theorem padCount_le (len : Nat) : padCount len ≤ 16 := Nat.sub_le 16 _

theorem toNat_ofNat_padCount (len : Nat) : (BitVec.ofNat 8 (padCount len)).toNat = padCount len := by
  have hle := padCount_le len
  rw [BitVec.toNat_ofNat]
  omega

theorem length_pad_eq_add (p : List Byte) : (pad p).length = p.length + padCount p.length := by
  simp [pad]

/-- Every byte that padding adds is their number (R85). -/
theorem pad_getElem? {p : List Byte} {i : Nat} (hlo : p.length ≤ i) (hhi : i < (pad p).length) :
    (pad p)[i]? = some (BitVec.ofNat 8 (padCount p.length)) := by
  rw [length_pad_eq_add] at hhi
  rw [pad, List.getElem?_append_right hlo, List.getElem?_replicate, if_pos (by omega)]

theorem pad_take (p : List Byte) : (pad p).take p.length = p := List.take_left

theorem finalByte_pad (p : List Byte) : finalByte (pad p) = BitVec.ofNat 8 (padCount p.length) := by
  have hpos := padCount_pos p.length
  have hlen := length_pad_eq_add p
  exact finalByte_of_getElem? (pad_getElem? (by omega) (by omega))

/-- R88: padding is valid. -/
@[simp] theorem padValid_pad (p : List Byte) : padValid (pad p) = true := by
  rw [padValid_iff, finalByte_pad, toNat_ofNat_padCount, length_pad_eq_add]
  refine ⟨padCount_pos _, padCount_le _, fun i hlo hhi => pad_getElem? (by omega) ?_⟩
  rwa [length_pad_eq_add]

/-- R88: removing the padding gives the message. -/
@[simp] theorem unpad_pad (p : List Byte) : unpad (pad p) = p := by
  rw [unpad, finalByte_pad, toNat_ofNat_padCount, length_pad_eq_add, Nat.add_sub_cancel, pad_take]

/-- Settles O34: the bytes that padding adds, and the check and the removal by the final byte. -/
theorem paddingIsPkcs7 : Obligations.PaddingIsPkcs7 := by
  refine ⟨fun p => ⟨length_pad p, pad_take p, fun i hlo hhi => pad_getElem? hlo hhi⟩, fun x n _ _ hfinal => ?_⟩
  obtain rfl := finalByte_of_getElem? hfinal
  exact ⟨padValid_iff x, rfl⟩

end Sys2Proof.Machine
end

section
/-! CBC decryption undoes CBC encryption. -/

namespace Sys2Proof.Machine

theorem cbcDecBlocks_cbcEncBlocks {enc dec : Block → Block} (hdec : ∀ x, dec (enc x) = x) (prev : Block)
    (xs : List Block) : cbcDecBlocks dec prev (cbcEncBlocks enc prev xs) = xs := by
  induction xs generalizing prev with
  | nil => rfl
  | cons x xs ih => rw [cbcEncBlocks, cbcDecBlocks, hdec, Block.xor_xor_cancel, ih]

/-- A whole number of blocks is the bytes of its blocks (R14, R73). -/
theorem bytesOfBlocks_blocksOf {n : Nat} {bytes : List Byte} (hlen : bytes.length = 16 * n) :
    bytesOfBlocks (blocksOf n bytes) = bytes := by
  induction n generalizing bytes with
  | zero => exact (List.length_eq_zero_iff.mp hlen).symm
  | succ n ih =>
    calc bytesOfBlocks (blocksOf (n + 1) bytes)
        = (Block.ofBytes bytes).toBytes ++ bytesOfBlocks (blocksOf n (bytes.drop 16)) := rfl
      _ = bytes.take 16 ++ bytes.drop 16 := by
        rw [Block.toBytes_ofBytes bytes (by omega), ih (by rw [List.length_drop]; omega)]
      _ = bytes := List.take_append_drop 16 bytes

theorem cbcDec_cbcEnc (key iv : List Byte) {x : List Byte} (hlen : x.length % 16 = 0) :
    cbcDec key iv (cbcEnc key iv x) = x := by
  have hblocks : blocksOf ((cbcEnc key iv x).length / 16) (cbcEnc key iv x) =
      cbcEncBlocks (aesEnc key) (Block.ofBytes iv) (blocksOf (x.length / 16) x) := by
    rw [length_cbcEnc, Nat.mul_div_cancel_left _ (by decide), cbcEnc]
    simpa using blocksOf_bytesOfBlocks (cbcEncBlocks (aesEnc key) (Block.ofBytes iv) (blocksOf (x.length / 16) x)) []
  rw [cbcDec, hblocks, cbcDecBlocks_cbcEncBlocks (aesDec_aesEnc key), bytesOfBlocks_blocksOf (by omega)]

/-- R88 without its last removal of the padding. -/
@[simp] theorem cbcDec_cbcEnc_pad (key iv p : List Byte) : cbcDec key iv (cbcEnc key iv (pad p)) = pad p :=
  cbcDec_cbcEnc key iv (by rw [length_pad, Nat.mul_mod_right])

/-- Settles O35: CBC gives the padded message back, whose padding is valid and is removed again. -/
theorem cbcRoundTripWithPadding : Obligations.CbcRoundTripWithPadding := fun p key iv =>
  ⟨padValid_pad p, unpad_pad p, cbcDec_cbcEnc_pad key iv p, by rw [cbcDec_cbcEnc_pad, unpad_pad]⟩

end Sys2Proof.Machine
end

section
/-! A data command whose operands pass the checks, and the round trip on the machine. -/

namespace Sys2Proof.Machine

/-- An input whose bytes have all been written is read as it was written, with no free value used. -/
theorem InputIs.input {ch : Channel} {x : List Byte} (h : InputIs ch x) (draws : Nat) : ch.input draws = (x, draws) := by
  rw [Channel.input, h.inLen]
  refine Memory.drawBytes_of_some (fun i hi => ?_) draws
  rw [Nat.zero_add, h.bytes i hi, List.getElem?_eq_getElem hi]

/-- The checks pass for legal key material and an input that fits and, but for ENC, is a positive number of whole blocks (R90). -/
theorem validate_ok {op : DataOp} {n : Nat} {ch : Channel} (hlegal : KeyMaterialLegal ch) (hle : ch.inLen.toNat ≤ n)
    (hwhole : op = .enc ∨ 0 < ch.inLen.toNat ∧ ch.inLen.toNat % 16 = 0) : validate op n ch = .ok () := by
  have hkey := ch.keyMaterialOk_iff.mpr hlegal
  have hblocks : op = .enc ∨ notWholeBlocks ch.inLen.toNat = false :=
    hwhole.imp_right fun ⟨hpos, hmod⟩ => by simp [notWholeBlocks, hmod, Nat.ne_of_gt hpos]
  rcases hblocks with rfl | hblocks
  · simp [validate, hkey, hle]
  · cases op <;> simp [validate, hkey, hle, hblocks]

theorem length_lastBlock {y : List Byte} (hpos : 0 < y.length) (hmod : y.length % 16 = 0) : (lastBlock y).length = 16 := by
  obtain ⟨-, hlen⟩ := lastBlock_eq_drop (y := y) (n := y.length / 16) (by omega) (by omega)
  exact hlen

theorem length_cbcEnc_pad (key iv x : List Byte) : (cbcEnc key iv (pad x)).length = 16 * (x.length / 16 + 1) := by
  rw [length_cbcEnc, length_pad, Nat.mul_div_cancel_left _ (by decide)]

section

variable {s : State} {ch : Channel} {x : List Byte} (hparams : Config.paramsOk s.numCh s.bufBytes = true)
  (hch : s.chan? s.sel = some ch) (hbusy : ch.busy = true) (hinput : InputIs ch x)
include hparams hch hbusy hinput

/-- A data command whose checks pass, whose input is written and whose cipher raises no error completes with that output (R91 to
R95, R119). -/
theorem exec_data_completes {i : Instr} {op : DataOp} {cipher : Cipher} (hbody : bodyOf i = some (dataBody op cipher))
    {y chain : List Byte} (hvalid : validate op s.bufBytes ch = .ok ())
    (hcipher : cipher ch.keyBytes ch.ivBytes x = .ok (y, chain)) (hy : y.length ≤ s.bufBytes + 16)
    (hchain : chain.length = 16) :
    ∃ t ch', exec i s = .next t ∧ CompletedWith .ok s t ch' ∧ OutputIs s.bufBytes ch' y chain := by
  have hbuf := bufBytes_le_of_paramsOk hparams
  have hran : (dataBody op cipher s.bufBytes ch s.draws).1 = .ok (ch.finish s.bufBytes y chain) := by
    simp only [dataBody, hvalid, hinput.input, hcipher]
  refine ⟨_, _, (exec_of_body hbody s).trans (complete_of_busy _ hch hbusy),
    State.afterBody_completedWith hch (by rw [hran]; rfl), ?_⟩
  rw [hran]
  exact ch.finish_outputIs (by omega) hy hchain

variable (hlegal : KeyMaterialLegal ch) (hle : x.length ≤ s.bufBytes)
include hlegal hle

/-- ENC with operands that pass the checks (R91). -/
theorem exec_enc_completes : ∃ t ch', exec .enc s = .next t ∧ CompletedWith .ok s t ch' ∧
    OutputIs s.bufBytes ch' (cbcEnc ch.keyBytes ch.ivBytes (pad x)) (lastBlock (cbcEnc ch.keyBytes ch.ivBytes (pad x))) := by
  have hlen := length_cbcEnc_pad ch.keyBytes ch.ivBytes x
  exact exec_data_completes hparams hch hbusy hinput (i := .enc) rfl
    (validate_ok hlegal (hinput.inLen.trans_le hle) (.inl rfl)) rfl (by omega) (length_lastBlock (by omega) (by omega))

/-- DEC with operands that pass the checks and valid padding (R92). -/
theorem exec_dec_completes (hpos : 0 < x.length) (hmod : x.length % 16 = 0)
    (hpad : padValid (cbcDec ch.keyBytes ch.ivBytes x) = true) : ∃ t ch', exec .dec s = .next t ∧
    CompletedWith .ok s t ch' ∧ OutputIs s.bufBytes ch' (unpad (cbcDec ch.keyBytes ch.ivBytes x)) (lastBlock x) := by
  have hlen := (length_unpad_le _).trans_eq (length_cbcDec ch.keyBytes ch.ivBytes x)
  exact exec_data_completes hparams hch hbusy hinput (i := .dec) rfl
    (validate_ok hlegal (hinput.inLen.trans_le hle) (.inr (by rw [hinput.inLen]; exact ⟨hpos, hmod⟩))) (if_pos hpad)
    (by omega) (length_lastBlock hpos hmod)

end

/-- Settles O36: ENC's output is the encryption of the padded message, and that is the input on which DEC completes. -/
theorem decGivesBackWhatEncWasGiven : Obligations.DecGivesBackWhatEncWasGiven := by
  intro s t s' ch mid ch' x hparams hch hbusy hlegal hinput hle hexec hmid hparams' hch' hbusy' hkeyLen hkey hivLen hiv
    hinLen hdin hfit
  obtain ⟨t₁, mid₁, hexec₁, hdone, hout⟩ := exec_enc_completes hparams hch hbusy hinput hlegal hle
  obtain rfl : t = t₁ := Host.Outcome.next.inj (hexec.symm.trans hexec₁)
  obtain rfl : mid = mid₁ := Option.some.inj (hmid.symm.trans hdone.now)
  have hiv' : ch'.ivBytes = ch.ivBytes := congrArg regBytes hiv
  have hlen := length_cbcEnc_pad ch.keyBytes ch.ivBytes x
  have hback := cbcDec_cbcEnc_pad ch.keyBytes ch.ivBytes x
  have hinput' : InputIs ch' (cbcEnc ch.keyBytes ch.ivBytes (pad x)) :=
    ⟨hinLen ▸ hout.outLen, fun i hi => (hdin i (hout.outLen ▸ hi)).trans (hout.bytes i hi)⟩
  have hlegal' : KeyMaterialLegal ch' := ⟨hkeyLen ▸ hlegal.keyLen, hivLen ▸ hlegal.ivLen⟩
  obtain ⟨t', back, hexec', hdone', hout'⟩ := exec_dec_completes hparams' hch' hbusy' hinput' hlegal'
    (hout.outLen ▸ hfit) (by omega) (by omega) (by rw [hkey, hiv', hback, padValid_pad])
  rw [hkey, hiv', hback, unpad_pad] at hout'
  exact ⟨t', back, hexec', hdone', hout'.outLen, hout'.bytes⟩

end Sys2Proof.Machine
end

section
/-! The four data commands on any input: what each leaves when the checks pass, and what its results depend on. -/

namespace Sys2Proof.Machine

theorem dataBody_of_ok {op : DataOp} {cipher : Cipher} {n draws : Nat} {ch : Channel} {y chain : List Byte}
    (hvalid : validate op n ch = .ok ()) (hcipher : cipher ch.keyBytes ch.ivBytes (ch.input draws).1 = .ok (y, chain)) :
    dataBody op cipher n ch draws = (.ok (ch.finish n y chain), (ch.input draws).2) := by
  simp only [dataBody, hvalid, hcipher]

theorem dataBody_of_error {op : DataOp} {cipher : Cipher} {n draws : Nat} {ch : Channel} {code : ErrCode}
    (hvalid : validate op n ch = .ok ()) (hcipher : cipher ch.keyBytes ch.ivBytes (ch.input draws).1 = .error code) :
    dataBody op cipher n ch draws = (.error code, (ch.input draws).2) := by
  simp only [dataBody, hvalid, hcipher]

section

variable {s : State} {ch : Channel} (hch : s.chan? s.sel = some ch) (hbusy : ch.busy = true)
  {i : Instr} {op : DataOp} {cipher : Cipher} (hbody : bodyOf i = some (dataBody op cipher))
include hch hbusy hbody

theorem exec_of_dataBody {ran : Except ErrCode Channel × Nat} (hran : dataBody op cipher s.bufBytes ch s.draws = ran) :
    exec i s = .next (s.afterBody ch ran) := by
  rw [exec_of_body hbody, complete_of_busy _ hch hbusy, hran]

variable (hvalid : validate op s.bufBytes ch = .ok ())
include hvalid

/-- A data command whose checks pass and whose cipher gives `y`, with the last block of `w` as the chaining value, completes with them,
whatever the input holds (R91 to R95, R119). -/
theorem exec_data_finishes (hparams : Config.paramsOk s.numCh s.bufBytes = true) {y w : List Byte} {len k : Nat}
    (hcipher : cipher ch.keyBytes ch.ivBytes (ch.input s.draws).1 = .ok (y, lastBlock w))
    (hy : y.length = len) (hlen : len ≤ s.bufBytes + 16) (hw : w.length = 16 * k) (hk : 0 < k) :
    ∃ t ch', exec i s = .next t ∧ CompletedWith .ok s t ch' ∧ InputsKept ch ch' ∧
      OutputIs s.bufBytes ch' y (w.drop (w.length - 16)) ∧ ch'.outLen.toNat = len ∧ t.draws = (ch.input s.draws).2 := by
  have hbuf := bufBytes_le_of_paramsOk hparams
  obtain ⟨hlast, hchain⟩ := lastBlock_eq_drop hw hk
  have hran := dataBody_of_ok hvalid hcipher
  have hkept := dataBody_inputsKept op cipher s.bufBytes ch s.draws
  have hout := ch.finish_outputIs (n := s.bufBytes) (by omega) (hy.trans_le hlen) hchain
  rw [hran] at hkept
  rw [← hlast]
  exact ⟨_, _, exec_of_dataBody hch hbusy hbody hran, State.afterBody_completedWith hch rfl, hkept, hout,
    hout.outLen.trans hy, rfl⟩

/-- A data command whose checks pass and whose cipher raises a code ends with it (R119, R120). -/
theorem exec_data_raises {code : ErrCode} (hcipher : cipher ch.keyBytes ch.ivBytes (ch.input s.draws).1 = .error code) :
    ∃ t ch', exec i s = .next t ∧ CompletedWith code s t ch' ∧ OutputErased s.bufBytes ch ch' ∧
      t.draws = (ch.input s.draws).2 :=
  ⟨_, _, exec_of_dataBody hch hbusy hbody (dataBody_of_error hvalid hcipher), State.afterBody_completedWith hch rfl,
    ch.settle_error_erased _ code, rfl⟩

end

/-- Settles O6: ENC pads, so its output is one block more than the whole blocks of the input. -/
theorem encCompletesWithTheCiphertext : Obligations.EncCompletesWithTheCiphertext := by
  intro s ch hparams hch hbusy hlegal hle x y
  have hy : y.length = 16 * (ch.inLen.toNat / 16 + 1) := by rw [length_cbcEnc_pad, Channel.length_input]
  exact exec_data_finishes hch hbusy (i := .enc) rfl (validate_ok hlegal hle (.inl rfl)) hparams rfl hy (by omega) hy
    (Nat.succ_pos _)

/-- Settles O7: ENC_RAW's output is as long as its input, which is a positive number of whole blocks. -/
theorem encRawCompletesWithTheCiphertext : Obligations.EncRawCompletesWithTheCiphertext := by
  intro s ch hparams hch hbusy hlegal hpos hmod hle y
  have hy : y.length = 16 * (ch.inLen.toNat / 16) := by rw [length_cbcEnc, Channel.length_input]
  exact exec_data_finishes hch hbusy (i := .encRaw) rfl (validate_ok hlegal hle (.inr ⟨hpos, hmod⟩)) hparams rfl
    (by omega) (by omega) hy (by omega)

/-- Settles O8: valid padding is removed, and what is left is shorter than the input. -/
theorem decCompletesWithTheMessage : Obligations.DecCompletesWithTheMessage := by
  intro s ch hparams hch hbusy hlegal hpos hmod hle x z hpad
  have hx : x.length = ch.inLen.toNat := ch.length_input s.draws
  have hz : z.length = ch.inLen.toNat := by rw [length_cbcDec]; omega
  exact exec_data_finishes hch hbusy (i := .dec) rfl (validate_ok hlegal hle (.inr ⟨hpos, hmod⟩)) hparams (if_pos hpad)
    (List.length_take.trans (by omega)) (by omega) (k := ch.inLen.toNat / 16) (by omega) (by omega)

/-- Settles O10: DEC_RAW checks no padding, and its chaining value is the last block of the input. -/
theorem decRawCompletesWithTheDecryption : Obligations.DecRawCompletesWithTheDecryption := by
  intro s ch hparams hch hbusy hlegal hpos hmod hle x
  have hx : x.length = ch.inLen.toNat := ch.length_input s.draws
  exact exec_data_finishes hch hbusy (i := .decRaw) rfl (validate_ok hlegal hle (.inr ⟨hpos, hmod⟩)) hparams rfl
    (by rw [length_cbcDec]; omega) (by omega) (k := ch.inLen.toNat / 16) (by omega) (by omega)

/-! What the results depend on (R97) -/

/-- An input whose bytes have all been written is some message. -/
theorem Channel.exists_inputIs {ch : Channel} (h : ∀ j, j < ch.inLen.toNat → ch.din.get? j ≠ none) :
    ∃ x, InputIs ch x := by
  refine ⟨(List.range ch.inLen.toNat).map fun j => (ch.din.get? j).getD 0, by simp, fun j hj => ?_⟩
  have hlt : j < ch.inLen.toNat := by simpa using hj
  obtain ⟨b, hb⟩ := Option.ne_none_iff_exists'.mp (h j hlt)
  simp [hlt, hb]

theorem validate_congr {a b : Channel} (hkeyLen : a.keyLen = b.keyLen) (hivLen : a.ivLen = b.ivLen)
    (hinLen : a.inLen = b.inLen) (op : DataOp) (n : Nat) : validate op n a = validate op n b := by
  unfold validate Channel.keyMaterialOk
  rw [hkeyLen, hivLen, hinLen]

/-- Two channels that agree in the operands: both raise the same code, or both finish with the same output and chaining value. -/
theorem dataBody_agree {op : DataOp} (cipher : Cipher) {n : Nat} {a b : Channel} {draws draws' : Nat}
    (hvalid : validate op n a = validate op n b) (hkey : a.keyBytes = b.keyBytes) (hiv : a.ivBytes = b.ivBytes)
    (hinput : validate op n a = .ok () → (a.input draws).1 = (b.input draws').1) :
    (∃ code, (dataBody op cipher n a draws).1 = .error code ∧ (dataBody op cipher n b draws').1 = .error code) ∨
      ∃ y chain, (dataBody op cipher n a draws).1 = .ok (a.finish n y chain) ∧
        (dataBody op cipher n b draws').1 = .ok (b.finish n y chain) := by
  rcases dataBody_cases op cipher n a draws with ⟨code, hv, h⟩ | ⟨hv, ⟨code, hc, h⟩ | ⟨y, chain, hc, h⟩⟩ <;> rw [h]
  · exact .inl ⟨code, rfl, by simp only [dataBody, ← hvalid, hv]⟩
  · rw [hkey, hiv, hinput hv] at hc
    exact .inl ⟨code, rfl, by rw [dataBody_of_error (hvalid ▸ hv) hc]⟩
  · rw [hkey, hiv, hinput hv] at hc
    exact .inr ⟨y, chain, rfl, by rw [dataBody_of_ok (hvalid ▸ hv) hc]⟩

theorem BodyEnds.ne_ok {n : Nat} {ch : Channel} {code : ErrCode} (h : BodyEnds n ch (.error code)) : code ≠ .ok := by
  cases h with
  | failed _ hne => exact hne

/-- Settles O38: where the checks pass, both inputs are the same written message, so both bodies end alike. -/
theorem resultsDependOnTheOperandsAlone : Obligations.ResultsDependOnTheOperandsAlone := by
  intro i s s' t a b a' hdata hbuf ha hb hbusy hkeyLen hkey hivLen hiv hinLen hdin hexec ha'
  obtain ⟨op, cipher, hbody⟩ := bodyOf_data hdata
  have hinput (hv : validate op s.bufBytes a = .ok ()) : (a.input s.draws).1 = (b.input s'.draws).1 := by
    have hwritten := hdin (validate_ok_le hv)
    obtain ⟨x, hx⟩ := a.exists_inputIs fun j hj => (hwritten j hj).1
    have hx' : InputIs b x := ⟨hinLen ▸ hx.inLen, fun j hj =>
      (hwritten j (hj.trans_eq hx.inLen.symm)).2.symm.trans (hx.bytes j hj)⟩
    rw [hx.input, hx'.input]
  rw [exec_of_body hbody] at hexec
  obtain ⟨_, ha₀, _, rfl⟩ := complete_next hexec
  obtain rfl := Option.some.inj (ha₀.symm.trans ha)
  obtain rfl := Option.some.inj (ha'.symm.trans (State.afterBody_chan?_self ha _))
  refine ⟨_, _, (exec_of_body hbody s').trans (complete_of_busy _ hb hbusy), State.afterBody_chan?_self hb _, ?_⟩
  rw [← hbuf]
  rcases dataBody_agree cipher (validate_congr hkeyLen hivLen hinLen op _) hkey (congrArg regBytes hiv) hinput with
    ⟨code, hran, hran'⟩ | ⟨y, chain, hran, hran'⟩
  · have hne := (hran ▸ bodyOf_ends hbody s.bufBytes _ s.draws).ne_ok
    rw [hran, hran']
    simp [hne]
  · rw [hran, hran']
    simp

end Sys2Proof.Machine
end

section
/-! A message in two chunks: CBC, padding and the padding check of a first run of whole blocks and the rest (R96). -/

namespace Sys2Proof.Machine

theorem blocksOf_append {n : Nat} {x : List Byte} (hx : x.length = 16 * n) (k : Nat) (y : List Byte) :
    blocksOf (n + k) (x ++ y) = blocksOf n x ++ blocksOf k y := by
  induction n generalizing x with
  | zero => rw [List.length_eq_zero_iff.mp hx, Nat.zero_add]; rfl
  | succ n ih =>
    have hfirst : Block.ofBytes (x ++ y) = Block.ofBytes x := by
      have htake : (x ++ y).take 16 = x.take 16 := List.take_append_of_le_length (by omega)
      rw [← Block.ofBytes_toBytes (Block.ofBytes (x ++ y)), ← Block.ofBytes_toBytes (Block.ofBytes x),
        Block.toBytes_ofBytes _ (by rw [List.length_append]; omega), Block.toBytes_ofBytes _ (by omega), htake]
    rw [Nat.add_right_comm, blocksOf, blocksOf, hfirst, List.drop_append_of_le_length (by omega),
      ih (by rw [List.length_drop]; omega), List.cons_append]

theorem bytesOfBlocks_append (xs ys : List Block) : bytesOfBlocks (xs ++ ys) = bytesOfBlocks xs ++ bytesOfBlocks ys :=
  List.flatMap_append

/-- The loop of R83 over two chunks: the second starts from the last ciphertext block of the first. -/
theorem cbcEncBlocks_append (enc : Block → Block) (prev : Block) (xs ys : List Block) :
    cbcEncBlocks enc prev (xs ++ ys) =
      cbcEncBlocks enc prev xs ++ cbcEncBlocks enc ((cbcEncBlocks enc prev xs).getLastD prev) ys := by
  induction xs generalizing prev with
  | nil => rfl
  | cons x xs ih => rw [List.cons_append, cbcEncBlocks, ih, cbcEncBlocks, List.getLastD_cons, List.cons_append]

/-- The loop of R84 over two chunks, likewise. -/
theorem cbcDecBlocks_append (dec : Block → Block) (prev : Block) (xs ys : List Block) :
    cbcDecBlocks dec prev (xs ++ ys) = cbcDecBlocks dec prev xs ++ cbcDecBlocks dec (xs.getLastD prev) ys := by
  induction xs generalizing prev with
  | nil => rfl
  | cons x xs ih => rw [List.cons_append, cbcDecBlocks, ih, cbcDecBlocks, List.getLastD_cons, List.cons_append]

theorem ofBytes_lastBlock_bytesOfBlocks {blocks : List Block} (hpos : 0 < blocks.length) (prev : Block) :
    Block.ofBytes (lastBlock (bytesOfBlocks blocks)) = blocks.getLastD prev := by
  have hlen := length_bytesOfBlocks blocks
  have hoff : 16 * blocks.length - 16 = 16 * (blocks.length - 1) := by omega
  obtain ⟨hlast, -⟩ := lastBlock_eq_drop hlen hpos
  have hget := getElem?_eq_ofBytes_drop (blocks := blocks) (k := blocks.length - 1) (by omega)
  rw [hlast, hlen, hoff, List.getLastD_eq_getLast?, List.getLast?_eq_getElem?, hget, Option.getD_some]

section

variable {x : List Byte} (hmod : x.length % 16 = 0)
include hmod

theorem blocksOf_length_append (y : List Byte) :
    blocksOf ((x ++ y).length / 16) (x ++ y) = blocksOf (x.length / 16) x ++ blocksOf (y.length / 16) y := by
  rw [← blocksOf_append (by omega), List.length_append]
  congr 1
  omega

variable (hpos : 0 < x.length)
include hpos

theorem ofBytes_lastBlock (prev : Block) :
    Block.ofBytes (lastBlock x) = (blocksOf (x.length / 16) x).getLastD prev := by
  rw [← ofBytes_lastBlock_bytesOfBlocks (by rw [length_blocksOf]; omega), bytesOfBlocks_blocksOf (by omega)]

/-- CBC encryption of two chunks: the second with the last ciphertext block of the first as its IV (R83, R96). -/
theorem cbcEnc_append (key iv y : List Byte) :
    cbcEnc key iv (x ++ y) = cbcEnc key iv x ++ cbcEnc key (lastBlock (cbcEnc key iv x)) y := by
  have hlast : Block.ofBytes (lastBlock (cbcEnc key iv x)) = _ :=
    ofBytes_lastBlock_bytesOfBlocks (by rw [length_cbcEncBlocks, length_blocksOf]; omega) (Block.ofBytes iv)
  rw [cbcEnc, blocksOf_length_append hmod, cbcEncBlocks_append, bytesOfBlocks_append, ← hlast]
  rfl

/-- CBC decryption of two chunks: the second with the last block of the first as its IV (R84, R96). -/
theorem cbcDec_append (key iv y : List Byte) :
    cbcDec key iv (x ++ y) = cbcDec key iv x ++ cbcDec key (lastBlock x) y := by
  rw [cbcDec, blocksOf_length_append hmod, cbcDecBlocks_append, bytesOfBlocks_append,
    ← ofBytes_lastBlock hmod hpos]
  rfl

end

/-- A first chunk of whole blocks changes nothing of the padding of the rest (R85). -/
theorem pad_append {x : List Byte} (hmod : x.length % 16 = 0) (y : List Byte) : pad (x ++ y) = x ++ pad y := by
  have hcount : padCount (x ++ y).length = padCount y.length := by
    rw [padCount, padCount, List.length_append]
    omega
  rw [pad, hcount, List.append_assoc, pad]

theorem lastBlock_append {x y : List Byte} {n k : Nat} (hx : x.length = 16 * n) (hy : y.length = 16 * k) (hk : 0 < k) :
    lastBlock (x ++ y) = lastBlock y := by
  obtain ⟨hlast, -⟩ := lastBlock_eq_drop hy hk
  obtain ⟨hlast', -⟩ := lastBlock_eq_drop (y := x ++ y) (n := n + k) (by rw [List.length_append]; omega) (by omega)
  rw [hlast, hlast', List.length_append, Nat.add_sub_assoc (by omega), List.drop_length_add_append]

section

variable {y : List Byte} (hy : 16 ≤ y.length) (x : List Byte)
include hy

theorem finalByte_append : finalByte (x ++ y) = finalByte y := by
  rw [finalByte, finalByte, List.getD_eq_getElem?_getD, List.getD_eq_getElem?_getD, List.length_append,
    Nat.add_sub_assoc (by omega), List.getElem?_append_right (by omega), Nat.add_sub_cancel_left]

/-- The padding is within the last sixteen bytes (R86). -/
theorem padValid_append : padValid (x ++ y) = padValid y := by
  rw [padValid, padValid, finalByte_append hy]
  by_cases hle : (finalByte y).toNat ≤ 16
  · rw [List.length_append, Nat.add_sub_assoc (by omega), List.drop_length_add_append]
  · simp [hle]

/-- Removing the padding leaves the bytes before the last sixteen (R87). -/
theorem unpad_append (hpad : padValid y = true) : unpad (x ++ y) = x ++ unpad y := by
  obtain ⟨-, hle, -⟩ := (padValid_iff y).mp hpad
  rw [unpad, unpad, finalByte_append hy, List.length_append, Nat.add_sub_assoc (by omega), List.take_length_add_append]

end

end Sys2Proof.Machine
end

section
/-! A message in two chunks on the machine: the runs of the commands, and the results they leave. -/

namespace Sys2Proof.Machine

@[simp] theorem blockRegs_regBytes (regs : Vector Word 4) : blockRegs (regBytes regs) = regs := by
  obtain ⟨⟨l⟩, hl⟩ := regs
  match l, hl with
  | [w0, w1, w2, w3], _ => simp [regBytes, blockRegs, wordAt, bytesOfWord]

/-- Two runs whose outputs concatenate to a third's, and that end with the same chaining value. -/
theorem OutputIs.concatenate {n n₁ n₂ : Nat} {out out₁ out₂ : Channel} {y₁ y₂ chain₁ chain : List Byte}
    (h : OutputIs n out (y₁ ++ y₂) chain) (h₁ : OutputIs n₁ out₁ y₁ chain₁) (h₂ : OutputIs n₂ out₂ y₂ chain) :
    out.outLen.toNat = out₁.outLen.toNat + out₂.outLen.toNat ∧ out.chain = out₂.chain ∧
      (∀ i, i < out₁.outLen.toNat → out.dout.get? i = out₁.dout.get? i) ∧
      ∀ i, i < out₂.outLen.toNat → out.dout.get? (out₁.outLen.toNat + i) = out₂.dout.get? i := by
  have hchain : out.chain = out₂.chain := by
    rw [← blockRegs_regBytes out.chain, h.chain, ← h₂.chain, blockRegs_regBytes]
  have hlen := List.length_append (as := y₁) (bs := y₂)
  rw [h.outLen, h₁.outLen, h₂.outLen]
  refine ⟨hlen, hchain, fun i hi => ?_, fun i hi => ?_⟩
  · rw [h.bytes i (by omega), h₁.bytes i hi, List.getElem?_append_left hi]
  · rw [h.bytes _ (by omega), h₂.bytes i hi, List.getElem?_append_right (by omega), Nat.add_sub_cancel_left]

theorem busy_of_exec {i : Instr} {body : Body} (hbody : bodyOf i = some body) {s t : State} {ch : Channel}
    (hch : s.chan? s.sel = some ch) (h : exec i s = .next t) : ch.busy = true := by
  rw [exec_of_body hbody] at h
  obtain ⟨ran, hran, hbusy, -⟩ := complete_next h
  exact Option.some.inj (hran.symm.trans hch) ▸ hbusy

/-- A run has one end. -/
theorem CompletedWith.eq_of_exec {i : Instr} {s t t' : State} {code : ErrCode} {out ch' : Channel}
    (hdone : CompletedWith code s t' ch') (hexec' : exec i s = .next t') (hexec : exec i s = .next t)
    (hout : t.chan? s.sel = some out) : ch' = out := by
  obtain rfl := Host.Outcome.next.inj (hexec.symm.trans hexec')
  exact Option.some.inj (hdone.now.symm.trans hout)

/-- The checks pass for a written input of a positive number of whole blocks that fits (R90). -/
theorem InputIs.validate_ok {ch : Channel} {x : List Byte} (hinput : InputIs ch x) (hlegal : KeyMaterialLegal ch) {n : Nat}
    (hle : x.length ≤ n) (hpos : 0 < x.length) (hmod : x.length % 16 = 0) {op : DataOp} : validate op n ch = .ok () := by
  rw [← hinput.inLen] at hle hpos hmod
  exact Machine.validate_ok hlegal hle (.inr ⟨hpos, hmod⟩)

section

variable {s t : State} {ch out : Channel} {x : List Byte} (hparams : Config.paramsOk s.numCh s.bufBytes = true)
  (hch : s.chan? s.sel = some ch) (hlegal : KeyMaterialLegal ch) (hinput : InputIs ch x) (hle : x.length ≤ s.bufBytes)
  (hout : t.chan? s.sel = some out)
include hparams hch hlegal hinput hle hout

/-! What a run of each data command left, where the checks pass (R91 to R94, R114). -/

theorem enc_outputIs (hexec : exec .enc s = .next t) :
    OutputIs s.bufBytes out (cbcEnc ch.keyBytes ch.ivBytes (pad x)) (lastBlock (cbcEnc ch.keyBytes ch.ivBytes (pad x))) := by
  obtain ⟨t', ch', hexec', hdone, houtput⟩ :=
    exec_enc_completes hparams hch (busy_of_exec rfl hch hexec) hinput hlegal hle
  obtain rfl := hdone.eq_of_exec hexec' hexec hout
  exact houtput

variable (hpos : 0 < x.length) (hmod : x.length % 16 = 0)
include hpos hmod

theorem encRaw_outputIs (hexec : exec .encRaw s = .next t) :
    OutputIs s.bufBytes out (cbcEnc ch.keyBytes ch.ivBytes x) (lastBlock (cbcEnc ch.keyBytes ch.ivBytes x)) := by
  have hlen := length_cbcEnc ch.keyBytes ch.ivBytes x
  obtain ⟨t', ch', hexec', hdone, houtput⟩ := exec_data_completes hparams hch (busy_of_exec rfl hch hexec) hinput
    (i := .encRaw) rfl (hinput.validate_ok hlegal hle hpos hmod)
    rfl (by omega) (length_lastBlock (by omega) (by omega))
  obtain rfl := hdone.eq_of_exec hexec' hexec hout
  exact houtput

theorem decRaw_outputIs (hexec : exec .decRaw s = .next t) :
    OutputIs s.bufBytes out (cbcDec ch.keyBytes ch.ivBytes x) (lastBlock x) := by
  have hlen := length_cbcDec ch.keyBytes ch.ivBytes x
  obtain ⟨t', ch', hexec', hdone, houtput⟩ := exec_data_completes hparams hch (busy_of_exec rfl hch hexec) hinput
    (i := .decRaw) rfl (hinput.validate_ok hlegal hle hpos hmod)
    rfl (by omega) (length_lastBlock hpos hmod)
  obtain rfl := hdone.eq_of_exec hexec' hexec hout
  exact houtput

variable (hexec : exec .dec s = .next t)
include hexec

theorem dec_of_padValid (hpad : padValid (cbcDec ch.keyBytes ch.ivBytes x) = true) :
    out.err = .ok ∧ OutputIs s.bufBytes out (unpad (cbcDec ch.keyBytes ch.ivBytes x)) (lastBlock x) := by
  obtain ⟨t', ch', hexec', hdone, houtput⟩ :=
    exec_dec_completes hparams hch (busy_of_exec rfl hch hexec) hinput hlegal hle hpos hmod hpad
  obtain rfl := hdone.eq_of_exec hexec' hexec hout
  exact ⟨hdone.err, houtput⟩

omit hparams in
theorem dec_of_not_padValid (hpad : padValid (cbcDec ch.keyBytes ch.ivBytes x) ≠ true) : out.err = .paddingValidation := by
  obtain ⟨t', ch', hexec', hdone, -⟩ := exec_data_raises hch (busy_of_exec rfl hch hexec) (i := .dec) rfl
    (hinput.validate_ok hlegal hle hpos hmod)
    (by rw [hinput.input]; exact if_neg hpad)
  obtain rfl := hdone.eq_of_exec hexec' hexec hout
  exact hdone.err

end

theorem KeyMaterialLegal.congr {ch ch' : Channel} (h : KeyMaterialLegal ch) (hkeyLen : ch'.keyLen = ch.keyLen)
    (hivLen : ch'.ivLen = ch.ivLen) : KeyMaterialLegal ch' :=
  ⟨hkeyLen ▸ h.keyLen, hivLen ▸ h.ivLen⟩

/-- Settles O37: CBC over two chunks, the second padded as the whole is. -/
theorem chunkedEncEqualsOneShotEnc : Obligations.ChunkedEncEqualsOneShotEnc := by
  intro s₁ t₁ s₂ t₂ s t ch₁ out₁ ch₂ out₂ ch out m₁ m₂ hparams₁ hparams₂ hparams hch₁ hlegal hinput₁ hpos hmod hle₁ hexec₁
    hout₁ hch₂ hkeyLen₂ hkey₂ hivLen₂ hiv₂ hinput₂ hle₂ hexec₂ hout₂ hch hkeyLen hkey hivLen hiv hinput hle hexec hout
  have h₁ := encRaw_outputIs hparams₁ hch₁ hlegal hinput₁ hle₁ hout₁ hpos hmod hexec₁
  have h₂ := enc_outputIs hparams₂ hch₂ (hlegal.congr hkeyLen₂ hivLen₂) hinput₂ hle₂ hout₂ hexec₂
  have h := enc_outputIs hparams hch (hlegal.congr hkeyLen hivLen) hinput (List.length_append.trans_le hle) hout hexec
  have hiv₂' : ch₂.ivBytes = lastBlock (cbcEnc ch₁.keyBytes ch₁.ivBytes m₁) := (congrArg regBytes hiv₂).trans h₁.chain
  have hiv' : ch.ivBytes = ch₁.ivBytes := congrArg regBytes hiv
  rw [hkey₂, hiv₂'] at h₂
  rw [hkey, hiv', pad_append hmod, cbcEnc_append hmod hpos, lastBlock_append (length_cbcEnc _ _ _)
    (length_cbcEnc_pad _ _ _) (Nat.succ_pos _)] at h
  exact h.concatenate h₁ h₂

/-- Settles O58: CBC over two chunks; the padding, valid or not, is in the second. -/
theorem chunkedDecEqualsOneShotDec : Obligations.ChunkedDecEqualsOneShotDec := by
  intro s₁ t₁ s₂ t₂ s t ch₁ out₁ ch₂ out₂ ch out c₁ c₂ hparams₁ hparams₂ hparams hch₁ hlegal hinput₁ hpos₁ hmod₁ hle₁ hexec₁
    hout₁ hch₂ hkeyLen₂ hkey₂ hivLen₂ hiv₂ hinput₂ hpos₂ hmod₂ hle₂ hexec₂ hout₂ hch hkeyLen hkey hivLen hiv hinput hle hexec
    hout
  have hlegal₂ := hlegal.congr hkeyLen₂ hivLen₂
  have hlegal' := hlegal.congr hkeyLen hivLen
  have h₁ := decRaw_outputIs hparams₁ hch₁ hlegal hinput₁ hle₁ hout₁ hpos₁ hmod₁ hexec₁
  have hlen := List.length_append (as := c₁) (bs := c₂)
  have hle' : (c₁ ++ c₂).length ≤ s.bufBytes := hlen.trans_le hle
  have hpos : 0 < (c₁ ++ c₂).length := by omega
  have hmod : (c₁ ++ c₂).length % 16 = 0 := by omega
  have hz₂ : 16 ≤ (cbcDec ch₂.keyBytes ch₂.ivBytes c₂).length := by rw [length_cbcDec]; omega
  have hz : cbcDec ch.keyBytes ch.ivBytes (c₁ ++ c₂) =
      cbcDec ch₁.keyBytes ch₁.ivBytes c₁ ++ cbcDec ch₂.keyBytes ch₂.ivBytes c₂ := by
    have hiv₂' : ch₂.ivBytes = lastBlock c₁ := (congrArg regBytes hiv₂).trans h₁.chain
    have hiv' : ch.ivBytes = ch₁.ivBytes := congrArg regBytes hiv
    rw [hkey, hkey₂, hiv', hiv₂', cbcDec_append hmod₁ hpos₁]
  have hpads := padValid_append hz₂ (cbcDec ch₁.keyBytes ch₁.ivBytes c₁)
  rw [← hz] at hpads
  by_cases hpad : padValid (cbcDec ch₂.keyBytes ch₂.ivBytes c₂) = true
  · obtain ⟨herr₂, h₂⟩ := dec_of_padValid hparams₂ hch₂ hlegal₂ hinput₂ hle₂ hout₂ hpos₂ hmod₂ hexec₂ hpad
    obtain ⟨herr, h⟩ := dec_of_padValid hparams hch hlegal' hinput hle' hout hpos hmod hexec (hpads.trans hpad)
    rw [hz, unpad_append hz₂ _ hpad, lastBlock_append (n := c₁.length / 16) (k := c₂.length / 16) (by omega) (by omega)
      (by omega)] at h
    exact ⟨herr.trans herr₂.symm, fun _ => h.concatenate h₁ h₂⟩
  · have herr₂ := dec_of_not_padValid hch₂ hlegal₂ hinput₂ hle₂ hout₂ hpos₂ hmod₂ hexec₂ hpad
    have herr := dec_of_not_padValid hch hlegal' hinput hle' hout hpos hmod hexec (hpads ▸ hpad)
    refine ⟨herr.trans herr₂.symm, fun hok => ?_⟩
    rw [herr₂] at hok
    cases hok

end Sys2Proof.Machine
end

section
/-! The control commands: NOP's write, CLEAR, and the completion of an illegal word. -/

namespace Sys2Proof.Machine

/-! NOP (R100) -/

theorem exec_nop_of_idle {s : State} {ch : Channel} (hch : s.chan? s.sel = some ch) (hidle : ch.busy = false) :
    exec .nop s = .next s := by
  rw [exec_nop, State.cmdWrite, State.protectedWrite_of_idle hch hidle, if_pos rfl, State.setChan_same hch]

theorem exec_nop_of_busy {s : State} {ch : Channel} (hch : s.chan? s.sel = some ch) (hbusy : ch.busy = true) :
    exec .nop s = .next (s.setChan s.sel ch.dropWrite) := by
  rw [exec_nop, State.cmdWrite, State.protectedWrite_of_busy hch hbusy]

/-- Settles O12: NOP is a write of word 0, which an IDLE channel ignores and a BUSY one drops. -/
theorem nopChangesNothingButWerrWhileBusy : Obligations.NopChangesNothingButWerrWhileBusy :=
  fun _ _ hch => ⟨exec_nop_of_idle hch, exec_nop_of_busy hch⟩

/-! CLEAR (R101) -/

theorem regBytes_zeros (n : Nat) : regBytes (Vector.replicate n (0 : Word)) = List.replicate (4 * n) 0 := by
  have hword : bytesOfWord 0 = List.replicate 4 0 := rfl
  rw [regBytes, Vector.toList_replicate, List.flatMap_replicate, hword, List.flatten_replicate_replicate, Nat.mul_comm]

theorem regBytes_zeros_getElem? (n : Nat) {i : Nat} (hi : i < 4 * n) :
    (regBytes (Vector.replicate n (0 : Word)))[i]? = some 0 := by
  rw [regBytes_zeros, List.getElem?_replicate_of_lt hi]

theorem Memory.get?_zeros_of_lt {n i : Nat} (hi : i < n) : (Memory.zeros n).get? i = some 0 := by
  rw [Memory.get?_zeros, if_pos hi]

/-- Settles O11: CLEAR is a completion whose body cannot fail and leaves the cleared channel. -/
theorem clearZeroisesTheChannel : Obligations.ClearZeroisesTheChannel := by
  intro s ch hch hbusy
  have hexec : exec .clear s = .next (s.afterBody ch (.ok (ch.cleared s.bufBytes), s.draws)) :=
    complete_of_busy clearBody hch hbusy
  exact ⟨_, _, hexec, State.afterBody_completedWith hch rfl,
    fun _ => regBytes_zeros_getElem? 8, rfl, fun _ => regBytes_zeros_getElem? 4, rfl, rfl, rfl,
    fun _ => regBytes_zeros_getElem? 4, fun _ => Memory.get?_zeros_of_lt, fun _ => Memory.get?_zeros_of_lt, rfl, rfl, rfl⟩

/-! An illegal word (R102) -/

theorem runJob_of_illegal {w : Word} (hne : w ≠ 0) (hillegal : decode w = .error .illegalCommand) (s : State) :
    runJob w s = completeIllegal s := by
  rw [runJob, if_neg hne, hillegal]

/-- Settles O5: the fields make the word illegal, and the body of an illegal word raises its error before it reads anything. -/
theorem illegalWordCompletesWithItsError : Obligations.IllegalWordCompletesWithItsError := by
  intro s ch w hch hbusy hne hfields
  have hillegal : decode w = .error .illegalCommand := decode_illegal (hfields.imp_right And.right)
  have hrun : runJob w s = .next (s.afterBody ch (.error .illegalCommand, s.draws)) :=
    (runJob_of_illegal hne hillegal s).trans (complete_of_busy illegalBody hch hbusy)
  exact ⟨_, _, hrun, State.afterBody_completedWith hch rfl, ch.settle_error_erased _ _, rfl⟩

end Sys2Proof.Machine
end

section
/-! The errors of the data commands: what the checks reject, and what invalid padding leaves. -/

namespace Sys2Proof.Machine

/-! The checks that fail (R90, R118) -/

theorem validate_of_illegalKey {ch : Channel} (h : ¬KeyMaterialLegal ch) (op : DataOp) (n : Nat) :
    validate op n ch = .error .invalidKeyMaterial := by
  simp [validate, mt ch.keyMaterialOk_iff.mp h]

section

variable {n : Nat} {ch : Channel} (hlegal : KeyMaterialLegal ch)
include hlegal

theorem validate_of_too_long (hlt : n < ch.inLen.toNat) (op : DataOp) :
    validate op n ch = .error .invalidDataLength := by
  simp [validate, ch.keyMaterialOk_iff.mpr hlegal, hlt]

variable (hle : ch.inLen.toNat ≤ n) (hpartial : ch.inLen.toNat = 0 ∨ ch.inLen.toNat % 16 ≠ 0)
include hle hpartial

/-- Of the commands that take whole blocks, ENC_RAW is given data and the other two a ciphertext (R113, R115). -/
theorem validate_of_partial {op : DataOp} (hop : op ≠ .enc) :
    validate op n ch = .error (if op = .encRaw then .invalidDataLength else .invalidCiphertextLength) := by
  have hkey := ch.keyMaterialOk_iff.mpr hlegal
  have hblocks := (notWholeBlocks_iff _).mpr hpartial
  cases op with
  | enc => exact absurd rfl hop
  | dec | encRaw | decRaw => simp [validate, hkey, Nat.not_lt.mpr hle, hblocks]

end

/-! A command that fails its checks -/

/-- A data command whose checks fail ends with their code and reads no byte of its input (R90, R119, R120). -/
theorem exec_data_rejected {s : State} {ch : Channel} (hch : s.chan? s.sel = some ch) (hbusy : ch.busy = true) {i : Instr}
    {op : DataOp} {cipher : Cipher} (hbody : bodyOf i = some (dataBody op cipher)) {code : ErrCode}
    (hinvalid : validate op s.bufBytes ch = .error code) :
    ∃ t ch', exec i s = .next t ∧ CompletedWith code s t ch' ∧ OutputErased s.bufBytes ch ch' ∧ t.draws = s.draws := by
  have hran : dataBody op cipher s.bufBytes ch s.draws = (.error code, s.draws) := by simp only [dataBody, hinvalid]
  exact ⟨_, _, exec_of_dataBody hch hbusy hbody hran, State.afterBody_completedWith hch rfl, ch.settle_error_erased _ code,
    rfl⟩

/-- Settles O13: the check of the key material comes first, for every data command. -/
theorem illegalKeyMaterialIsReported : Obligations.IllegalKeyMaterialIsReported := by
  intro s ch i hch hbusy hdata hillegal
  obtain ⟨op, cipher, hbody⟩ := bodyOf_data hdata
  refine exec_data_rejected hch hbusy hbody (validate_of_illegalKey (fun hlegal => ?_) op _)
  rcases hillegal with ⟨h16, h24, h32⟩ | hiv
  · simpa only [h16, h24, h32, or_self] using hlegal.keyLen
  · exact hiv hlegal.ivLen

/-- Settles O14: DEC and DEC_RAW take whole blocks of ciphertext. -/
theorem illegalCiphertextLengthIsReported : Obligations.IllegalCiphertextLengthIsReported := by
  intro s ch i hch hbusy hdec hlegal hle hpartial
  rcases hdec with rfl | rfl
  · exact exec_data_rejected hch hbusy (i := .dec) rfl (validate_of_partial hlegal hle hpartial (by decide))
  · exact exec_data_rejected hch hbusy (i := .decRaw) rfl (validate_of_partial hlegal hle hpartial (by decide))

/-- Settles O15: the check against `BUF_BYTES` is every data command's, the other ENC_RAW's. -/
theorem illegalDataLengthIsReported : Obligations.IllegalDataLengthIsReported := by
  intro s ch i hch hbusy hdata hlegal hlength
  by_cases hlt : s.bufBytes < ch.inLen.toNat
  · obtain ⟨op, cipher, hbody⟩ := bodyOf_data hdata
    exact exec_data_rejected hch hbusy hbody (validate_of_too_long hlegal hlt op)
  · obtain ⟨rfl, hpartial⟩ := hlength.resolve_left hlt
    exact exec_data_rejected hch hbusy (i := .encRaw) rfl
      (validate_of_partial hlegal (Nat.not_lt.mp hlt) hpartial (by decide))

/-- Settles O9: the checks pass, and the cipher of DEC raises the code. -/
theorem decRejectsInvalidPadding : Obligations.DecRejectsInvalidPadding := by
  intro s ch hch hbusy hlegal hpos hmod hle hpad
  exact exec_data_raises hch hbusy (i := .dec) rfl (validate_ok hlegal hle (.inr ⟨hpos, hmod⟩)) (if_neg (by simp [hpad]))

end Sys2Proof.Machine
end

section
/-! The completion of a command word: which error it reports, and what an error leaves. -/

namespace Sys2Proof.Machine

/-! The command a word stands for -/

theorem runJob_of_decode {w : Word} {i : Instr} (hne : w ≠ 0) (hd : decode w = .ok i) (s : State) :
    runJob w s = exec i s := by
  rw [runJob, if_neg hne, hd]

theorem decode_of_ne_commands {w : Word} (hne : w ≠ 0) (h : ¬((w = 1 ∨ w = 2 ∨ w = 3 ∨ w = 4) ∨ w = 5)) :
    decode w = .error .illegalCommand := by
  cases hd : decode w with
  | error e => cases e; rfl
  | ok i =>
    obtain rfl := encode_decode hd
    cases i with
    | nop => exact absurd rfl hne
    | enc | dec | encRaw | decRaw | clear => exact absurd (by decide) h

/-- The word of a data command runs that command (R61). -/
theorem runJob_data {w : Word} (h : w = 1 ∨ w = 2 ∨ w = 3 ∨ w = 4) :
    ∃ i, (i = .enc ∨ i = .dec ∨ i = .encRaw ∨ i = .decRaw) ∧ ∀ s, runJob w s = exec i s := by
  rcases h with rfl | rfl | rfl | rfl
  · exact ⟨.enc, by decide, runJob_of_decode (by decide) rfl⟩
  · exact ⟨.dec, by decide, runJob_of_decode (by decide) rfl⟩
  · exact ⟨.encRaw, by decide, runJob_of_decode (by decide) rfl⟩
  · exact ⟨.decRaw, by decide, runJob_of_decode (by decide) rfl⟩

section

variable {s : State} {ch : Channel} (hch : s.chan? s.sel = some ch) (hbusy : ch.busy = true)
include hch hbusy

theorem exec_data_succeeds {i : Instr} {op : DataOp} {cipher : Cipher} (hbody : bodyOf i = some (dataBody op cipher))
    (hvalid : validate op s.bufBytes ch = .ok ()) {y chain : List Byte}
    (hcipher : cipher ch.keyBytes ch.ivBytes (ch.input s.draws).1 = .ok (y, chain)) :
    ∃ t ch', exec i s = .next t ∧ CompletedWith .ok s t ch' :=
  ⟨_, _, exec_of_dataBody hch hbusy hbody (dataBody_of_ok hvalid hcipher), State.afterBody_completedWith hch rfl⟩

/-- A data command to which none of the errors applies reports none (R118). -/
theorem runJob_data_succeeds {w : Word} (hdata : w = 1 ∨ w = 2 ∨ w = 3 ∨ w = 4) (hlegal : KeyMaterialLegal ch)
    (hle : ch.inLen.toNat ≤ s.bufBytes) (hwhole : w = 1 ∨ 0 < ch.inLen.toNat ∧ ch.inLen.toNat % 16 = 0)
    (hpad : w = 2 → padValid (cbcDec ch.keyBytes ch.ivBytes (ch.input s.draws).1) = true) :
    ∃ t ch', runJob w s = .next t ∧ CompletedWith .ok s t ch' := by
  rcases hdata with rfl | rfl | rfl | rfl
  · exact exec_data_succeeds hch hbusy (i := .enc) rfl (validate_ok hlegal hle (.inl rfl)) rfl
  all_goals have hblocks := hwhole.resolve_left (by decide)
  · exact exec_data_succeeds hch hbusy (i := .dec) rfl (validate_ok hlegal hle (.inr hblocks)) (if_pos (hpad rfl))
  · exact exec_data_succeeds hch hbusy (i := .encRaw) rfl (validate_ok hlegal hle (.inr hblocks)) rfl
  · exact exec_data_succeeds hch hbusy (i := .decRaw) rfl (validate_ok hlegal hle (.inr hblocks)) rfl

end

/-- Where no length error of the commands that take whole blocks applies, the length is right for the word (R113, R115). -/
theorem whole_of_no_length_error {w : Word} {len : Nat} (hdata : w = 1 ∨ w = 2 ∨ w = 3 ∨ w = 4)
    (hraw : ¬(w = 3 ∧ (len = 0 ∨ len % 16 ≠ 0))) (hcipher : ¬((w = 2 ∨ w = 4) ∧ (len = 0 ∨ len % 16 ≠ 0))) :
    w = 1 ∨ 0 < len ∧ len % 16 = 0 := by
  have hblocks : ¬(len = 0 ∨ len % 16 ≠ 0) → 0 < len ∧ len % 16 = 0 := by omega
  tauto

/-- The code a word's command ends with is the one that the completion of the word reports. -/
theorem runJob_reports {s : State} {w : Word} {i : Instr} {code : ErrCode} {P : State → Channel → Prop}
    (hrun : runJob w s = exec i s) (h : ∃ t ch', exec i s = .next t ∧ CompletedWith code s t ch' ∧ P t ch') :
    ∃ t ch', runJob w s = .next t ∧ CompletedWith code s t ch' := by
  obtain ⟨t, ch', hexec, hdone, -⟩ := h
  exact ⟨t, ch', hrun.trans hexec, hdone⟩

theorem keyMaterialLegal_of_not {ch : Channel}
    (h : ¬(¬(ch.keyLen = 16 ∨ ch.keyLen = 24 ∨ ch.keyLen = 32) ∨ ch.ivLen ≠ 16)) : KeyMaterialLegal ch := by
  obtain ⟨hkey, hiv⟩ := not_or.mp h
  exact ⟨not_not.mp hkey, not_not.mp hiv⟩

/-- Settles O16: each branch of the rule's order by the statement about its own error. -/
theorem theFirstErrorIsReported : Obligations.TheFirstErrorIsReported := by
  intro s ch w hch hbusy hne
  dsimp only
  by_cases hword : (w = 1 ∨ w = 2 ∨ w = 3 ∨ w = 4) ∨ w = 5
  case neg =>
    rw [if_pos hword, runJob_of_illegal hne (decode_of_ne_commands hne hword)]
    exact ⟨_, _, complete_of_busy illegalBody hch hbusy, State.afterBody_completedWith hch rfl⟩
  rw [if_neg (not_not.mpr hword)]
  by_cases hclear : w = 5
  case pos =>
    rw [if_pos hclear, hclear]
    exact ⟨_, _, complete_of_busy clearBody hch hbusy, State.afterBody_completedWith hch rfl⟩
  rw [if_neg hclear]
  have hdata := hword.resolve_right hclear
  obtain ⟨i, hi, hrun⟩ := runJob_data hdata
  by_cases hillegal : ¬(ch.keyLen = 16 ∨ ch.keyLen = 24 ∨ ch.keyLen = 32) ∨ ch.ivLen ≠ 16
  case pos =>
    rw [if_pos hillegal]
    exact runJob_reports (hrun s) (illegalKeyMaterialIsReported s ch i hch hbusy hi (by simpa only [not_or] using hillegal))
  rw [if_neg hillegal]
  have hlegal := keyMaterialLegal_of_not hillegal
  split_ifs with hlong hraw hcipher hpad
  · exact runJob_reports (hrun s) (illegalDataLengthIsReported s ch i hch hbusy hi hlegal (.inl hlong))
  · obtain ⟨rfl, hpartial⟩ := hraw
    exact runJob_reports (i := .encRaw) rfl
      (illegalDataLengthIsReported s ch _ hch hbusy (by decide) hlegal (.inr ⟨rfl, hpartial⟩))
  all_goals have hle := Nat.not_lt.mp hlong
  · obtain ⟨rfl | rfl, hpartial⟩ := hcipher
    · exact runJob_reports (i := .dec) rfl
        (illegalCiphertextLengthIsReported s ch _ hch hbusy (.inl rfl) hlegal hle hpartial)
    · exact runJob_reports (i := .decRaw) rfl
        (illegalCiphertextLengthIsReported s ch _ hch hbusy (.inr rfl) hlegal hle hpartial)
  all_goals have hwhole := whole_of_no_length_error hdata hraw hcipher
  · obtain ⟨rfl, hinvalid⟩ := hpad
    obtain ⟨hpos, hmod⟩ := hwhole.resolve_left (by decide)
    exact runJob_reports (i := .dec) rfl (decRejectsInvalidPadding s ch hch hbusy hlegal hpos hmod hle hinvalid)
  · exact runJob_data_succeeds hch hbusy hdata hlegal hle hwhole fun h2 =>
      Bool.eq_true_of_not_eq_false fun hinvalid => hpad ⟨h2, hinvalid⟩

/-- A body that ended with an error has only erased the output (R120). -/
theorem BodyEnds.erased {n : Nat} {ch : Channel} {r : Except ErrCode Channel} (h : BodyEnds n ch r)
    (herr : (ch.settle n r).err ≠ .ok) : OutputErased n ch (ch.settle n r) := by
  cases h with
  | failed code _ => exact ch.settle_error_erased n code
  | finished | cleared => exact absurd rfl herr

/-- Settles O17: of the ways a body can end, only the failed one shows an error. -/
theorem aFailureErasesTheOutputOnly : Obligations.AFailureErasesTheOutputOnly := by
  intro s t w ch ch' hrun hch hch' herr
  rcases runJob_cases w s with ⟨_, hfault⟩ | ⟨_, body, hbody, hends⟩
  · rw [hfault] at hrun
    cases hrun
  · rw [hbody] at hrun
    obtain ⟨ran, hran, _, rfl⟩ := complete_next hrun
    obtain rfl := Option.some.inj (hran.symm.trans hch)
    obtain rfl := Option.some.inj ((State.afterBody_chan?_self hran _).symm.trans hch')
    exact ⟨(hends _ _ _).erased herr, s.afterBody_onlyChannel _ _⟩

end Sys2Proof.Machine
end

section
/-! Every step answers: the latched command runs, and no move faults or refuses. -/

namespace Sys2Proof.Machine

theorem completionMove_eq_runJob {s : State} {c : Nat} {ch : Channel} (hch : s.chan? c = some ch) (hbusy : ch.busy = true) :
    completionMove c s = runJob ch.job (s.setSel c) := by
  simp only [completionMove, hch, hbusy, if_true]

/-- Settles O3: the scheduled move is the channel's completion, which runs the latched word. -/
theorem stepRunsTheLatchedCommand : Obligations.StepRunsTheLatchedCommand := by
  intro s c rest ch hp hsched hch hbusy hjob
  have hrun : step s = runJob ch.job { s with sched := rest, sel := c } :=
    (step_scheduled hp hsched).trans (completionMove_eq_runJob (s := s.setSched rest) hch hbusy)
  exact ⟨hrun, fun i hd => hrun.trans (runJob_of_decode hjob hd _)⟩

section

variable {s : State} (h : s.Inv)
include h

theorem State.Inv.params : Config.paramsOk s.numCh s.bufBytes = true := h.1

/-- No acceptance latches 0 (R53). -/
theorem State.Inv.job_ne_zero {c : Nat} {ch : Channel} (hch : s.chan? c = some ch) (hbusy : ch.busy = true) : ch.job ≠ 0 := by
  obtain ⟨_, _, _, hchans⟩ := h
  obtain ⟨_, hjob, _⟩ := hchans ch (State.chan?_mem hch)
  exact hjob hbusy

/-- From a state that meets the invariant every move answers a next state (R110). -/
theorem runMove_answers (m : Move) : ∃ t, runMove m s = .next t := by
  cases m with
  | host =>
    obtain ⟨t, ht, _⟩ := hostMove_next s
    exact ⟨t, ht⟩
  | complete c =>
    rcases completionMove_cases c s with hsame | ⟨ch, hch, hbusy, hzero, _⟩ | ⟨ch, body, _, _, _, _, hdone⟩
    · exact ⟨s, hsame⟩
    · exact absurd hzero (h.job_ne_zero hch hbusy)
    · exact ⟨_, hdone⟩
  | reset => exact ⟨_, rfl⟩

end

/-- Settles O23: the step is a move, scheduled or chosen, or a rest. -/
theorem theBlockNeverStops : Obligations.TheBlockNeverStops := by
  intro s h
  cases hsched : s.sched with
  | cons m rest =>
    rw [step_scheduled h.params hsched]
    exact runMove_answers ((s.setSched_sameBlock rest).inv h) m
  | nil =>
    cases hfree : s.freeMove? with
    | none => exact ⟨s, step_rest h.params hsched hfree⟩
    | some m =>
      rw [step_free h.params hsched hfree]
      exact runMove_answers ((s.afterChoice_sameBlock m).inv h) m

/-- Settles O18: the scheduled move is the completion of a BUSY channel, whose latch the invariant keeps nonzero. -/
theorem everyAcceptedCommandCompletes : Obligations.EveryAcceptedCommandCompletes := by
  intro s c rest ch h hsched hch hbusy
  obtain ⟨body, hdone, _⟩ := completionMove_of_busy (s := s.setSched rest) hch hbusy (h.job_ne_zero hch hbusy)
  exact ⟨_, _, _, (step_scheduled h.params hsched).trans hdone,
    State.afterBody_completedWith (s := (s.setSched rest).setSel c) hch rfl⟩

end Sys2Proof.Machine
end

section
/-! What one step does to a channel, and the three things that only some steps do: end a command, set an interrupt bit, clear `WERR`. -/

namespace Sys2Proof.Machine

/-- What a step from `s` that answers `t` does to channel `c`, which is `ch` before it and `ch'` after it. -/
inductive ChannelMoved (s t : State) (c : Nat) (ch : Channel) : Channel → Prop where
  | kept : ChannelMoved s t c ch ch
  | written {ch' : Channel} (a : Addr) (v : Word) (rest : List HostOp) (hhost : s.host = .wr a v :: rest)
      (hafter : (s.memWrite a v).chan? c = some ch') (hw : ChannelWritten s.bufBytes ch ch') : ChannelMoved s t c ch ch'
  | completed {r : Except ErrCode Channel} (hbusy : ch.busy = true) (hends : BodyEnds s.bufBytes ch r)
      (hpending : t.intStatus = s.intStatus ||| 1#32 <<< c) : ChannelMoved s t c ch (ch.settle s.bufBytes r)
  | reset (rest : List Move) (hsched : s.sched = .reset :: rest) : ChannelMoved s t c ch Channel.reset

/-- Everything a step can do to a channel. -/
theorem step_channel {s t : State} {c : Nat} {ch ch' : Channel} (hstep : step s = .next t) (hch : s.chan? c = some ch)
    (hch' : t.chan? c = some ch') : ChannelMoved s t c ch ch' := by
  obtain ⟨hparams, u, hsame, hmoved⟩ := step_next hstep
  have hu : u.chan? c = some ch := (hsame.chan? c).trans hch
  cases hmoved with
  | quiet hquiet =>
    obtain rfl := Option.some.inj (hch'.symm.trans ((hquiet.chan? c).trans hu))
    exact .kept
  | wrote a v rest hhost hwrote =>
    have hafter : (s.memWrite a v).chan? c = some ch' := by
      rw [← (hsame.memWrite a v).chan?, ← hwrote.chan?]
      exact hch'
    rcases (s.memWrite_written (bufBytes_mod_of_paramsOk hparams) a v).chan? hch hafter with rfl | hw
    · exact .kept
    · exact .written a v rest hhost hafter hw
  | completed ran body hran hbusy hjob hends =>
    by_cases hc : c = u.sel
    · subst hc
      obtain rfl := Option.some.inj (hran.symm.trans hu)
      obtain rfl := Option.some.inj ((State.afterBody_chan?_self hran _).symm.trans hch')
      rw [hsame.bufBytes]
      refine .completed hbusy (hends _ _ _) ?_
      rw [State.afterBody_intStatus, hsame.intStatus, channelBit]
    · obtain rfl := Option.some.inj (hch'.symm.trans ((u.afterBody_chan?_ne ran _ hc).trans hu))
      exact .kept
  | reset rest hsched =>
    rw [State.chan?_resetBlock, if_pos (State.chan?_lt hu)] at hch'
    cases hch'
    exact .reset rest hsched

/-- No host write ends a command (R52). -/
theorem ChannelWritten.busy_of_busy {n : Nat} {ch ch' : Channel} (hw : ChannelWritten n ch ch') (hbusy : ch.busy = true) :
    ch'.busy = true := by
  rw [hw.onlyWerr hbusy]
  exact hbusy

/-- Settles O25: of what a step does to a BUSY channel, only its completion and a reset leave it IDLE. -/
theorem onlyCompletionOrResetEndsACommand : Obligations.OnlyCompletionOrResetEndsACommand := by
  intro s t c ch ch' hstep hch hbusy hch' hidle
  cases step_channel hstep hch hch' with
  | kept => exact absurd hbusy (by simp [hidle])
  | written a v rest hhost hafter hw =>
    rw [hw.busy_of_busy hbusy] at hidle
    cases hidle
  | completed _ hends hpending => exact .inl ⟨Channel.settle_done _ _ _, hpending⟩
  | reset rest hsched => exact .inr ⟨rfl, rest, hsched⟩

/-! The interrupt bits (R121) -/

theorem channelBit_getLsbD {c d : Nat} (h : (channelBit c).getLsbD d = true) : d = c := by
  simp only [channelBit, BitVec.getLsbD_shiftLeft, BitVec.getLsbD_one, Bool.and_eq_true, Bool.not_eq_true',
    decide_eq_true_eq, decide_eq_false_iff_not] at h
  omega

/-- No host write sets a bit of `INT_STATUS` (R32). -/
theorem Written.intStatus_of_set {s t : State} (hw : Written s t) {b : Nat} (h : t.intStatus.getLsbD b = true) :
    s.intStatus.getLsbD b = true := by
  cases hw with
  | nothing | intEnable | channel => exact h
  | intStatus v =>
    simp only [State.setIntStatus_intStatus, BitVec.getLsbD_and, Bool.and_eq_true] at h
    obtain ⟨⟨hold, _⟩, _⟩ := h
    exact hold

/-- Settles O26: of what the block does in a step, only a completion sets a bit, and that is the bit of its own channel. -/
theorem onlyACompletionSetsAnInterruptBit : Obligations.OnlyACompletionSetsAnInterruptBit := by
  intro s t c hstep hclear hset
  obtain ⟨hparams, u, hsame, hmoved⟩ := step_next hstep
  rw [← hsame.intStatus] at hclear
  cases hmoved with
  | quiet hquiet =>
    rw [hquiet.intStatus, hclear] at hset
    cases hset
  | wrote a v rest hhost hwrote =>
    rw [hwrote.intStatus] at hset
    have h16 : u.bufBytes % 16 = 0 := hsame.bufBytes ▸ bufBytes_mod_of_paramsOk hparams
    rw [(u.memWrite_written h16 a v).intStatus_of_set hset] at hclear
    cases hclear
  | completed ch body hch hbusy hjob hends =>
    rw [State.afterBody_intStatus, BitVec.getLsbD_or, hclear, Bool.false_or] at hset
    obtain rfl := channelBit_getLsbD hset
    exact ⟨ch, _, (hsame.chan? _).symm.trans hch, hbusy, State.afterBody_chan?_self hch _, Channel.settle_busy _ _ _,
      Channel.settle_done _ _ _⟩
  | reset rest hsched =>
    rw [State.resetBlock_intStatus] at hset
    simp at hset

/-! `WERR` (R19, R117) -/

theorem BodyEnds.settle_werr {n : Nat} {ch : Channel} {r : Except ErrCode Channel} (h : BodyEnds n ch r) :
    (ch.settle n r).werr = ch.werr := by
  cases h <;> rfl

theorem channelLoc_status {n c off d : Nat} (h : channelLoc n c off = .status d) : d = c ∧ off = 0x004 := by
  simp only [channelLoc, ite_eq_iff, reduceCtorEq, and_false, false_or, or_false, Loc.status.injEq] at h
  obtain ⟨-, hoff, hd⟩ := h
  exact ⟨hd.symm, hoff⟩

theorem globalLoc_ne_status (off c : Nat) : globalLoc off ≠ .status c := by
  intro h
  simp only [globalLoc, ite_eq_iff, reduceCtorEq, and_false, or_false] at h

/-- An address that selects a channel's `STATUS` is that of its word (R41, R42). -/
theorem locate_status {numCh bufBytes c : Nat} {a : Addr} (h : locate numCh bufBytes a = .status c) :
    a.toNat / 4 * 4 = 0x10000 * (c + 1) + 0x004 := by
  simp only [locate, ite_eq_iff, reduceCtorEq, and_false, or_false, globalLoc_ne_status, false_or] at h
  obtain ⟨hbank, -, hloc⟩ := h
  obtain ⟨hc, hoff⟩ := channelLoc_status hloc
  omega

section

variable {s : State} {c : Nat} {ch ch' : Channel} (hch : s.chan? c = some ch) (hwerr : ch.werr = true)
include hch hwerr

/-- A write to a protected register whose effect leaves `WERR` does not clear it. -/
theorem State.protectedWrite_werr {d : Nat} {f : Channel → Channel}
    (hch' : (s.protectedWrite d f).chan? c = some ch') (hf : ∀ ch, (f ch).werr = ch.werr) : ch'.werr = true := by
  by_cases hc : c = d
  · subst hc
    rw [State.protectedWrite_chan?_self hch] at hch'
    cases hch'
    split
    · rfl
    · rw [hf, hwerr]
  · rw [(s.protectedWrite_onlyChannel d f).others c hc, hch] at hch'
    cases hch'
    exact hwerr

/-- A write to `STATUS` clears `WERR` of its own channel only, and only by bit 8. -/
theorem State.statusWrite_clears_werr {d : Nat} {v : Word} (hch' : (s.statusWrite d v).chan? c = some ch')
    (hclear : ch'.werr = false) : d = c ∧ v.getLsbD 8 = true := by
  by_cases hc : c = d
  · subst hc
    rw [State.statusWrite_of_some hch, State.chan?_setChan_self hch] at hch'
    cases hch'
    exact ⟨rfl, by simpa [hwerr] using hclear⟩
  · have hsame : (s.statusWrite d v).chan? c = s.chan? c := by
      rcases s.statusWrite_cases d v with h | ⟨_, _, h⟩ <;> rw [h]
      exact s.chan?_setChan_ne hc _
    rw [hsame, hch] at hch'
    cases hch'
    rw [hwerr] at hclear
    cases hclear

/-- The one location whose write clears `WERR` of a channel (R19). -/
theorem State.writeLoc_clears_werr {v : Word} {l : Loc} (hch' : (s.writeLoc v l).chan? c = some ch')
    (hclear : ch'.werr = false) : l = .status c ∧ v.getLsbD 8 = true := by
  cases l with
  | status d =>
    obtain ⟨rfl, hbit⟩ := State.statusWrite_clears_werr hch hwerr hch' hclear
    exact ⟨rfl, hbit⟩
  | cmd d =>
    have hkept := State.protectedWrite_werr hch hwerr hch' (fun ch => by split <;> rfl)
    exact absurd hkept (by simp [hclear])
  | keyLen | ivLen | inLen | key | iv | din =>
    have hkept := State.protectedWrite_werr hch hwerr hch' (fun _ => rfl)
    exact absurd hkept (by simp [hclear])
  | id | config | intStatus | intEnable | chBusy | irqLevel | outLen | chain | dout | reserved =>
    obtain rfl := Option.some.inj (hch'.symm.trans hch)
    exact absurd hwerr (by simp [hclear])

end

/-- Settles O27: a host write that clears `WERR` is an acknowledgement in `STATUS`, no completion touches it, and the rest is a reset. -/
theorem werrIsSticky : Obligations.WerrIsSticky := by
  intro s t c ch ch' hstep hch hwerr hch' hclear
  cases step_channel hstep hch hch' with
  | kept => exact absurd hwerr (by simp [hclear])
  | written a v rest hhost hafter _ =>
    obtain ⟨hloc, hbit⟩ := State.writeLoc_clears_werr hch hwerr hafter hclear
    exact .inl ⟨a, v, rest, hhost, locate_status hloc, hbit⟩
  | completed _ hends _ =>
    rw [hends.settle_werr, hwerr] at hclear
    cases hclear
  | reset rest hsched => exact .inr ⟨rfl, rest, hsched⟩

end Sys2Proof.Machine
end

section
/-! Every command in flight completes: each step brings the block nearer to rest. -/

namespace Sys2Proof.Machine

theorem length_busyMoves (c : Nat) (chans : List Channel) : (busyMoves c chans).length = chans.countP (·.busy) := by
  induction chans generalizing c with
  | nil => rfl
  | cons first rest ih =>
    unfold busyMoves
    cases hb : first.busy <;> simp [hb, ih]

/-- There is one enabled completion for each BUSY channel (R119). -/
theorem State.length_completions (s : State) : s.completions.length = s.chans.countP (·.busy) := length_busyMoves 0 s.chans

theorem SameBlock.completions {s t : State} (h : SameBlock s t) : t.completions = s.completions := by
  rw [State.completions, h.chans, State.completions]

/-- A completion leaves one BUSY channel fewer. -/
theorem State.afterBody_completions_lt {s : State} {ch : Channel} (hch : s.chan? s.sel = some ch) (hbusy : ch.busy = true)
    (ran : Except ErrCode Channel × Nat) : (s.afterBody ch ran).completions.length < s.completions.length := by
  obtain ⟨hlt, hget⟩ := List.getElem?_eq_some_iff.mp hch
  have hafter : (s.afterBody ch ran).chans = s.chans.set s.sel (ch.settle s.bufBytes ran.1) := rfl
  have hpos : 0 < s.chans.countP (·.busy) := List.countP_pos_iff.mpr ⟨ch, State.chan?_mem hch, hbusy⟩
  rw [State.length_completions, State.length_completions, hafter, List.countP_set hlt, hget]
  simp only [hbusy, Channel.settle_busy]
  simpa using hpos

/-- What falls with every step until the schedule is used up and every channel is IDLE: the moves still scheduled, then the accesses
the host has left, then the commands in flight, then the accesses that may still come before a completion (R131). -/
def State.rank (s : State) : ℕ ×ₗ ℕ ×ₗ ℕ ×ₗ ℕ :=
  toLex (s.sched.length, toLex (s.host.length, toLex (s.completions.length, s.delayLeft)))

theorem State.rank_lt_iff (s t : State) :
    t.rank < s.rank ↔ t.sched.length < s.sched.length ∨ t.sched.length = s.sched.length ∧
      (t.host.length < s.host.length ∨ t.host.length = s.host.length ∧
        (t.completions.length < s.completions.length ∨ t.completions.length = s.completions.length ∧
          t.delayLeft < s.delayLeft)) := by
  simp only [State.rank, Prod.Lex.toLex_lt_toLex]

/-- An access made while a command is in flight takes one from the delay. -/
theorem State.delayAfter_host {s : State} (h : ¬s.AllIdle) : s.delayAfter .host = some (s.delayLeft - 1) :=
  if_pos ⟨rfl, mt s.completions_eq_nil.mp h⟩

/-- A freely chosen move, made while a command is in flight: a completion ends one command; an access of the host is used up or, where
the host still waits, takes one from the delay. -/
theorem freeMove_rank_lt {s t : State} {m : Move} (h : s.Inv) (hidle : ¬s.AllIdle) (hm : s.freeMove? = some m)
    (hrun : runMove m (s.afterChoice m) = .next t) : t.rank < s.rank := by
  have hsched : t.sched = s.sched := (runMove_order hrun).sched
  obtain ⟨m', hm', hmem⟩ := State.freeMove?_of_busy hidle
  obtain rfl := Option.some.inj (hm'.symm.trans hm)
  refine (s.rank_lt_iff t).mpr (.inr ⟨congrArg _ hsched, ?_⟩)
  rcases hmem with hcompletion | ⟨rfl, _, hdelay⟩
  · obtain ⟨c, ch, rfl, hch, hbusy⟩ := State.mem_completions hcompletion
    obtain ⟨body, hdone, _⟩ := completionMove_of_busy (s := s.afterChoice (.complete c)) hch hbusy (h.job_ne_zero hch hbusy)
    obtain rfl := Host.Outcome.next.inj (hrun.symm.trans hdone)
    exact .inr ⟨rfl, .inl (State.afterBody_completions_lt (s := (s.afterChoice (.complete c)).setSel c) hch hbusy _)⟩
  · obtain ⟨horder, ⟨op, rest, hbefore, hafter⟩ | ⟨hsame, hhost⟩⟩ := hostMove_order hrun
    · have hlt : t.host.length < s.host.length := by
        rw [hafter, show s.host = op :: rest from hbefore]
        exact Nat.lt_succ_self _
      exact .inl hlt
    · have hleft : t.delayLeft = s.delayLeft - 1 := by
        rw [State.delayLeft, horder.delay, State.afterChoice_delay, State.delayAfter_host hidle, Option.getD_some]
      have hcompletions := ((s.afterChoice_sameBlock .host).trans hsame).completions
      exact .inr ⟨congrArg _ hhost, .inr ⟨congrArg _ hcompletions, by omega⟩⟩

/-- Until the schedule is used up and every channel is IDLE, each step brings the block nearer to it. -/
theorem step_rank_lt {s t : State} (h : s.Inv) (hstep : step s = .next t) (hwork : ¬(s.sched = [] ∧ s.AllIdle)) :
    t.rank < s.rank := by
  cases hsched : s.sched with
  | cons m rest =>
    rw [step_scheduled h.params hsched] at hstep
    have hrest : t.sched = rest := (runMove_order hstep).sched
    refine (s.rank_lt_iff t).mpr (.inl ?_)
    rw [hrest, hsched]
    exact Nat.lt_succ_self _
  | nil =>
    have hidle : ¬s.AllIdle := fun hidle => hwork ⟨hsched, hidle⟩
    obtain ⟨m, hm, _⟩ := State.freeMove?_of_busy hidle
    rw [step_free h.params hsched hm] at hstep
    exact freeMove_rank_lt h hidle hm hstep

theorem exists_run_to_idle {s : State} (h : s.Inv) :
    ∃ n t, Host.Core.run Sys2Proof.core n s = .next t ∧ t.numCh = s.numCh ∧ t.sched = [] ∧ t.AllIdle := by
  by_cases hwork : s.sched = [] ∧ s.AllIdle
  · exact ⟨0, s, run_zero s, rfl, hwork⟩
  · obtain ⟨u, hstep⟩ := theBlockNeverStops s h
    have hlt := step_rank_lt h hstep hwork
    obtain ⟨n, t, hrun, hnum, hend⟩ := exists_run_to_idle (everyStepKeepsTheInvariant s u h hstep)
    obtain ⟨_, hparams⟩ := step_params hstep
    exact ⟨n + 1, t, (run_succ n hstep).trans hrun, hnum.trans hparams, hend⟩
termination_by s.rank
decreasing_by exact hlt

/-- Settles O57: the rank cannot fall for ever. -/
theorem everyCommandInFlightCompletes : Obligations.EveryCommandInFlightCompletes := fun _ h => exists_run_to_idle h

end Sys2Proof.Machine
end

section
/-! With nothing left for the host to do and nothing scheduled, the commands in flight drain one at a time. -/

namespace Sys2Proof.Machine

/-- The completion of a BUSY channel ends its command and leaves the schedule and the host's accesses as they are (R119). -/
theorem completionMove_drains {s : State} {c : Nat} {ch : Channel} (hch : s.chan? c = some ch) (hbusy : ch.busy = true)
    (hjob : ch.job ≠ 0) :
    ∃ t, completionMove c s = .next t ∧ t.sched = s.sched ∧ t.host = s.host ∧
      t.completions.length < s.completions.length := by
  obtain ⟨body, hdone, -⟩ := completionMove_of_busy hch hbusy hjob
  exact ⟨_, hdone, rfl, rfl, State.afterBody_completions_lt (s := s.setSel c) hch hbusy _⟩

/-- With no access left and none scheduled, a step ends one of the commands in flight, where there is one (R119, R142). -/
theorem step_drains {s : State} (h : s.Inv) (hsched : s.sched = []) (hhost : s.host = []) :
    ∃ t, step s = .next t ∧ t.sched = [] ∧ t.host = [] ∧ t.completions.length ≤ s.completions.length - 1 := by
  obtain ⟨-, hidle, hrest⟩ | ⟨m, left, ⟨-, hne⟩ | ⟨c, ch, rfl, hch, hbusy⟩, hstep⟩ :=
    aFreeStepMakesAnEnabledMove s h.params hsched
  · exact ⟨s, hrest, hsched, hhost, by simp [s.completions_eq_nil.mpr hidle]⟩
  · exact absurd hhost hne
  · obtain ⟨t, hdone, hsched', hhost', hfewer⟩ :=
      completionMove_drains (s := { s with draws := s.draws + 1, delay := left }) hch hbusy (h.job_ne_zero hch hbusy)
    exact ⟨t, hstep.trans hdone, hsched'.trans hsched, hhost'.trans hhost, Nat.le_sub_one_of_lt hfewer⟩

/-- As many steps as there are commands in flight, or more, end them all. -/
theorem run_drains {s : State} {n : Nat} (h : s.Inv) (hsched : s.sched = []) (hhost : s.host = [])
    (hn : s.completions.length ≤ n) : ∃ t, Host.Core.run Sys2Proof.core n s = .next t ∧ t.AllIdle := by
  induction n generalizing s with
  | zero => exact ⟨s, run_zero s, s.completions_eq_nil.mp (List.length_eq_zero_iff.mp (Nat.le_zero.mp hn))⟩
  | succ n ih =>
    obtain ⟨u, hstep, hsched', hhost', hfewer⟩ := step_drains h hsched hhost
    obtain ⟨t, hrun, hidle⟩ := ih (everyStepKeepsTheInvariant s u h hstep) hsched' hhost' (by omega)
    exact ⟨t, (run_succ n hstep).trans hrun, hidle⟩

/-- Settles O29: no more commands are in flight than there are channels. -/
theorem commandsInFlightDrain : Obligations.CommandsInFlightDrain := by
  intro s h hsched hhost
  refine run_drains h hsched hhost ?_
  rw [State.length_completions]
  exact List.countP_le_length

end Sys2Proof.Machine
end

section
/-! Reads of an input and of the words of both windows, whichever of their bytes are specified. -/

namespace Sys2Proof.Machine

/-- One read of a byte (93 U1). -/
theorem Memory.draw_eq (m : Memory) (a draws : Nat) :
    m.draw a draws =
      if m.get? a = none then (Config.freeByte draws, draws + 1) else ((m.get? a).getD 0, draws) := by
  cases h : m.get? a with
  | none => simp [Memory.draw_of_none h]
  | some b => simp [Memory.draw_of_some h]

/-- Settles O39: an input is one read of a row of bytes, and a word of a window on the bus is one read of a word of its buffer. -/
theorem onlyUnwrittenBytesAreDraws : Obligations.OnlyUnwrittenBytesAreDraws := by
  refine ⟨fun ch x draws hinput => Channel.input_of_inputIs hinput draws, Memory.draw_eq, fun ch draws => ?_,
    fun s c j ch a hparams hch => ⟨fun hj ha => ?_, fun hidle hj ha => ?_⟩⟩
  · exact ⟨Memory.length_drawBytes _ _ _ _, Memory.drawBytes_found _ _ _ _⟩
  · have hbuf := bufBytes_le_of_paramsOk hparams
    have hloc : s.locate a = .din c j := State.locate_window hch ha (by omega) (channelLoc_dinWord c hj)
    rw [State.memRead_of_locate hloc, State.readLoc_din hch]
    exact Memory.drawWord_found ch.din j s.draws
  · have hbuf := bufBytes_le_of_paramsOk hparams
    have hloc : s.locate a = .dout c j := State.locate_window hch ha (by omega) (channelLoc_doutWord c hbuf hj)
    rw [State.memRead_of_locate hloc, State.readLoc_dout hch, hidle, if_neg Bool.false_ne_true]
    exact Memory.drawWord_found ch.dout j s.draws

end Sys2Proof.Machine
end

section
/-! The reset step. -/

namespace Sys2Proof.Machine

/-- Settles O28: after the reset move every channel there is stands at its reset values. -/
theorem resetClearsTheBlock : Obligations.ResetClearsTheBlock := by
  intro s
  refine ⟨s.resetBlock, rfl, rfl, s.numCh_resetBlock, rfl, rfl, ?_, fun c ch hch => ?_⟩
  · simp [State.irq]
  · rw [State.chan?_resetBlock] at hch
    obtain ⟨-, hreset⟩ := Option.ite_none_right_eq_some.mp hch
    obtain rfl := Option.some.inj hreset
    exact ⟨rfl, rfl, rfl, rfl, rfl, by decide, rfl, rfl, rfl, rfl, by decide, by decide,
      Memory.get?_nil, Memory.get?_nil⟩

end Sys2Proof.Machine
end
